-- ==== Sys2Proof/Word.lean ====
section
/-! DEFINITION. The word types of the register space: every register is 32 bits wide as the host sees it (10_state.md R14,
20_memory.md R43), a buffer entry is one byte (R31, R32, R34), an address names one word of 4096 (R42). -/

namespace Sys2Proof

/-- One register as the host sees it (R14). -/
abbrev Word := BitVec 32

/-- One buffer entry (R31, R32, R34). -/
abbrev Byte := BitVec 8

/-- A word address of the host register space, `0x000..0xFFF` (R42). -/
abbrev Addr := BitVec 12

end Sys2Proof
end

