-- ==== Sys2Proof/Syntax.lean ====
section
/-! DEFINITION. The eleven commands of 30_encoding.md R63, one constructor per row of spec/opcode_table.json. -/

namespace Sys2Proof

/-- A command with its operands as the command word carries them (R61, R62). `len` is the whole 8-bit `LEN` field: a length
outside the command's range is a command too, the one that records `BAD_LEN` (R64, R65). -/
inductive Instr where
  /-- R105 -/
  | nop
  /-- R74: GF(2) addition. -/
  | padd
  /-- R75: multiplication modulo the generator. -/
  | pmulm
  /-- R76: exponentiation modulo the generator. -/
  | ppowm
  /-- R77: remainder modulo the generator. -/
  | prem
  /-- R92: residue of the first `len` bytes, the last two un-inverted where `inv`. -/
  | synd (len : BitVec 8) (inv : Bool)
  /-- R93: look `s` up in the table of frame length `len`. -/
  | tlookup (len : BitVec 8) (s : BitVec 16)
  /-- R96: demodulate the input bits. -/
  | demod
  /-- R100: search every frame length. -/
  | fsearch
  /-- R101: demodulate, then search. -/
  | process
  /-- R106: clear the recorded error. -/
  | clrerr
deriving DecidableEq, Repr

end Sys2Proof
end

