-- ==== Sys2Proof/WellFormed.lean ====
section
/-! DEFINITION. The length ranges of 30_encoding.md R65: a command that is not well-formed decodes, and its performance
records `BAD_LEN` (R64, R66). -/

namespace Sys2Proof

/-- R65: `SYND` requires `L ≤ 21`, and `L ≥ 2` when `INV = 1`. -/
def syndLenOk (len : BitVec 8) (inv : Bool) : Bool :=
  decide (len.toNat ≤ 21) && (!inv || decide (2 ≤ len.toNat))

/-- R65: `TLOOKUP` requires `5 ≤ L ≤ 21`. -/
def tlookupLenOk (len : BitVec 8) : Bool :=
  decide (5 ≤ len.toNat) && decide (len.toNat ≤ 21)

/-- The command's length is in its range (R65); a format Z command has no length. -/
def Instr.wf : Instr → Bool
  | .nop => true
  | .padd => true
  | .pmulm => true
  | .ppowm => true
  | .prem => true
  | .synd len inv => syndLenOk len inv
  | .tlookup len _ => tlookupLenOk len
  | .demod => true
  | .fsearch => true
  | .process => true
  | .clrerr => true

end Sys2Proof
end

