-- ==== Sys2Proof/Decode.lean ====
section
/-! DEFINITION. The command word (30_encoding.md R60 to R66): its fields, the decoder, total on any word and rejecting by
name, the encoder, and the opcode table as rows of mask and match. -/

namespace Sys2Proof

/-- Why a word is no command (R64): the error that performing it records. -/
inductive DecodeError where
  /-- Bits 31:24 are no opcode of R63. -/
  | badOpcode
  /-- A must-be-zero field is not zero. -/
  | badField
deriving DecidableEq, Repr

/-- `OPC`, bits 31:24 (R61). -/
def opcField (w : Word) : BitVec 8 := w.extractLsb' 24 8

/-- `LEN`, bits 23:16 (R61). -/
def lenField (w : Word) : BitVec 8 := w.extractLsb' 16 8

/-- `IMM`, bits 15:0 (R61). -/
def immField (w : Word) : BitVec 16 := w.extractLsb' 0 16

/-- The word `{OPC, LEN, IMM}` (R61, R62). -/
def mkWord (opc len : BitVec 8) (imm : BitVec 16) : Word := (opc ++ len) ++ imm

/-- Format Z: `LEN` and `IMM` must be 0 (R62, R66). -/
def formatZ (w : Word) (i : Instr) : Except DecodeError Instr :=
  if w.extractLsb' 0 24 = 0 then .ok i else .error .badField

/-- Format S: bits 15:1 must be 0; bit 0 is `INV` (R62, R66). -/
def formatS (w : Word) (i : BitVec 8 → Bool → Instr) : Except DecodeError Instr :=
  if (immField w).extractLsb' 1 15 = 0 then .ok (i (lenField w) ((immField w).getLsbD 0))
  else .error .badField

/-- Format T: every field is an operand (R62). -/
def formatT (w : Word) (i : BitVec 8 → BitVec 16 → Instr) : Except DecodeError Instr :=
  .ok (i (lenField w) (immField w))

/-- The opcode map (R63) with the checks of R66 in its order: the opcode, then the must-be-zero fields. The third check of
R66, the length, is made by the two commands that have one (log 10). -/
def decode (w : Word) : Except DecodeError Instr :=
  match (opcField w).toNat with
  | 0x00 => formatZ w .nop
  | 0x01 => formatZ w .padd
  | 0x02 => formatZ w .pmulm
  | 0x03 => formatZ w .ppowm
  | 0x04 => formatZ w .prem
  | 0x10 => formatS w .synd
  | 0x11 => formatT w .tlookup
  | 0x20 => formatZ w .demod
  | 0x21 => formatZ w .fsearch
  | 0x22 => formatZ w .process
  | 0x30 => formatZ w .clrerr
  | _ => .error .badOpcode

/-- The opcode of a command (R63). -/
def Instr.opcode : Instr → BitVec 8
  | .nop => 0x00
  | .padd => 0x01
  | .pmulm => 0x02
  | .ppowm => 0x03
  | .prem => 0x04
  | .synd _ _ => 0x10
  | .tlookup _ _ => 0x11
  | .demod => 0x20
  | .fsearch => 0x21
  | .process => 0x22
  | .clrerr => 0x30

/-- The word of a command (R62). -/
def encode : Instr → Word
  | .synd len inv => mkWord (Instr.synd len inv).opcode len (if inv then 1 else 0)
  | .tlookup len s => mkWord (Instr.tlookup len s).opcode len s
  | .nop => mkWord Instr.nop.opcode 0 0
  | .padd => mkWord Instr.padd.opcode 0 0
  | .pmulm => mkWord Instr.pmulm.opcode 0 0
  | .ppowm => mkWord Instr.ppowm.opcode 0 0
  | .prem => mkWord Instr.prem.opcode 0 0
  | .demod => mkWord Instr.demod.opcode 0 0
  | .fsearch => mkWord Instr.fsearch.opcode 0 0
  | .process => mkWord Instr.process.opcode 0 0
  | .clrerr => mkWord Instr.clrerr.opcode 0 0

/-- One row of spec/opcode_table.json. -/
structure OpRow where
  mnemonic : String
  pattern : Word
  mask : Word
deriving DecidableEq, Repr

/-- spec/opcode_table.json: `mask` covers the opcode and the must-be-zero bits. -/
def opcodeTable : List OpRow :=
  [⟨"NOP", 0x00000000, 0xFFFFFFFF⟩, ⟨"PADD", 0x01000000, 0xFFFFFFFF⟩, ⟨"PMULM", 0x02000000, 0xFFFFFFFF⟩,
   ⟨"PPOWM", 0x03000000, 0xFFFFFFFF⟩, ⟨"PREM", 0x04000000, 0xFFFFFFFF⟩, ⟨"SYND", 0x10000000, 0xFF00FFFE⟩,
   ⟨"TLOOKUP", 0x11000000, 0xFF000000⟩, ⟨"DEMOD", 0x20000000, 0xFFFFFFFF⟩, ⟨"FSEARCH", 0x21000000, 0xFFFFFFFF⟩,
   ⟨"PROCESS", 0x22000000, 0xFFFFFFFF⟩, ⟨"CLRERR", 0x30000000, 0xFFFFFFFF⟩]

/-- The word is one of the row's words. -/
def OpRow.matchesWord (r : OpRow) (w : Word) : Bool := w &&& r.mask == r.pattern

/-- The mnemonic of a command, as the table and the assembler spell it (R63, R69). -/
def Instr.mnemonic : Instr → String
  | .nop => "NOP"
  | .padd => "PADD"
  | .pmulm => "PMULM"
  | .ppowm => "PPOWM"
  | .prem => "PREM"
  | .synd _ _ => "SYND"
  | .tlookup _ _ => "TLOOKUP"
  | .demod => "DEMOD"
  | .fsearch => "FSEARCH"
  | .process => "PROCESS"
  | .clrerr => "CLRERR"

/-- The command the decoder reads from the `nbits` bits `w` (bits numbered as spec/opcode_table.json numbers them, the
bits above `nbits` zero). A command is one 32-bit word, written whole to `CMD` (R60), so there is no byte order. -/
def decodeTableWord (nbits w : Nat) : Option Instr :=
  match decode (BitVec.ofNat 32 (w % 2 ^ nbits)) with
  | .ok i => some i
  | .error _ => none

end Sys2Proof
end

