-- ==== Sys2Proof/Config.lean ====
section
/-! DEFINITION. The constants of this hardware (00_scope.md R5, R8), the default of its parameter `GEN` (R5, D33), and the
free values of the spec (`draw`, R12). -/

namespace Sys2Proof.Config

/-- The default generator polynomial (R5, D33): `x^16 + …`, bit `i` the coefficient of `x^i`. The generator a machine
runs with is the field `gen` of State (log 1). -/
def defaultGen : BitVec 17 := 0x16F63

/-- The strap value that `State.reset` samples (R9; D32 gives it no default). DESIGN CHOICE (log 2): correction enabled. -/
def resetEcEnable : Bool := true

/-- The degree of `GEN` (R5). -/
def deg : Nat := 16

/-- The shortest frame length with a table and the shortest searched (R5). -/
def lmin : Nat := 5

/-- The longest frame length with a table (R5). -/
def lmax : Nat := 21

/-- The 3-bit tier is built only below this frame length (R5, R88). -/
def l3lim : Nat := 14

/-- Input entries per output byte: 8 data entries and one separator (R5, R94). -/
def group : Nat := 9

/-- The most bytes the demodulator produces (R5, R95). -/
def maxBytes : Nat := 21

/-- Fewer demodulated bytes than this are a short input (R5, R97). -/
def minBytes : Nat := 5

/-- Trailing bytes of a frame that carry the inverted residue (R5, R83). -/
def crcBytes : Nat := 2

/-- The value XORed into each of the CRC bytes (R5, R83). -/
def crcInv : Byte := 0xFF

/-- The capacity of the input buffer (R5, D6). -/
def inCap : Nat := 189

/-- The identification constant (R16). -/
def idWord : Word := 0x43524531

/-- A `draw` of 8 bits (R12, R39): the value a read of an unwritten buffer entry returns. A free value: it has no body, and
it is applied to the machine's draw counter, so that two reads need not agree (log 3, 5). -/
opaque draw8 : Nat → Byte

/-- A `draw` of 32 bits (R12, R51): what a host read returns where R51 leaves it open (log 11, 12). -/
opaque draw32 : Nat → Word

end Sys2Proof.Config
end

