-- ==== Sys2Proof/Machine/State.lean ====
section
/-! DEFINITION. The state of one engine (10_state.md R14 to R39), the host agent that drives it (00_scope.md R10), the
machine's reasons to stop, and the machine right after reset (70_reset_and_hazards.md R122, R123). -/

namespace Sys2Proof.Machine

/-- The engine's phase (R35). -/
inductive Phase where
  /-- Reset has happened and the construction step has not been taken. -/
  | building
  /-- The engine accepts commands. -/
  | run
  /-- A fatal error was recorded; only reset leaves this phase. -/
  | halted
deriving DecidableEq, Repr

/-- The agents that take steps (R10). -/
inductive Agent where
  | host
  | engine
deriving DecidableEq, Repr

/-- One action of the host (R12, R49, R51, R70, R122). -/
inductive HostOp where
  /-- `HostWrite(a, v)`. -/
  | write (a : Addr) (v : Word)
  /-- `HostRead(a)`. -/
  | read (a : Addr)
  /-- `WAIT`: read `STATUS` until `BUSY` reads 0; one read a step. -/
  | wait
  /-- `BOOT`: read `STATUS` until `READY = 1` or `FATAL = 1`; one read a step. -/
  | boot
  /-- Drive the strap `EC_ENABLE` to `ecEnable` and assert the reset input (R122, R125). -/
  | reset (ecEnable : Bool)
deriving DecidableEq, Repr

/-- The non-fatal error codes (R108). -/
inductive ErrorCode where
  | badOpcode
  | badField
  | badLen
  | busyWrite
deriving DecidableEq, Repr

/-- The fatal error codes (R108). -/
inductive FatalCode where
  | inconsistency
  | tableCollision
deriving DecidableEq, Repr

/-- The result of the last frame search at one frame length (R33); its reserved bits are no state. -/
structure CInfo where
  valid : Bool := false
  tried : Bool := false
  nfix : BitVec 2 := 0
  synd : BitVec 16 := 0
deriving DecidableEq, Repr

/-- The three byte buffers `INBUF`, `BYTEBUF` and `CPAY` (R31, R32, R34) as one sparse memory: a cell is the word address
of the entry (R44) and its byte, the addresses strictly rising. An unlisted entry is unwritten since reset (R39, R122). -/
abbrev Memory := List Host.Cell

/-- The architectural state of one engine (R14 to R38), and after it the model's own fields: the host agent's program and
turns (R10, log 6), the word its last read returned (log 8), and the draw counter (log 4). -/
structure State where
  /-- The parameter `GEN` (R5, R6), read through `GENR` (R21); no step changes it (log 1). -/
  gen : BitVec 17
  /-- `PHASE` (R35). -/
  phase : Phase
  /-- `PENDING` (R36): the spec's own none, or the command word the host has issued and the engine has not performed. -/
  pending : Option Word
  /-- `ECEN_LATCH` (R37). -/
  ecen : Bool
  /-- `LASTCMD` (R18). -/
  lastCmd : Word
  /-- `STATUS.SHORT` (R17). -/
  short : Bool
  /-- `STATUS.ERR` (R17). -/
  err : Bool
  /-- `ERRCODE` (R19). -/
  errCode : BitVec 8
  /-- `ERRINFO` (R20). -/
  errInfo : Word
  /-- `A` (R22). -/
  a : Word
  /-- `B` (R23). -/
  b : Word
  /-- `Y` (R24). -/
  y : Word
  /-- `SYN`, its 16 bits (R25). -/
  syn : BitVec 16
  /-- `LKR` (R26). -/
  lkr : Word
  /-- `INLEN`, its 8 bits (R27). -/
  inlen : BitVec 8
  /-- `BYTELEN`, its 5 bits (R28). -/
  bytelen : BitVec 5
  /-- `CMASK`, its 22 bits (R29). -/
  cmask : BitVec 22
  /-- `CCOUNT`, its 5 bits (R30). -/
  ccount : BitVec 5
  /-- `CINFO[5..21]` (R33), `CINFO[L]` at index `L - 5`. -/
  cinfo : Vector CInfo 17
  /-- `INBUF`, `BYTEBUF` and `CPAY` (R31, R32, R34). -/
  mem : Memory
  /-- The model's own: what the host agent has still to do, in program order (R55). -/
  hostProgram : List HostOp
  /-- The model's own: which agent moves next, as far as that is prescribed (log 6). -/
  turns : List Agent
  /-- The model's own: the word the last `HostRead` returned. -/
  readData : Word
  /-- The model's own: which draw comes next. -/
  drawCount : Nat
deriving DecidableEq, Repr

/-- Nothing in this hardware ends a step without a next state: errors are recorded, not taken (R107), and a halted or idle
engine stays as it is (R110, R121). So no instruction and no step raises a fault, and the type has no constructor (safe). -/
inductive Fault where
deriving DecidableEq, Repr

/-- Why the model refuses to step. -/
inductive Refusal where
  /-- Raised by an arm of `exec` for a command with no meaning yet (safe); no arm raises it. -/
  | notModelled (mnemonic : String)
  /-- Raised by `step` when bit 16 of `GEN` is 0: "a value with another degree is not a configuration of this hardware (a
  model refuses it)" (R6). Safe: no hardware has that generator. -/
  | generatorDegree
deriving DecidableEq, Repr

/-- The state right after reset (R122, R123), for the parameter `GEN` and the strap value sampled. -/
def State.resetWith (gen : BitVec 17) (ecEnable : Bool) : State where
  gen := gen
  phase := .building
  pending := none
  ecen := ecEnable
  lastCmd := 0
  short := false
  err := false
  errCode := 0
  errInfo := 0
  a := 0
  b := 0
  y := 0
  syn := 0
  lkr := 0x00FFFFFF
  inlen := 0
  bytelen := 0
  cmask := 0
  ccount := 0
  cinfo := Vector.replicate 17 {}
  mem := []
  hostProgram := []
  turns := []
  readData := 0
  drawCount := 0

/-- The state right after reset with the default generator (D33) and the strap value of log 2. -/
def State.reset : State := State.resetWith Config.defaultGen Config.resetEcEnable

end Sys2Proof.Machine
end

