-- ==== Sys2Proof/Machine/Ops.lean ====
section
/-! DEFINITION. The shared operations: the buffer memory, the result registers by frame length, draws, recording an error
(this hardware's exception, 60_exceptions.md R107 to R110) and clearing it (its return, R106, R114), and reset (R122). -/

namespace Sys2Proof.Machine

/-! ### The buffer memory: cells sorted by address; an unlisted entry is unwritten (R39) -/

/-- The address of `INBUF[k]` (R44). -/
def inbufAddr (k : Nat) : Nat := 0x100 + k

/-- The address of `BYTEBUF[k]` (R44). -/
def bytebufAddr (k : Nat) : Nat := 0x200 + k

/-- The address of `CPAY[L][k]` (R44). -/
def cpayAddr (L k : Nat) : Nat := 0x400 + 32 * L + k

/-- The address is that of a buffer entry with state: any of `INBUF` and `BYTEBUF`, and `CPAY[L][k]` for `k < L − 2`; the
rest of `CPAY` reads 0 at all times and is never stored (R31, R32, R34). -/
def isBufferEntry (a : Nat) : Bool :=
  (decide (0x100 ≤ a) && decide (a < 0x100 + Config.inCap)) ||
  (decide (0x200 ≤ a) && decide (a < 0x200 + Config.maxBytes)) ||
  (decide (Config.lmin ≤ (a - 0x400) / 32) && decide ((a - 0x400) / 32 ≤ Config.lmax) &&
    decide ((a - 0x400) % 32 + Config.crcBytes < (a - 0x400) / 32))

/-- The addresses rise strictly, above `lo` or from the start. -/
def Memory.sortedFrom : Option Nat → Memory → Bool
  | _, [] => true
  | none, c :: rest => Memory.sortedFrom (some c.1) rest
  | some lo, c :: rest => decide (lo < c.1) && Memory.sortedFrom (some c.1) rest

/-- The canonical form: the addresses rise strictly and each names a buffer entry. -/
def Memory.wf (m : Memory) : Bool := Memory.sortedFrom none m && m.all fun c => isBufferEntry c.1

/-- The byte written last to the entry at `a`, or none where it is unwritten since reset (R39). -/
def Memory.read : Memory → Nat → Option Byte
  | [], _ => none
  | (b, v) :: rest, a => if b = a then some v else Memory.read rest a

/-- Write one entry. -/
def Memory.write : Memory → Nat → Byte → Memory
  | [], a, v => [(a, v)]
  | (b, w) :: rest, a, v =>
    if a < b then (a, v) :: (b, w) :: rest
    else if a = b then (a, v) :: rest
    else (b, w) :: Memory.write rest a v

/-- Write consecutive entries from `a` up. -/
def Memory.writeList (m : Memory) (a : Nat) : List Byte → Memory
  | [] => m
  | v :: rest => Memory.writeList (m.write a v) (a + 1) rest

/-! ### Draws (R12, R39) -/

/-- Go past `n` draws. -/
def State.skipDraws (s : State) (n : Nat) : State := { s with drawCount := s.drawCount + n }

/-- One read of the buffer entry at `a`, which is the `i`-th from the state's next draw: the byte it holds, or a draw of
8 bits while it is unwritten (R39). -/
def State.readEntry (s : State) (a i : Nat) : Byte := (s.mem.read a).getD (Config.draw8 (s.drawCount + i))

/-! ### The result registers by frame length (R29, R30, R33) -/

/-- `CINFO[L]` (R33); nothing for a length outside 5..21. -/
def State.cinfoAt (s : State) (L : Nat) : CInfo :=
  if Config.lmin ≤ L then (s.cinfo[L - Config.lmin]?).getD {} else {}

/-- Write `CINFO[L]`, for `L` in 5..21. -/
def State.setCinfo (s : State) (L : Nat) (c : CInfo) : State :=
  { s with cinfo := if Config.lmin ≤ L then s.cinfo.setIfInBounds (L - Config.lmin) c else s.cinfo }

/-! ### Recording an error, and clearing it -/

/-- `ERRCODE` of a non-fatal error (R108). -/
def ErrorCode.code : ErrorCode → BitVec 8
  | .badOpcode => 0x01
  | .badField => 0x02
  | .badLen => 0x03
  | .busyWrite => 0x04

/-- `ERRCODE` of a fatal error (R108). -/
def FatalCode.code : FatalCode → BitVec 8
  | .inconsistency => 0x80
  | .tableCollision => 0x81

/-- `raise Error(code, info)` (R109): the first error is kept until it is cleared. -/
def recordError (code : ErrorCode) (info : Word) (s : State) : State :=
  if s.err then s else { s with errCode := code.code, errInfo := info, err := true }

/-- `raise Fatal(code, info)` (R110): overwrites a recorded error, halts the engine and drops the pending command. -/
def recordFatal (code : FatalCode) (info : Word) (s : State) : State :=
  { s with errCode := code.code, errInfo := info, err := true, phase := .halted, pending := none }

/-- Clear the recorded error (R106), which re-arms recording (R114). -/
def clearError (s : State) : State := { s with err := false, errCode := 0, errInfo := 0 }

/-- The `ERRINFO` of a fatal error: `{tag[7:0], L[7:0], s[15:0]}` (R108). -/
def fatalInfo (tag L : Nat) (s : BitVec 16) : Word := (BitVec.ofNat 8 tag ++ BitVec.ofNat 8 L) ++ s

/-! ### Reset -/

/-- Assert the reset input with the strap at `ecEnable` (R122): every register to its reset value, every buffer entry
unwritten, a pending command discarded. The parameter `GEN`, the host agent and the draw counter are not the engine's to
reset (log 15). -/
def resetEngine (ecEnable : Bool) (s : State) : State :=
  { State.resetWith s.gen ecEnable with
    hostProgram := s.hostProgram, turns := s.turns, readData := s.readData, drawCount := s.drawCount }

end Sys2Proof.Machine
end

