-- ==== Sys2Proof/Machine/Control.lean ====
section
/-! DEFINITION. The control commands (43_control.md R105, R106). -/

namespace Sys2Proof.Machine

/-- `NOP` (R105): nothing; the command step itself clears `PENDING`. -/
def execNop (s : State) : Host.Outcome State Fault Refusal := .next s

/-- `CLRERR` (R106). -/
def execClrerr (s : State) : Host.Outcome State Fault Refusal := .next (clearError s)

end Sys2Proof.Machine
end

