-- ==== Sys2Proof/Machine/Gf2.lean ====
section
/-! DEFINITION. GF(2) polynomials as natural numbers, bit `i` the coefficient of `x^i` (00_scope.md R13): the carry-less
product, the remainder, the power modulo a generator (40_poly.md R72, R73, R76). A sum is `^^^`. -/

namespace Sys2Proof.Machine

/-- `⊕ over i < n with b[i] = 1 of (a << i)`. -/
def clmulBits (a b : Nat) : Nat → Nat
  | 0 => 0
  | n + 1 => clmulBits a b n ^^^ (if b.testBit n then a <<< n else 0)

/-- The carry-less product (R13): every set bit of `b` lies below `log2 b + 1`. -/
def clmul (a b : Nat) : Nat := clmulBits a b (b.log2 + 1)

/-- The bit-serial reduction of R73 by a generator of degree 16, clearing bits `k + 15` down to 16. -/
def redSteps (g : Nat) : Nat → Nat → Nat
  | 0, a => a
  | k + 1, a => redSteps g k (if a.testBit (k + Config.deg) then a ^^^ (g <<< k) else a)

/-- `RED(a) = a mod GEN` (R72, R73): from the highest set bit of `a` down. -/
def red (g a : Nat) : Nat := redSteps g (a.log2 + 1 - Config.deg) a

/-- The loop of `PPOWM` (R76): `fuel` bounds the bits of the exponent. -/
def powLoop (g : Nat) : (fuel r base e : Nat) → Nat
  | 0, r, _, _ => r
  | fuel + 1, r, base, e =>
    if e = 0 then r
    else powLoop g fuel (if e.testBit 0 then red g (clmul r base) else r) (red g (clmul base base)) (e >>> 1)

/-- `RED(P(a)^e)` by square and multiply, with `P(a)^0 = 1` (R76, D9). -/
def powMod (g a e : Nat) : Nat := powLoop g (e.log2 + 1) 1 (red g a) e

/-- The number of set bits (R12). -/
def popcount {w : Nat} (v : BitVec w) : Nat := (List.range w).countP fun i => v.getLsbD i

end Sys2Proof.Machine
end

