-- ==== Sys2Proof/Machine/Residue.lean ====
section
/-! DEFINITION. The CRC residue of a byte buffer (41_syndrome_table.md R79 to R84) and the wire convention that complements
the last two bytes of a frame (R83). -/

namespace Sys2Proof.Machine

/-- The polynomial of a byte buffer: bit `j` of byte `b` of `n` stands for `x^(8·(n − 1 − b) + j)` (R79, R80), so the head
byte of a buffer lies above the `8 · length` positions of its tail (the integer form of R81). -/
def bufPoly : List Byte → Nat
  | [] => 0
  | c :: rest => (c.toNat <<< (8 * rest.length)) ^^^ bufPoly rest

/-- `Residue(buf)` (R80), a 16-bit value. -/
def residue (g : Nat) (buf : List Byte) : BitVec 16 := BitVec.ofNat 16 (red g (bufPoly buf))

/-- The un-inverted frame (R83): the last two bytes XORed with `0xFF`. -/
def uninvert (frame : List Byte) : List Byte :=
  frame.take (frame.length - Config.crcBytes) ++
    (frame.drop (frame.length - Config.crcBytes)).map (· ^^^ Config.crcInv)

/-- A frame is valid iff the residue of its un-inverted form is 0 (R83). -/
def frameValid (g : Nat) (frame : List Byte) : Bool := residue g (uninvert frame) == 0

end Sys2Proof.Machine
end

