-- ==== Sys2Proof/Machine/Table.lean ====
section
/-! DEFINITION. Error patterns and the correction tables (41_syndrome_table.md R85 to R91). A table is a function of `GEN`,
`ECEN_LATCH` and the frame length (10_state.md R38), not state. -/

namespace Sys2Proof.Machine

/-- An error pattern (R85): one, two or three bit positions, ascending. -/
inductive ErrPattern where
  | one (i : Nat)
  | two (i j : Nat)
  | three (i j k : Nat)
deriving DecidableEq, Repr

/-- The positions of a pattern, ascending (R85). -/
def ErrPattern.positions : ErrPattern → List Nat
  | .one i => [i]
  | .two i j => [i, j]
  | .three i j k => [i, j, k]

/-- `|E|`, the number of bits the pattern flips (R85). -/
def ErrPattern.size (E : ErrPattern) : Nat := E.positions.length

/-- The byte that stands for positions `8·q .. 8·q + 7` in the byte form of a pattern (R79, R85). -/
def patByte (positions : List Nat) (q : Nat) : Byte :=
  positions.foldl (fun acc e => if e / 8 = q then acc ||| ((1 : Byte) <<< (e % 8)) else acc) 0

/-- `PatBytes(L, E)` (R85): bit `e mod 8` of byte `L − 1 − floor(e / 8)` is set for each position `e` (R93). -/
def patBytes (L : Nat) (E : ErrPattern) : List Byte :=
  (List.range L).map fun b => patByte E.positions (L - 1 - b)

/-- The polynomial of a pattern, `⊕ x^i` (R85). -/
def patPoly (positions : List Nat) : Nat := positions.foldr (fun i acc => (1 <<< i) ^^^ acc) 0

/-- `S(E) = RED(⊕_{i ∈ E} x^i)` (R85). -/
def patSyn (g : Nat) (E : ErrPattern) : Nat := red g (patPoly E.positions)

/-- The positions of an `L`-byte frame with their syndromes `S({i})`, ascending: the 1-bit tier's candidates (R86). -/
def singles (g L : Nat) : List (Nat × Nat) := (List.range (8 * L)).map fun i => (i, red g (1 <<< i))

/-- A set of syndromes as the bits of a number. -/
def synSet (syns : List Nat) : Nat := syns.foldl (fun acc s => acc ||| (1 <<< s)) 0

/-- The positions among `ps` with syndrome `s`, ascending. -/
def onesWith (s : Nat) (ps : List (Nat × Nat)) : List Nat :=
  ps.filterMap fun p => if p.2 = s then some p.1 else none

/-- The pairs `i < j` among `ps` with `S({i}) ^ S({j}) = S({i, j}) = s` (R82), ascending. `keys` is the set of the
syndromes of `ps` and only spares scans that would find nothing. -/
def pairsWith (keys s : Nat) : List (Nat × Nat) → List (Nat × Nat)
  | [] => []
  | (i, p) :: rest =>
    (if keys.testBit (s ^^^ p) then (onesWith (s ^^^ p) rest).map fun j => (i, j) else []) ++ pairsWith keys s rest

/-- The triples `i < j < k` among `ps` with `S({i, j, k}) = s`, ascending. -/
def triplesWith (keys s : Nat) : List (Nat × Nat) → List (Nat × Nat × Nat)
  | [] => []
  | (i, p) :: rest => ((pairsWith keys (s ^^^ p) rest).map fun q => (i, q.1, q.2)) ++ triplesWith keys s rest

/-- The 3-bit tier (R88), for a syndrome that no lower tier resolves: only below `L3LIM`, and only where exactly one triple
has the syndrome; a syndrome of two or more triples is blacklisted. -/
def tier3 (L keys s : Nat) (ps : List (Nat × Nat)) : Option ErrPattern :=
  if L < Config.l3lim then
    match triplesWith keys s ps with
    | [(i, j, k)] => some (.three i j k)
    | _ => none
  else none

/-- The lower tiers before the higher (R86 to R88): a triple whose syndrome a lower tier resolves is skipped. -/
def lookupTiers (L keys s : Nat) (ps : List (Nat × Nat)) : Option ErrPattern :=
  match onesWith s ps with
  | i :: _ => some (.one i)
  | [] =>
    match pairsWith keys s ps with
    | (i, j) :: _ => some (.two i j)
    | [] => tier3 L keys s ps

/-- The pattern that `TBL(L)` has for `s`, if it has the key (R89): empty tables where correction is disabled. -/
def tableLookup (g : Nat) (ecen : Bool) (L : Nat) (s : BitVec 16) : Option ErrPattern :=
  if ecen then lookupTiers L (synSet ((singles g L).map Prod.snd)) s.toNat (singles g L) else none

/-! ### Table construction (R86, R87, R91) -/

/-- The first syndrome of the list that is in the set `seen` or repeats an earlier one. -/
def firstRepeat (seen : Nat) : List Nat → Option Nat
  | [] => none
  | s :: rest => if seen.testBit s then some s else firstRepeat (seen ||| (1 <<< s)) rest

/-- The syndromes of the pairs, in ascending lexicographic order (R87, R91). -/
def pairSyns : List (Nat × Nat) → List Nat
  | [] => []
  | (_, p) :: rest => (rest.map fun q => p ^^^ q.2) ++ pairSyns rest

/-- A collision in the 1-bit tier of length `L` (R86): the repeated syndrome. -/
def tier1Collision (g L : Nat) : Option Nat := firstRepeat 0 ((singles g L).map Prod.snd)

/-- A collision in the 2-bit tier of length `L`, with the 1-bit tier or within itself (R87). -/
def tier2Collision (g L : Nat) : Option Nat :=
  firstRepeat (synSet ((singles g L).map Prod.snd)) (pairSyns (singles g L))

/-- Where construction of the tables of length `L` stops: the tier and the repeated syndrome, the 1-bit tier first (R91). -/
def lengthCollision (g L : Nat) : Option (Nat × Nat) :=
  match tier1Collision g L with
  | some s => some (1, s)
  | none => (tier2Collision g L).map fun s => (2, s)

/-- The frame lengths with a table, ascending (R89, R91). -/
def tableLengths : List Nat := (List.range (Config.lmax + 1 - Config.lmin)).map (Config.lmin + ·)

/-- The first collision of the construction step: tier, length and syndrome (R91). -/
def firstCollision (g : Nat) : List Nat → Option (Nat × Nat × Nat)
  | [] => none
  | L :: rest =>
    match lengthCollision g L with
    | some (tier, s) => some (tier, L, s)
    | none => firstCollision g rest

end Sys2Proof.Machine
end

