-- ==== Sys2Proof/Machine/Flags.lean ====
section
/-! DEFINITION. The words with fields: `STATUS` (10_state.md R17), `LKR` (R26, 41_syndrome_table.md R93) and `CINFO`
(R33). They are this hardware's only flags (R40). -/

namespace Sys2Proof.Machine

/-- The word with bit `i` set iff `b`. -/
def bitAt (b : Bool) (i : Nat) : Word := if b then (1 : Word) <<< i else 0

/-- `READY` (R17). -/
def State.ready (s : State) : Bool := s.phase == .run

/-- `BUSY` (R17). -/
def State.busy (s : State) : Bool := s.phase == .building || s.pending.isSome

/-- `FATAL` (R17). -/
def State.fatal (s : State) : Bool := s.phase == .halted

/-- `STATUS` (R17): bits 31:6 read 0. -/
def State.status (s : State) : Word :=
  bitAt s.ready 0 ||| bitAt s.busy 1 ||| bitAt s.ecen 2 ||| bitAt s.short 3 ||| bitAt s.err 4 ||| bitAt s.fatal 5

/-- `LKR` of a miss (R26). -/
def lkrMiss : Word := 0x00FFFFFF

/-- `LKR` of a hit (R26, R93): `1 << 31 | |E| << 24 | POS2 << 16 | POS1 << 8 | POS0`. -/
def lkrFields (nfix : Nat) (pos2 pos1 pos0 : BitVec 8) : Word :=
  ((1 : Word) <<< 31) ||| (BitVec.ofNat 32 nfix <<< 24) ||| (pos2.setWidth 32 <<< 16) ||| (pos1.setWidth 32 <<< 8) |||
    pos0.setWidth 32

/-- `LKR` of a pattern: an absent position is `0xFF` (R93). -/
def lkrHit (E : ErrPattern) : Word :=
  match E with
  | .one i => lkrFields E.size 0xFF 0xFF (BitVec.ofNat 8 i)
  | .two i j => lkrFields E.size 0xFF (BitVec.ofNat 8 j) (BitVec.ofNat 8 i)
  | .three i j k => lkrFields E.size (BitVec.ofNat 8 k) (BitVec.ofNat 8 j) (BitVec.ofNat 8 i)

/-- `LKR` after a lookup (R93). -/
def lkrWord : Option ErrPattern → Word
  | none => lkrMiss
  | some E => lkrHit E

/-- `CINFO[L]` as the host reads it (R33): reserved bits read 0. -/
def CInfo.word (c : CInfo) : Word :=
  bitAt c.valid 31 ||| bitAt c.tried 30 ||| (c.nfix.setWidth 32 <<< 24) ||| c.synd.setWidth 32

end Sys2Proof.Machine
end

