-- ==== Sys2Proof/Machine/Operands.lean ====
section
/-! DEFINITION. How a command reads its buffer operands: the byte buffer's first bytes (10_state.md R32, 20_memory.md R47)
and the input bits in groups (42_demod_frame.md R94, R95). Each entry read is one read in the sense of R39. -/

namespace Sys2Proof.Machine

/-- `BYTEBUF[0..n)`, one read of each entry (R32, R47). -/
def State.bytes (s : State) (n : Nat) : List Byte := (List.range n).map fun k => s.readEntry (bytebufAddr k) k

/-- The number of bytes a demodulation produces, `min(21, floor(INLEN / 9))` (R95). -/
def State.groupCount (s : State) : Nat := min Config.maxBytes (s.inlen.toNat / Config.group)

/-- Data bit `t` of group `k`: entry `9k + t` read as zero or non-zero (R31, R94). The separator, entry `9k + 8`, is not
read. -/
def State.dataBit (s : State) (k t : Nat) : Bool := s.readEntry (inbufAddr (Config.group * k + t)) (8 * k + t) != 0

/-- The byte with bit `t` set iff `bits t`, for `t` in 0..7. -/
def byteOfBits (bits : Nat → Bool) : Byte :=
  (List.range 8).foldl (fun acc t => if bits t then acc ||| ((1 : Byte) <<< t) else acc) 0

/-- Output byte `k`: the first entry of the group is the least significant bit (R94). -/
def State.groupByte (s : State) (k : Nat) : Byte := byteOfBits (s.dataBit k)

end Sys2Proof.Machine
end

