-- ==== Sys2Proof/Machine/Poly.lean ====
section
/-! DEFINITION. The polynomial commands (40_poly.md R71 to R77). Each reads `A` and `B` when its step is taken, writes `Y`,
sets no flag and raises no error. -/

namespace Sys2Proof.Machine

/-- The generator as a polynomial (R13). -/
def State.g (s : State) : Nat := s.gen.toNat

/-- `PADD` (R74): `Y <- A ^ B`, not reduced. -/
def execPadd (s : State) : Host.Outcome State Fault Refusal := .next { s with y := s.a ^^^ s.b }

/-- `PMULM` (R75): `Y <- zext_32(RED(clmul(A, B)))`. -/
def execPmulm (s : State) : Host.Outcome State Fault Refusal :=
  .next { s with y := BitVec.ofNat 32 (red s.g (clmul s.a.toNat s.b.toNat)) }

/-- `PPOWM` (R76): `Y <- zext_32(RED(P(A)^B))`, `B` an unsigned exponent. -/
def execPpowm (s : State) : Host.Outcome State Fault Refusal :=
  .next { s with y := BitVec.ofNat 32 (powMod s.g s.a.toNat s.b.toNat) }

/-- `PREM` (R77): `Y <- zext_32(RED(A))`; `B` is not read. -/
def execPrem (s : State) : Host.Outcome State Fault Refusal :=
  .next { s with y := BitVec.ofNat 32 (red s.g s.a.toNat) }

end Sys2Proof.Machine
end

