-- ==== Sys2Proof/Machine/Frame.lean ====
section
/-! DEFINITION. Demodulation and the frame search: `DEMOD`, `FSEARCH`, `PROCESS` (42_demod_frame.md R94 to R103). -/

namespace Sys2Proof.Machine

/-- The demodulation of R96: `BYTEBUF[0..n)`, `BYTELEN` and `STATUS.SHORT`; the entries `n` and up keep their values. -/
def demodulate (s : State) : State :=
  { s with
    mem := s.mem.writeList (bytebufAddr 0) ((List.range s.groupCount).map s.groupByte)
    bytelen := BitVec.ofNat 5 s.groupCount
    short := decide (s.groupCount < Config.minBytes) }.skipDraws (8 * s.groupCount)

/-- What trying one frame length gives (R98). -/
inductive FrameResult where
  /-- A candidate: its payload and its repaired-bit count. -/
  | candidate (payload : List Byte) (nfix : Nat)
  /-- No candidate for this length. -/
  | noCandidate
  /-- A repair left a non-zero residue. -/
  | inconsistent
deriving DecidableEq, Repr

/-- Exclusive or, byte by byte. -/
def xorBytes (u v : List Byte) : List Byte := List.zipWith (· ^^^ ·) u v

/-- The payload: the slice minus its last two bytes (R98, R102). -/
def payloadOf (W : List Byte) : List Byte := W.take (W.length - Config.crcBytes)

/-- R98 after the syndrome `syn` of the un-inverted slice `W` is known: a direct match, a repair that is verified again, or
no candidate. -/
def judgeFrame (g : Nat) (ecen : Bool) (L : Nat) (W : List Byte) (syn : BitVec 16) : FrameResult :=
  if syn = 0 then .candidate (payloadOf W) 0
  else
    match tableLookup g ecen L syn with
    | some E =>
      if residue g (xorBytes W (patBytes L E)) = 0 then .candidate (payloadOf (xorBytes W (patBytes L E))) E.size
      else .inconsistent
    | none => .noCandidate

/-- `CINFO[L]` after length `L` was tried with pre-repair syndrome `syn` and gave no candidate (R33, R100). -/
def triedInfo (syn : BitVec 16) : CInfo where
  tried := true
  synd := syn

/-- `CINFO[L]` of a candidate (R33, R100). -/
def candidateInfo (syn : BitVec 16) (nfix : Nat) : CInfo where
  valid := true
  tried := true
  nfix := BitVec.ofNat 2 nfix
  synd := syn

/-- Store the candidate of length `L` (R100): `CINFO`, `CPAY`, `CMASK` and `CCOUNT`. -/
def storeCandidate (L : Nat) (syn : BitVec 16) (payload : List Byte) (nfix : Nat) (s : State) : State :=
  { s with
    mem := s.mem.writeList (cpayAddr L 0) payload
    cmask := s.cmask ||| ((1 : BitVec 22) <<< L)
    ccount := s.ccount + 1 }.setCinfo L (candidateInfo syn nfix)

/-- The un-inverted working slice of length `L`, a fresh read of `BYTEBUF[0..L)` (R41, R98). -/
def State.trySlice (s : State) (L : Nat) : List Byte := uninvert (s.bytes L)

/-- The pre-repair syndrome at length `L` (R98). -/
def State.trySyn (s : State) (L : Nat) : BitVec 16 := residue s.g (s.trySlice L)

/-- `FrameTry(L)` (R98). -/
def State.tryFrame (s : State) (L : Nat) : FrameResult := judgeFrame s.g s.ecen L (s.trySlice L) (s.trySyn L)

/-- What the search does with the result of length `L` (R100): a fatal error is raised before anything is stored. -/
def applyTry (L : Nat) (syn : BitVec 16) (r : FrameResult) (s : State) : State :=
  match r with
  | .candidate payload nfix => storeCandidate L syn payload nfix s
  | .noCandidate => s.setCinfo L (triedInfo syn)
  | .inconsistent => recordFatal .inconsistency (fatalInfo 0 L syn) s

/-- Try length `L` and store its result; the `L` entries of the slice were read. -/
def searchLength (L : Nat) (s : State) : State := (applyTry L (s.trySyn L) (s.tryFrame L) s).skipDraws L

/-- The lengths of the list in turn, each once (R98 to R100); after a fatal error no further length is tried (R111). -/
def searchLengths : List Nat → State → State
  | [], s => s
  | L :: rest, s =>
    if s.tryFrame L = .inconsistent then searchLength L s else searchLengths rest (searchLength L s)

/-- The lengths tried for a buffer of `n` bytes: 5 up to and including `n − 1` (R99, D4). -/
def triedLengths (n : Nat) : List Nat := (List.range (n - Config.lmin)).map (Config.lmin + ·)

/-- Set every entry of `CPAY` that has state to 0 (R34, R100), for the lengths of the list. -/
def clearPayloads (m : Memory) : List Nat → Memory
  | [] => m
  | L :: rest => clearPayloads (m.writeList (cpayAddr L 0) (List.replicate (L - Config.crcBytes) 0)) rest

/-- What a search clears first (R100): `CINFO`, `CPAY`, `CMASK`, `CCOUNT`. -/
def clearResults (s : State) : State :=
  { s with
    cinfo := Vector.replicate 17 {}
    mem := clearPayloads s.mem tableLengths
    cmask := 0
    ccount := 0 }

/-- The frame search of R100. -/
def frameSearch (s : State) : State := searchLengths (triedLengths s.bytelen.toNat) (clearResults s)

/-- `DEMOD` (R96). -/
def execDemod (s : State) : Host.Outcome State Fault Refusal := .next (demodulate s)

/-- `FSEARCH` (R100). -/
def execFsearch (s : State) : Host.Outcome State Fault Refusal := .next (frameSearch s)

/-- `PROCESS` (R101): `DEMOD`, then `FSEARCH`, in one command step. -/
def execProcess (s : State) : Host.Outcome State Fault Refusal := .next (frameSearch (demodulate s))

end Sys2Proof.Machine
end

