-- ==== Sys2Proof/Machine/Syndrome.lean ====
section
/-! DEFINITION. `SYND` and `TLOOKUP` (41_syndrome_table.md R92, R93). The length check of 30_encoding.md R66 is the first
thing each does: outside its range the command records `BAD_LEN` with the command word and changes nothing else (log 10). -/

namespace Sys2Proof.Machine

/-- The slice whose residue `SYND` takes (R92): `BYTEBUF[0..L)`, its last two bytes un-inverted where `INV = 1`. -/
def syndSlice (L : Nat) (inv : Bool) (s : State) : List Byte :=
  if inv then uninvert (s.bytes L) else s.bytes L

/-- `SYND L, INV` (R92). -/
def execSynd (len : BitVec 8) (inv : Bool) (s : State) : Host.Outcome State Fault Refusal :=
  if syndLenOk len inv then
    .next ({ s with syn := residue s.g (syndSlice len.toNat inv s) }.skipDraws len.toNat)
  else .next (recordError .badLen (encode (.synd len inv)) s)

/-- `TLOOKUP L, syn` (R93). -/
def execTlookup (len : BitVec 8) (syn : BitVec 16) (s : State) : Host.Outcome State Fault Refusal :=
  if tlookupLenOk len then .next { s with lkr := lkrWord (tableLookup s.g s.ecen len.toNat syn) }
  else .next (recordError .badLen (encode (.tlookup len syn)) s)

end Sys2Proof.Machine
end

