-- ==== Sys2Proof/Machine/Dispatch.lean ====
section
/-! DEFINITION. One arm per command (30_encoding.md R63). -/

namespace Sys2Proof.Machine

def exec (i : Instr) (s : State) : Host.Outcome State Fault Refusal :=
  match i with
  | .nop => Sys2Proof.Machine.execNop s
  | .padd => Sys2Proof.Machine.execPadd s
  | .pmulm => Sys2Proof.Machine.execPmulm s
  | .ppowm => Sys2Proof.Machine.execPpowm s
  | .prem => Sys2Proof.Machine.execPrem s
  | .synd len inv => Sys2Proof.Machine.execSynd len inv s
  | .tlookup len syn => Sys2Proof.Machine.execTlookup len syn s
  | .demod => Sys2Proof.Machine.execDemod s
  | .fsearch => Sys2Proof.Machine.execFsearch s
  | .process => Sys2Proof.Machine.execProcess s
  | .clrerr => Sys2Proof.Machine.execClrerr s

end Sys2Proof.Machine
end

