-- ==== Sys2Proof/Machine/Engine.lean ====
section
/-! DEFINITION. The engine agent: the construction step (70_reset_and_hazards.md R124) and the command step (30_encoding.md
R66). -/

namespace Sys2Proof.Machine

/-- The construction step (R124, R91): with correction enabled, the first collision halts the engine. -/
def buildStep (s : State) : State :=
  match (if s.ecen then firstCollision s.g tableLengths else none) with
  | some (tier, L, syn) => recordFatal .tableCollision (fatalInfo tier L (BitVec.ofNat 16 syn)) s
  | none => { s with phase := .run }

/-- The error that performing an undecodable word records (R66). -/
def DecodeError.errorCode : DecodeError → ErrorCode
  | .badOpcode => .badOpcode
  | .badField => .badField

/-- `Execute(w)` (R66): the decoding checks, then the command. -/
def execute (w : Word) (s : State) : Host.Outcome State Fault Refusal :=
  match decode w with
  | .ok i => exec i s
  | .error e => .next (recordError (DecodeError.errorCode e) w s)

/-- The engine's turn: the construction step, the command step, or nothing where neither is enabled (R66, R110, R124,
log 7). -/
def engineMove (s : State) : Host.Outcome State Fault Refusal :=
  match s.phase with
  | .building => .next (buildStep s)
  | .halted => .next s
  | .run =>
    match s.pending with
    | none => .next s
    | some w => execute w { s with pending := none }

end Sys2Proof.Machine
end

