-- ==== Sys2Proof/Machine/Registers.lean ====
section
/-! DEFINITION. The register space (20_memory.md R42 to R45): which register a word address names, what each register
holds, which are read-only. -/

namespace Sys2Proof.Machine

/-- The registers of R14 and R44. -/
inductive Reg where
  | id
  | status
  | cmd
  | errcode
  | errinfo
  | genr
  | a
  | b
  | y
  | syn
  | lkr
  | inlen
  | bytelen
  | cmask
  | ccount
  /-- `INBUF[k]`, `k` in 0..188. -/
  | inbuf (k : Nat)
  /-- `BYTEBUF[k]`, `k` in 0..20. -/
  | bytebuf (k : Nat)
  /-- `CINFO[L]`, `L` in 5..21. -/
  | cinfo (L : Nat)
  /-- `CPAY[L][k]`, `L` in 5..21, `k` in 0..31. -/
  | cpay (L k : Nat)
deriving DecidableEq, Repr

/-- The indexes of an array register are in range (R14). -/
def Reg.inRange : Reg → Bool
  | .inbuf k => decide (k < Config.inCap)
  | .bytebuf k => decide (k < Config.maxBytes)
  | .cinfo L => decide (Config.lmin ≤ L) && decide (L ≤ Config.lmax)
  | .cpay L k => decide (Config.lmin ≤ L) && decide (L ≤ Config.lmax) && decide (k < 32)
  | _ => true

/-- The word address of a register (R44). -/
def Reg.addr : Reg → Nat
  | .id => 0x000
  | .status => 0x001
  | .cmd => 0x002
  | .errcode => 0x003
  | .errinfo => 0x004
  | .genr => 0x005
  | .a => 0x008
  | .b => 0x009
  | .y => 0x00A
  | .syn => 0x00B
  | .lkr => 0x00C
  | .inlen => 0x010
  | .bytelen => 0x011
  | .cmask => 0x012
  | .ccount => 0x013
  | .inbuf k => inbufAddr k
  | .bytebuf k => bytebufAddr k
  | .cinfo L => 0x300 + L
  | .cpay L k => cpayAddr L k

/-- The register of a scalar's address (R44), `0x000..0x0FF`. -/
def scalarAt (n : Nat) : Option Reg :=
  match n with
  | 0x000 => some .id
  | 0x001 => some .status
  | 0x002 => some .cmd
  | 0x003 => some .errcode
  | 0x004 => some .errinfo
  | 0x005 => some .genr
  | 0x008 => some .a
  | 0x009 => some .b
  | 0x00A => some .y
  | 0x00B => some .syn
  | 0x00C => some .lkr
  | 0x010 => some .inlen
  | 0x011 => some .bytelen
  | 0x012 => some .cmask
  | 0x013 => some .ccount
  | _ => none

/-- The array register of an address from `0x100` up, before its range is checked (R44). -/
def arrayAt (n : Nat) : Reg :=
  if n < 0x200 then .inbuf (n - 0x100)
  else if n < 0x300 then .bytebuf (n - 0x200)
  else if n < 0x400 then .cinfo (n - 0x300)
  else .cpay ((n - 0x400) / 32) ((n - 0x400) % 32)

/-- The register a word address names, or none where it is unmapped (R44, R45). -/
def regAt (a : Addr) : Option Reg :=
  if a.toNat < 0x100 then scalarAt a.toNat
  else if (arrayAt a.toNat).inRange then some (arrayAt a.toNat) else none

/-- The registers a host write changes: `CMD` and the read-write ones (R14, R44). -/
def Reg.writable : Reg → Bool
  | .cmd => true
  | .a => true
  | .b => true
  | .inlen => true
  | .bytelen => true
  | .inbuf _ => true
  | .bytebuf _ => true
  | _ => false

/-- A register's current value as 10_state.md defines it; an unwritten entry is a draw (R16 to R34, R39). -/
def State.regValue (s : State) : Reg → Word
  | .id => Config.idWord
  | .status => s.status
  | .cmd => s.lastCmd
  | .errcode => s.errCode.setWidth 32
  | .errinfo => s.errInfo
  | .genr => s.gen.setWidth 32
  | .a => s.a
  | .b => s.b
  | .y => s.y
  | .syn => s.syn.setWidth 32
  | .lkr => s.lkr
  | .inlen => s.inlen.setWidth 32
  | .bytelen => s.bytelen.setWidth 32
  | .cmask => s.cmask.setWidth 32
  | .ccount => s.ccount.setWidth 32
  | .inbuf k => (s.readEntry (inbufAddr k) 0).setWidth 32
  | .bytebuf k => (s.readEntry (bytebufAddr k) 0).setWidth 32
  | .cinfo L => (s.cinfoAt L).word
  | .cpay L k => if k + Config.crcBytes < L then (s.readEntry (cpayAddr L k) 0).setWidth 32 else 0

end Sys2Proof.Machine
end

