-- ==== Sys2Proof/Machine/HostPort.lean ====
section
/-! DEFINITION. The host's accesses (20_memory.md R49 to R52): acceptance of a write and its effect, the value of a read. -/

namespace Sys2Proof.Machine

/-- The effect of a performed write on a mapped register (R18, R22, R23, R27, R28, R31, R32); none on a read-only one
(R50). A write to `CMD` sets `LASTCMD` and `PENDING` (R52). -/
def performWrite (r : Reg) (v : Word) (s : State) : State :=
  match r with
  | .cmd => { s with pending := some v, lastCmd := v }
  | .a => { s with a := v }
  | .b => { s with b := v }
  | .inlen => { s with inlen := BitVec.ofNat 8 (min v.toNat Config.inCap) }
  | .bytelen => { s with bytelen := BitVec.ofNat 5 (min v.toNat Config.maxBytes) }
  | .inbuf k => { s with mem := s.mem.write (inbufAddr k) (v.setWidth 8) }
  | .bytebuf k => { s with mem := s.mem.write (bytebufAddr k) (v.setWidth 8) }
  | _ => s

/-- `HostWrite(a, v)` (R49): dropped while the engine builds or a command is pending, with `BUSY_WRITE` recorded; dropped
without a record while it is halted; an unmapped address has no effect (R45). -/
def hostWrite (a : Addr) (v : Word) (s : State) : State :=
  match regAt a with
  | none => s
  | some r =>
    match s.phase with
    | .halted => s
    | .building => recordError .busyWrite (a.setWidth 32) s
    | .run => if s.pending.isSome then recordError .busyWrite (a.setWidth 32) s else performWrite r v s

/-- The registers that are always read exactly (R51). -/
def Reg.alwaysExact : Reg → Bool
  | .id => true
  | .status => true
  | .cmd => true
  | .errcode => true
  | .errinfo => true
  | .genr => true
  | _ => false

/-- The result registers of a frame search that `FSEARCH` writes (R100). -/
def Reg.searchResult : Reg → Bool
  | .cinfo _ => true
  | .cpay _ _ => true
  | .cmask => true
  | .ccount => true
  | _ => false

/-- What `DEMOD` writes (R96): `BYTEBUF[0..n)`, `BYTELEN`, `STATUS`. -/
def State.demodWrites (s : State) : Reg → Bool
  | .bytebuf k => decide (k < s.groupCount)
  | .bytelen => true
  | .status => true
  | _ => false

/-- `Writes` of a word that fails decoding (R68), and of `CLRERR` (R106). -/
def Reg.errorState : Reg → Bool
  | .status => true
  | .errcode => true
  | .errinfo => true
  | _ => false

/-- `Writes` of a command that passes decoding: the "Writes" line of its rule (R68). -/
def State.commandWrites (s : State) (r : Reg) : Instr → Bool
  | .nop => false
  | .padd => r == .y
  | .pmulm => r == .y
  | .ppowm => r == .y
  | .prem => r == .y
  | .synd _ _ => r == .syn
  | .tlookup _ _ => r == .lkr
  | .demod => s.demodWrites r
  | .fsearch => r.searchResult
  | .process => s.demodWrites r || r.searchResult
  | .clrerr => r.errorState

/-- `Writes(w)` (R68). -/
def State.wordWrites (s : State) (w : Word) (r : Reg) : Bool :=
  match decode w with
  | .ok i => if i.wf then s.commandWrites r i else r.errorState
  | .error _ => r.errorState

/-- The registers that read a draw after a fatal error inside `FSEARCH` or `PROCESS` (R51, second exception). -/
def Reg.lostInFatal : Reg → Bool
  | .bytebuf _ => true
  | .bytelen => true
  | r => r.searchResult

/-- A read of the register returns a draw of 32 bits (R51): the pending command may write it, or a failed search has left
it open. -/
def State.readsDraw (s : State) (r : Reg) : Bool :=
  !r.alwaysExact &&
    ((match s.pending with
      | some w => s.wordWrites w r
      | none => false) ||
     (s.phase == .halted && s.errCode == FatalCode.inconsistency.code && r.lostInFatal))

/-- The word `HostRead(a)` returns (R51); 0 for an unmapped address (R45). -/
def State.hostReadValue (s : State) (a : Addr) : Word :=
  match regAt a with
  | none => 0
  | some r => if s.readsDraw r then Config.draw32 s.drawCount else s.regValue r

/-- `HostRead(a)`: the host receives the word; nothing of the engine changes (R52). The next read takes a next draw. -/
def hostRead (a : Addr) (s : State) : State :=
  { s with readData := s.hostReadValue a, drawCount := s.drawCount + 1 }

end Sys2Proof.Machine
end

