-- ==== Sys2Proof/Machine/HostAgent.lean ====
section
/-! DEFINITION. The host agent (00_scope.md R10): its actions, the pseudo-instructions (30_encoding.md R70) as programs of
actions, and which agent moves next (93_implementation_defined.md item 15, R130). -/

namespace Sys2Proof.Machine

/-- The address of `STATUS` (R44). -/
def statusAddr : Addr := 0x001

/-- The address of `CMD` (R44). -/
def cmdAddr : Addr := 0x002

/-- `WR <reg>, <value>` (R69). -/
def wr (r : Reg) (v : Word) : HostOp := .write (BitVec.ofNat 12 r.addr) v

/-- `RD <reg>` (R69). -/
def rd (r : Reg) : HostOp := .read (BitVec.ofNat 12 r.addr)

/-- `DO <cmd>` for a command word (R70): `WR CMD, w`, then `WAIT`. -/
def doWord (w : Word) : List HostOp := [.write cmdAddr w, .wait]

/-- `DO <cmd>` (R70). -/
def doCmd (i : Instr) : List HostOp := doWord (encode i)

/-- `WR BUF[k], v_k` for the values in order, from index `k` up. -/
def writeArray (reg : Nat → Reg) : Nat → List Word → List HostOp
  | _, [] => []
  | k, v :: rest => wr (reg k) v :: writeArray reg (k + 1) rest

/-- `LOADBITS b0 … b(n−1)` (R70). -/
def loadBits (bits : List Word) : List HostOp :=
  writeArray .inbuf 0 bits ++ [wr .inlen (BitVec.ofNat 32 bits.length)]

/-- `LOADBYTES c0 … c(n−1)` (R70). -/
def loadBytes (bytes : List Word) : List HostOp :=
  writeArray .bytebuf 0 bytes ++ [wr .bytelen (BitVec.ofNat 32 bytes.length)]

/-- The host's next action can end now: a poll of `WAIT` finds `BUSY = 0`, one of `BOOT` finds `READY` or `FATAL` (R70). -/
def State.pollDone (s : State) : HostOp → Bool
  | .wait => !s.busy
  | .boot => s.ready || s.fatal
  | .write _ _ => true
  | .read _ => true
  | .reset _ => true

/-- One action of the host. A poll that finds its condition unmet is repeated (R70). -/
def hostAct (op : HostOp) (rest : List HostOp) (s : State) : State :=
  match op with
  | .write a v => hostWrite a v { s with hostProgram := rest }
  | .read a => hostRead a { s with hostProgram := rest }
  | .wait => hostRead statusAddr (if s.pollDone .wait then { s with hostProgram := rest } else s)
  | .boot => hostRead statusAddr (if s.pollDone .boot then { s with hostProgram := rest } else s)
  | .reset ecEnable => resetEngine ecEnable { s with hostProgram := rest }

/-- The host's turn: its next action, or nothing where its program has ended. -/
def hostMove (s : State) : State :=
  match s.hostProgram with
  | [] => s
  | op :: rest => hostAct op rest s

/-- Which agent moves next: the prescribed one; where none is prescribed, the host, except that the engine moves while the
host's program has ended or its poll is unmet, so that an enabled engine step is eventually taken (R130, log 6). -/
def State.nextAgent (s : State) : Agent :=
  match s.turns with
  | t :: _ => t
  | [] =>
    match s.hostProgram with
    | [] => .engine
    | op :: _ => if s.pollDone op then .host else .engine

/-- The turn is taken. -/
def State.takeTurn (s : State) : State := { s with turns := s.turns.tail }

end Sys2Proof.Machine
end

