-- ==== Sys2Proof/Machine/Step.lean ====
section
/-! DEFINITION. One step of the machine: one agent moves (00_scope.md R10, R11; 20_memory.md R55). -/

namespace Sys2Proof.Machine

/-- Bit 16 of `GEN` is set: its degree is 16 (R6). -/
def State.genOk (s : State) : Bool := s.gen.getLsbD 16

/-- One step: the agent whose turn it is takes one action. A generator of another degree is refused (R6). -/
def step (s : State) : Host.Outcome State Fault Refusal :=
  if s.genOk then
    match s.nextAgent with
    | .host => .next (hostMove s.takeTurn)
    | .engine => engineMove s.takeTurn
  else .refused .generatorDegree

/-- The state in which the command word `w` is the one the engine performs next: booted (`PHASE = RUN`), the word accepted
by a `CMD` write (R18), the engine's turn (log 9). -/
def State.withFetchWord (s : State) (nbits w : Nat) : State :=
  { s with
    phase := .run
    pending := some (BitVec.ofNat 32 (w % 2 ^ nbits))
    lastCmd := BitVec.ofNat 32 (w % 2 ^ nbits)
    turns := .engine :: s.turns }

end Sys2Proof.Machine
end

