-- ==== Sys2Proof/Machine/Platform.lean ====
section
/-! DEFINITION. Several engines on one platform (60_exceptions.md R119): each has its own copy of every register, and none
shares mutable state with another. -/

namespace Sys2Proof.Machine

/-- Engine `k` of the platform takes one step, its own agents' (host or engine), the others none. DESIGN CHOICE (log 19):
each engine has its own host program and turns. -/
def platformStep (k : Nat) (engines : List State) : Host.Outcome (List State) Fault Refusal :=
  match engines[k]? with
  | none => .next engines
  | some s =>
    match step s with
    | .next t => .next (engines.set k t)
    | .fault f => .fault f
    | .refused r => .refused r

end Sys2Proof.Machine
end

