-- ==== Sys2Proof/Safety.lean ====
section
/-! DEFINITION. The invariant of the machine's states, each field from a rule of the spec, in the terms that statements
use. -/

namespace Sys2Proof.Machine

/-- The codes `ERRCODE` can hold while an error is recorded (R108). -/
def errorCodes : List (BitVec 8) :=
  [ErrorCode.badOpcode.code, ErrorCode.badField.code, ErrorCode.badLen.code, ErrorCode.busyWrite.code,
   FatalCode.inconsistency.code, FatalCode.tableCollision.code]

/-- What R33, R99 and R102 say of `CINFO[L]`. -/
structure CInfo.Ok (L : Nat) (c : CInfo) : Prop where
  /-- "`VALID = 1` implies `TRIED = 1`" (R33). -/
  validTried : c.valid = true → c.tried = true
  /-- `SYND` is 0 when not `TRIED` (R33). -/
  untriedSynd : c.tried = false → c.synd = 0
  /-- `NFIX` is 0 when not `VALID` (R33). -/
  invalidNfix : c.valid = false → c.nfix = 0
  /-- Three repaired bits only below frame length 14 (R102). -/
  threeShort : c.nfix = 3 → L < Config.l3lim
  /-- "`L = 21` is never tried" (R99). -/
  lastUntried : L = Config.lmax → c.tried = false

/-- The invariant: it holds after reset, and every step keeps it. -/
structure State.Inv (s : State) : Prop where
  /-- The buffer memory is in its canonical form. -/
  memWf : s.mem.wf = true
  /-- Legal values of `INLEN` (R27). -/
  inlenLegal : s.inlen.toNat ≤ Config.inCap
  /-- Legal values of `BYTELEN` (R28). -/
  bytelenLegal : s.bytelen.toNat ≤ Config.maxBytes
  /-- A command is pending only in `PHASE = RUN` (R35, R49, R110, R122). -/
  pendingRuns : s.pending.isSome = true → s.phase = .run
  /-- `LASTCMD` is the last accepted word, so it is the pending one (R18). -/
  pendingLast : ∀ w, s.pending = some w → s.lastCmd = w
  /-- No error recorded reads 0 (R19, R20). -/
  clearReadsZero : s.err = false → s.errCode = 0 ∧ s.errInfo = 0
  /-- A recorded error has a code of R108. -/
  recordedCode : s.err = true → s.errCode ∈ errorCodes
  /-- The engine has halted iff a fatal error is recorded (R17, R110). -/
  haltedFatal : s.phase = .halted ↔
    s.errCode = FatalCode.inconsistency.code ∨ s.errCode = FatalCode.tableCollision.code
  /-- `CMASK` bit `L` is 1 iff `CINFO[L].VALID = 1`; its other bits read 0 (R29). -/
  maskValid : ∀ L, L < 22 → s.cmask.getLsbD L = (decide (Config.lmin ≤ L) && (s.cinfoAt L).valid)
  /-- `CCOUNT` is `popcount(CMASK)` (R30). -/
  countMask : s.ccount.toNat = popcount s.cmask
  /-- The fields of every `CINFO[L]`. -/
  infoOk : ∀ L, Config.lmin ≤ L → L ≤ Config.lmax → (s.cinfoAt L).Ok L
  /-- Bits 30:26 of `LKR` read 0 (R26). -/
  lkrReserved : s.lkr.extractLsb' 26 5 = 0

end Sys2Proof.Machine
end

