-- ==== Sys2Proof/Certificates/Slice0/Obligations.lean ====
section
/-! DEFINITION. The statements for the provers, and before them the few definitions they are written with. Each docstring
says which rule of spec/ it formalises. -/

open Sys2Proof Sys2Proof.Machine

namespace Sys2Proof.Spec

/-! ### Vocabulary -/

/-- `raise Error(code, info)` as R109 words it: nothing where an error is recorded, else the three error registers. -/
def Recorded (code : BitVec 8) (info : Word) (s t : State) : Prop :=
  (s.err = true → t = s) ∧ (s.err = false → t = { s with err := true, errCode := code, errInfo := info })

/-- Performing the word records that error and does nothing else (R64, R109). -/
def Raises (code : BitVec 8) (w : Word) (s : State) : Prop :=
  ∃ t, execute w s = .next t ∧ Recorded code w s t

/-- The opcodes of R63. -/
def knownOpcodes : List (BitVec 8) := [0x00, 0x01, 0x02, 0x03, 0x04, 0x10, 0x11, 0x20, 0x21, 0x22, 0x30]

/-- The polynomial over GF(2) that a natural number stands for (R13). -/
noncomputable def polyOf (n : Nat) : Polynomial (ZMod 2) :=
  ∑ i ∈ Finset.range (n.log2 + 1), if n.testBit i then Polynomial.X ^ i else 0

/-- The `Y` a polynomial command leaves for operands `a` and `b` (R78). -/
def yOf (i : Instr) (s : State) (a b : Word) : Word :=
  match exec i { s with a := a, b := b } with
  | .next t => t.y
  | _ => 0

/-- The positions of the set bits of a byte buffer (R79): bit `j` of byte `b` of `n` is position `8·(n − 1 − b) + j`. -/
def setPositions (buf : List Byte) : List Nat :=
  (List.range buf.length).flatMap fun b =>
    (List.range 8).filterMap fun j =>
      if (buf.getD b 0).getLsbD j then some (8 * (buf.length - 1 - b) + j) else none

/-- Exclusive or of a list of numbers. -/
def xorAll (l : List Nat) : Nat := l.foldl (· ^^^ ·) 0

/-- Shift one byte in, bit 7 first, reducing after each bit (R81, bit-serial form). -/
def shiftInByte (g r : Nat) (c : Byte) : Nat :=
  [7, 6, 5, 4, 3, 2, 1, 0].foldl (fun r j => red g ((r <<< 1) ^^^ (if c.getLsbD j then 1 else 0))) r

/-- The last two bytes XORed with `0xFF` (R83), byte by byte. -/
def invertLastTwo (F : List Byte) : List Byte :=
  F.mapIdx fun k c => if k + 2 < F.length then c else c ^^^ 0xFF

/-- `F` is what one read of each entry of `BYTEBUF[0..n)` can give: the byte of a written entry, anything for an unwritten
one (R39). -/
def SliceOf (s : State) (n : Nat) (F : List Byte) : Prop :=
  F.length = n ∧ ∀ k v, k < n → s.mem.read (0x200 + k) = some v → F[k]? = some v

/-- `S(E)` of one, two or three positions (R85). -/
def syn1 (g i : Nat) : Nat := red g (1 <<< i)
def syn2 (g i j : Nat) : Nat := red g ((1 <<< i) ^^^ (1 <<< j))
def syn3 (g i j k : Nat) : Nat := red g ((1 <<< i) ^^^ (1 <<< j) ^^^ (1 <<< k))

/-- No two positions of an `L`-byte frame have one syndrome (R86). -/
def Tier1Distinct (g L : Nat) : Prop := ∀ i j, i < j → j < 8 * L → syn1 g i ≠ syn1 g j

/-- No pair's syndrome is a key of the 1-bit tier or another pair's (R87). -/
def Tier2Distinct (g L : Nat) : Prop :=
  (∀ i j k, i < j → j < 8 * L → k < 8 * L → syn2 g i j ≠ syn1 g k) ∧
  (∀ i j i' j', i < j → j < 8 * L → i' < j' → j' < 8 * L → (i, j) ≠ (i', j') → syn2 g i j ≠ syn2 g i' j')

/-- Construction of the tables of length `L` meets no collision (R86, R87). -/
def NoCollision (g L : Nat) : Prop := Tier1Distinct g L ∧ Tier2Distinct g L

/-- Position `j` repeats the syndrome of an earlier one (R86). -/
def SingleRepeats (g j : Nat) : Prop := ∃ i, i < j ∧ syn1 g i = syn1 g j

/-- Pair `(i', j')` comes before pair `(i, j)` in ascending lexicographic order (R91). -/
def PairBefore (i' j' i j : Nat) : Prop := i' < i ∨ (i' = i ∧ j' < j)

/-- The syndrome of the pair `(i, j)` of an `L`-byte frame is a key of the 1-bit tier or that of an earlier pair (R87). -/
def PairRepeats (g L i j : Nat) : Prop :=
  (∃ k, k < 8 * L ∧ syn1 g k = syn2 g i j) ∨
  (∃ i' j', i' < j' ∧ j' < 8 * L ∧ PairBefore i' j' i j ∧ syn2 g i' j' = syn2 g i j)

/-- `s` is the syndrome at which the 1-bit tier of length `L` stops: that of the first position that repeats (R91). -/
def FirstSingleCollision (g L s : Nat) : Prop :=
  ∃ j, j < 8 * L ∧ syn1 g j = s ∧ SingleRepeats g j ∧ ∀ j', j' < j → ¬ SingleRepeats g j'

/-- `s` is the syndrome at which the 2-bit tier of length `L` stops: that of the first pair that repeats (R91). -/
def FirstPairCollision (g L s : Nat) : Prop :=
  ∃ i j, i < j ∧ j < 8 * L ∧ syn2 g i j = s ∧ PairRepeats g L i j ∧
    ∀ i' j', i' < j' → j' < 8 * L → PairBefore i' j' i j → ¬ PairRepeats g L i' j'

/-- `TBL(L)` maps `s` to `E`: the union of the three tiers (R86 to R89). -/
def InTable (g L s : Nat) : ErrPattern → Prop
  | .one i => i < 8 * L ∧ syn1 g i = s
  | .two i j => i < j ∧ j < 8 * L ∧ syn2 g i j = s
  | .three i j k =>
    L < 14 ∧ (i < j ∧ j < k ∧ k < 8 * L ∧ syn3 g i j k = s) ∧
    (∀ a, a < 8 * L → syn1 g a ≠ s) ∧ (∀ a b, a < b → b < 8 * L → syn2 g a b ≠ s) ∧
    (∀ a b c, a < b → b < c → c < 8 * L → syn3 g a b c = s → (a, b, c) = (i, j, k))

/-- The positions of the pattern ascend within an `L`-byte frame (R85). -/
def PatternOf (L : Nat) (E : ErrPattern) : Prop :=
  E.positions.Pairwise (· < ·) ∧ ∀ i ∈ E.positions, i < 8 * L

/-- The payload registers of length `L` hold these bytes (R34, R100). -/
def PayloadIs (t : State) (L : Nat) (bytes : List Byte) : Prop :=
  ∀ k, k < L - 2 → t.mem.read (0x400 + 32 * L + k) = bytes[k]?

/-- What the search leaves for a length `L` tried on the slice `F` (R98, R100). -/
def TriedOutcome (s t : State) (L : Nat) (F : List Byte) : Prop :=
  let g := s.gen.toNat
  let W := invertLastTwo F
  let syn := residue g W
  (syn = 0 → t.cinfoAt L = { valid := true, tried := true, nfix := 0, synd := 0 } ∧ PayloadIs t L W) ∧
  (syn ≠ 0 → ∀ E, tableLookup g s.ecen L syn = some E →
    t.cinfoAt L = { valid := true, tried := true, nfix := BitVec.ofNat 2 E.size, synd := syn } ∧
    PayloadIs t L (List.zipWith (· ^^^ ·) W (patBytes L E)) ∧
    residue g (List.zipWith (· ^^^ ·) W (patBytes L E)) = 0) ∧
  (syn ≠ 0 → tableLookup g s.ecen L syn = none →
    t.cinfoAt L = { valid := false, tried := true, nfix := 0, synd := syn } ∧ PayloadIs t L (List.replicate L 0))

/-- The host moves next and its next action is `op`. -/
def HostDoes (s : State) (op : HostOp) (rest : List HostOp) : Prop :=
  s.genOk = true ∧ s.nextAgent = .host ∧ s.hostProgram = op :: rest

/-- The state in which the host's action takes effect: its turn taken, the action consumed. -/
def afterAction (s : State) (rest : List HostOp) : State := { s with turns := s.turns.tail, hostProgram := rest }

/-- The engine accepts commands and is idle, and no interleaving is prescribed. -/
def Idle (s : State) : Prop := s.genOk = true ∧ s.phase = .run ∧ s.pending = none ∧ s.turns = []

/-- The content of a register with the draws left out: an unwritten entry has none (R39). -/
def held (s : State) : Reg → Option Word
  | .inbuf k => (s.mem.read (0x100 + k)).map fun v => v.setWidth 32
  | .bytebuf k => (s.mem.read (0x200 + k)).map fun v => v.setWidth 32
  | .cpay L k => (s.mem.read (0x400 + 32 * L + k)).map fun v => v.setWidth 32
  | r => some (s.regValue r)

/-- The registers of R51's second exception: those that a failed search leaves open. -/
def SearchLeavesOpen (r : Reg) : Prop :=
  r = .cmask ∨ r = .ccount ∨ r = .bytelen ∨ (∃ k, r = .bytebuf k) ∨ (∃ L, r = .cinfo L) ∨ ∃ L k, r = .cpay L k

/-- Neither exception of R51 applies to a read of the register: the pending command, if any, does not write it, and the
engine has not halted on `INCONSISTENCY` leaving it open. -/
def ReadIsFixed (s : State) (r : Reg) : Prop :=
  (∀ w, s.pending = some w → s.wordWrites w r = false) ∧
  (s.phase = .halted → s.errCode = 0x80 → ¬ SearchLeavesOpen r)

end Sys2Proof.Spec

open Sys2Proof.Spec

/-! ### Encoding -/

/-- R62, R63: words written out from the formats decode to the commands they stand for, and words that fail a check are
refused by name. -/
def Obligations.DecodesWordsOfTheFormats : Prop :=
  decode 0x00000000 = .ok .nop ∧ decode 0x01000000 = .ok .padd ∧ decode 0x02000000 = .ok .pmulm ∧
  decode 0x03000000 = .ok .ppowm ∧ decode 0x04000000 = .ok .prem ∧ decode 0x100B0001 = .ok (.synd 11 true) ∧
  decode 0x100C0000 = .ok (.synd 12 false) ∧ decode 0x110B5D01 = .ok (.tlookup 11 0x5D01) ∧
  decode 0x20000000 = .ok .demod ∧ decode 0x21000000 = .ok .fsearch ∧ decode 0x22000000 = .ok .process ∧
  decode 0x30000000 = .ok .clrerr ∧ decode 0xFF000000 = .error .badOpcode ∧ decode 0x05000000 = .error .badOpcode ∧
  decode 0x01000001 = .error .badField ∧ decode 0x10000002 = .error .badField

/-- R60 to R63: decode and encode agree in both directions, for every command with every operand and for every word. -/
def Obligations.DecodeAndEncodeAgree : Prop :=
  (∀ i : Instr, decode (encode i) = .ok i) ∧ ∀ (w : Word) (i : Instr), decode w = .ok i → encode i = w

/-- opcode_table.json: a word is a command exactly when it matches a row, and then that row is unique and the command's. -/
def Obligations.DecoderMatchesOpcodeTable : Prop :=
  (∀ (w : Word) (i : Instr), decode w = .ok i →
    ∃ r ∈ opcodeTable, r.matchesWord w = true ∧ r.mnemonic = i.mnemonic) ∧
  (∀ (w : Word), ∀ r ∈ opcodeTable, r.matchesWord w = true → ∃ i, decode w = .ok i ∧ i.mnemonic = r.mnemonic) ∧
  (∀ (w : Word), ∀ r ∈ opcodeTable, ∀ r' ∈ opcodeTable, r.matchesWord w = true → r'.matchesWord w = true → r = r')

/-- R64, R65 (in the order of R66): a word that fails several checks raises the first only, and changes nothing else; a
word that passes them is performed. -/
def Obligations.IllegalWordsRaiseTheFirstError : Prop :=
  ((List.range 256).filter fun n => BitVec.ofNat 8 n ∉ knownOpcodes).length = 245 ∧
  ∀ (w : Word) (s : State),
    let op := w.extractLsb' 24 8
    let L := (w.extractLsb' 16 8).toNat
    (op ∉ knownOpcodes → Raises 0x01 w s) ∧
    (op ∈ knownOpcodes → op ≠ 0x10 → op ≠ 0x11 → w.extractLsb' 0 24 ≠ 0 → Raises 0x02 w s) ∧
    (op = 0x10 → w.extractLsb' 1 15 ≠ 0 → Raises 0x02 w s) ∧
    (op = 0x10 → w.extractLsb' 1 15 = 0 → (21 < L ∨ (w.getLsbD 0 = true ∧ L < 2)) → Raises 0x03 w s) ∧
    (op = 0x11 → (L < 5 ∨ 21 < L) → Raises 0x03 w s) ∧
    (op ∈ knownOpcodes → op ≠ 0x10 → op ≠ 0x11 → w.extractLsb' 0 24 = 0 →
      ∃ i, decode w = .ok i ∧ i.wf = true ∧ execute w s = exec i s) ∧
    (op = 0x10 → w.extractLsb' 1 15 = 0 → L ≤ 21 → (w.getLsbD 0 = true → 2 ≤ L) →
      ∃ i, decode w = .ok i ∧ i.wf = true ∧ execute w s = exec i s) ∧
    (op = 0x11 → 5 ≤ L → L ≤ 21 → ∃ i, decode w = .ok i ∧ i.wf = true ∧ execute w s = exec i s)

/-! ### The step -/

/-- R66: with `PHASE = RUN` and a pending word that decodes to `i`, the engine's step is `exec` of `i` with `PENDING` none
and the turn taken; and so runs the word that `withFetchWord` places (log 9). -/
def Obligations.StepRunsThePendingCommand : Prop :=
  (∀ (s : State) (w : Word) (i : Instr), s.genOk = true → s.nextAgent = .engine → s.phase = .run →
    s.pending = some w → decode w = .ok i →
    step s = exec i { s with pending := none, turns := s.turns.tail }) ∧
  (∀ (s : State) (nbits w : Nat) (i : Instr), s.genOk = true → decodeTableWord nbits w = some i →
    step (s.withFetchWord nbits w) =
      exec i { s with phase := .run, pending := none, lastCmd := BitVec.ofNat 32 (w % 2 ^ nbits) })

/-- R6: a generator of another degree is no configuration of this hardware, and the model refuses it. -/
def Obligations.OtherGeneratorsAreRefused : Prop :=
  ∀ s : State, s.gen.getLsbD 16 = false → step s = .refused .generatorDegree

/-- R86, R87: construction of length `L` finds a collision exactly where two patterns of the lower tiers have one
syndrome. -/
def Obligations.CollisionIffRepeatedSyndrome : Prop :=
  ∀ g L : Nat, lengthCollision g L = none ↔ NoCollision g L

/-- R124 with R91: the construction step ends in RUN where no tier collides or correction is disabled; else it halts with
the first collision recorded: at the smallest length that has one, the 1-bit tier first, positions and pairs in ascending
lexicographic order. -/
def Obligations.ConstructionStepBuildsOrHalts : Prop :=
  ∀ s : State, s.genOk = true → s.phase = .building → s.nextAgent = .engine →
    ((s.ecen = false ∨ ∀ L, 5 ≤ L → L ≤ 21 → NoCollision s.gen.toNat L) →
      step s = .next { s with phase := .run, turns := s.turns.tail }) ∧
    (s.ecen = true → ∀ L, 5 ≤ L → L ≤ 21 → ¬ NoCollision s.gen.toNat L →
      (∀ L', 5 ≤ L' → L' < L → NoCollision s.gen.toNat L') →
      ∃ (tier : BitVec 8) (syn : BitVec 16),
        step s = .next { s with
          phase := .halted, pending := none, err := true, errCode := 0x81,
          errInfo := (tier ++ BitVec.ofNat 8 L) ++ syn, turns := s.turns.tail } ∧
        ((tier = 1 ∧ FirstSingleCollision s.gen.toNat L syn.toNat) ∨
         (tier = 2 ∧ Tier1Distinct s.gen.toNat L ∧ FirstPairCollision s.gen.toNat L syn.toNat)))

/-- R90: for the default generator no construction fault occurs at any length, so the construction step ends in RUN. -/
def Obligations.DefaultGeneratorHasNoCollision : Prop :=
  (∀ L, 5 ≤ L → L ≤ 21 → NoCollision 0x16F63 L) ∧
  ∀ s : State, s.gen = 0x16F63 → s.phase = .building → s.nextAgent = .engine →
    step s = .next { s with phase := .run, turns := s.turns.tail }

/-- R90: the multiplicative order of x modulo the default generator is 255. -/
def Obligations.DefaultOrderOfXIs255 : Prop :=
  powMod 0x16F63 2 255 = 1 ∧ ∀ e, 0 < e → e < 255 → powMod 0x16F63 2 e ≠ 1

/-! ### Polynomial commands -/

/-- R74: `PADD` adds the polynomials, which is exclusive or, and changes `Y` only. -/
def Obligations.PaddAddsPolynomials : Prop :=
  encode .padd = 0x01000000 ∧
  ∀ s : State, exec .padd s = .next { s with y := s.a ^^^ s.b } ∧
    polyOf (s.a ^^^ s.b).toNat = polyOf s.a.toNat + polyOf s.b.toNat

/-- R75 with R13: `PMULM` leaves in `Y` the remainder of the polynomial product by the generator, and changes nothing
else. -/
def Obligations.PmulmMultipliesModuloTheGenerator : Prop :=
  encode .pmulm = 0x02000000 ∧
  ∀ s : State, s.genOk = true → ∃ y : Word, exec .pmulm s = .next { s with y := y } ∧ y.toNat < 2 ^ 16 ∧
    polyOf y.toNat = (polyOf s.a.toNat * polyOf s.b.toNat) %ₘ polyOf s.gen.toNat

/-- R76 with R13: `PPOWM` leaves in `Y` the remainder of the polynomial power by the generator, `B` an unsigned exponent,
and changes nothing else; for the default generator and `A = 2` the exponent counts modulo 255. -/
def Obligations.PpowmRaisesToThePower : Prop :=
  encode .ppowm = 0x03000000 ∧
  ∀ s : State, s.genOk = true → ∃ y : Word, exec .ppowm s = .next { s with y := y } ∧ y.toNat < 2 ^ 16 ∧
    polyOf y.toNat = (polyOf s.a.toNat ^ s.b.toNat) %ₘ polyOf s.gen.toNat ∧
    (s.gen = 0x16F63 → s.a = 2 → y.toNat = powMod 0x16F63 2 (s.b.toNat % 255))

/-- R77 with R13: `PREM` leaves in `Y` the polynomial remainder of `A`, whatever `B` holds, and changes nothing else. -/
def Obligations.PremIsThePolynomialRemainder : Prop :=
  encode .prem = 0x04000000 ∧
  ∀ s : State, s.genOk = true → ∃ y : Word, exec .prem s = .next { s with y := y } ∧ y.toNat < 2 ^ 16 ∧
    polyOf y.toNat = polyOf s.a.toNat %ₘ polyOf s.gen.toNat ∧ ∀ b, yOf .prem s s.a b = y

/-- R72 with R13: the reduction is the polynomial remainder by the generator; its range, its fixed points and its zero; every
16-bit value is a residue. -/
def Obligations.ReductionRange : Prop :=
  ∀ gen : BitVec 17, gen.getLsbD 16 = true →
    (∀ a, polyOf (red gen.toNat a) = polyOf a %ₘ polyOf gen.toNat) ∧
    (∀ a, red gen.toNat a < 2 ^ 16) ∧ (∀ a, a < 2 ^ 16 → red gen.toNat a = a) ∧ red gen.toNat gen.toNat = 0 ∧
    ∀ r, (∃ a, red gen.toNat a = r) ↔ r < 2 ^ 16

/-- R73: one turn of the bit-serial loop removes the highest set bit and keeps the remainder, and the loop ends below
degree 16. -/
def Obligations.BitSerialReduction : Prop :=
  ∀ gen : BitVec 17, gen.getLsbD 16 = true → ∀ a : Nat,
    (16 ≤ a.log2 → a ≠ 0 →
      a ^^^ (gen.toNat <<< (a.log2 - 16)) < 2 ^ a.log2 ∧
      red gen.toNat a = red gen.toNat (a ^^^ (gen.toNat <<< (a.log2 - 16)))) ∧
    (a = 0 ∨ a.log2 < 16 → red gen.toNat a = a)

/-- R78: the laws of the polynomial commands, as functions of `A` and `B`. -/
def Obligations.PolynomialCommandLaws : Prop :=
  ∀ s : State, s.genOk = true →
    (∀ a b, yOf .padd s a b = yOf .padd s b a) ∧
    (∀ a b c, yOf .padd s (yOf .padd s a b) c = yOf .padd s a (yOf .padd s b c)) ∧
    (∀ a, yOf .padd s a 0 = a) ∧ (∀ a, yOf .padd s a a = 0) ∧
    (∀ a b, yOf .pmulm s a b = yOf .pmulm s b a) ∧
    (∀ a b c, a.toNat < 2 ^ 16 → b.toNat < 2 ^ 16 → c.toNat < 2 ^ 16 →
      yOf .pmulm s (yOf .pmulm s a b) c = yOf .pmulm s a (yOf .pmulm s b c)) ∧
    (∀ a b, yOf .pmulm s a b = yOf .pmulm s (yOf .prem s a 0) (yOf .prem s b 0)) ∧
    (∀ a b c, yOf .pmulm s a (b ^^^ c) = yOf .pmulm s a b ^^^ yOf .pmulm s a c) ∧
    (∀ a b, yOf .prem s (a ^^^ b) 0 = yOf .prem s a 0 ^^^ yOf .prem s b 0) ∧
    (∀ a m n, m.toNat + n.toNat < 2 ^ 32 →
      yOf .ppowm s a (m + n) = yOf .pmulm s (yOf .ppowm s a m) (yOf .ppowm s a n))

/-! ### Residue -/

/-- R80: the residue is the reduced sum of the powers of x at the set positions, equally the sum of the reduced powers; it
is 0 for an empty and for an all-zero buffer. -/
def Obligations.ResidueSumsPowersOfX : Prop :=
  ∀ gen : BitVec 17, gen.getLsbD 16 = true →
    (∀ buf : List Byte,
      (residue gen.toNat buf).toNat = red gen.toNat (xorAll ((setPositions buf).map fun p => 1 <<< p)) ∧
      (residue gen.toNat buf).toNat = xorAll ((setPositions buf).map fun p => powMod gen.toNat 2 p)) ∧
    ∀ n, residue gen.toNat (List.replicate n 0) = 0

/-- R81: the integer form, the Horner form and the bit-serial form of the residue. -/
def Obligations.ResidueEquivalentForms : Prop :=
  ∀ gen : BitVec 17, gen.getLsbD 16 = true → ∀ buf : List Byte,
    (residue gen.toNat buf).toNat = red gen.toNat (buf.foldl (fun N c => N * 256 + c.toNat) 0) ∧
    (residue gen.toNat buf).toNat = buf.foldl (fun r c => red gen.toNat ((r <<< 8) ^^^ c.toNat)) 0 ∧
    (residue gen.toNat buf).toNat = buf.foldl (fun r c => shiftInByte gen.toNat r c) 0

/-- R82: the residue is linear. -/
def Obligations.ResidueIsLinear : Prop :=
  ∀ gen : BitVec 17, gen.getLsbD 16 = true → ∀ u v : List Byte, u.length = v.length →
    residue gen.toNat (List.zipWith (· ^^^ ·) u v) = residue gen.toNat u ^^^ residue gen.toNat v

/-- R83, R84: a frame is valid exactly when its last two bytes are the complemented residue of the payload, high byte
first; the residue of a valid frame as received is `0xFFFF`. -/
def Obligations.WireConvention : Prop :=
  ∀ gen : BitVec 17, gen.getLsbD 16 = true → ∀ (P : List Byte) (c d : Byte),
    uninvert (P ++ [c, d]) = P ++ [c ^^^ 0xFF, d ^^^ 0xFF] ∧
    (frameValid gen.toNat (P ++ [c, d]) = true ↔ residue gen.toNat (P ++ [c ^^^ 0xFF, d ^^^ 0xFF]) = 0) ∧
    (frameValid gen.toNat (P ++ [c, d]) = true ↔
      c = ~~~((residue gen.toNat (P ++ [0, 0])).extractLsb' 8 8) ∧
      d = ~~~((residue gen.toNat (P ++ [0, 0])).extractLsb' 0 8)) ∧
    (frameValid gen.toNat (P ++ [c, d]) = true → residue gen.toNat (P ++ [c, d]) = 0xFFFF)

/-- R92: `SYND` leaves in `SYN` the residue of the prefix, its last two bytes inverted where `INV = 1`, and changes nothing
else (but for the model's draw counter, log 4); outside its length range it records `BAD_LEN`, with a field set
`BAD_FIELD`. -/
def Obligations.SyndGivesTheResidue : Prop :=
  (∀ (len : BitVec 8) (inv : Bool),
    encode (.synd len inv) = 0x10000000 ||| (len.setWidth 32 <<< 16) ||| (if inv then 1 else 0)) ∧
  (∀ (s : State) (len : BitVec 8) (inv : Bool), len.toNat ≤ 21 → (inv = true → 2 ≤ len.toNat) →
    ∃ F n, SliceOf s len.toNat F ∧
      exec (.synd len inv) s = .next { s with
        syn := residue s.gen.toNat (if inv then invertLastTwo F else F), drawCount := n }) ∧
  (∀ s : State, ∃ n, exec (.synd 0 false) s = .next { s with syn := 0, drawCount := n }) ∧
  (∀ (s : State) (len : BitVec 8) (inv : Bool), (21 < len.toNat ∨ (inv = true ∧ len.toNat < 2)) →
    ∃ t, exec (.synd len inv) s = .next t ∧ Recorded 0x03 (encode (.synd len inv)) s t) ∧
  (∀ (s : State) (w : Word), w.extractLsb' 24 8 = 0x10 → w.extractLsb' 1 15 ≠ 0 → Raises 0x02 w s)

/-! ### Tables -/

/-- R86 to R89: where construction meets no collision, a lookup answers exactly the pattern that the union of the three
tiers has for the syndrome; with correction disabled every lookup misses. -/
def Obligations.LookupIsTheUnionOfTheTiers : Prop :=
  ∀ gen : BitVec 17, gen.getLsbD 16 = true → ∀ (L : Nat) (syn : BitVec 16),
    (lengthCollision gen.toNat L = none →
      ∀ E, tableLookup gen.toNat true L syn = some E ↔ InTable gen.toNat L syn.toNat E) ∧
    tableLookup gen.toNat false L syn = none

/-- R85: the byte form of a pattern has its syndrome as residue, and as many set bits as it has positions. -/
def Obligations.PatternBytesHaveThePatternSyndrome : Prop :=
  ∀ gen : BitVec 17, gen.getLsbD 16 = true → ∀ (L : Nat) (E : ErrPattern), PatternOf L E →
    (patBytes L E).length = L ∧
    (∀ b j, b < L → j < 8 → ((patBytes L E).getD b 0).getLsbD j = decide (8 * (L - 1 - b) + j ∈ E.positions)) ∧
    (residue gen.toNat (patBytes L E)).toNat = patSyn gen.toNat E ∧
    ((patBytes L E).map popcount).sum = E.size

/-- R93 with R26: `TLOOKUP` leaves in `LKR` the fields of the pattern, `0xFF` for an absent position, or the miss value,
and changes nothing else; with correction disabled, and for syndrome 0 under the default generator, it misses; outside its
length range it records `BAD_LEN`. -/
def Obligations.TlookupReportsTheEntry : Prop :=
  (∀ (len : BitVec 8) (x : BitVec 16),
    encode (.tlookup len x) = 0x11000000 ||| (len.setWidth 32 <<< 16) ||| x.setWidth 32) ∧
  (∀ (s : State) (len : BitVec 8) (x : BitVec 16), 5 ≤ len.toNat → len.toNat ≤ 21 →
    ∃ v : Word, exec (.tlookup len x) s = .next { s with lkr := v } ∧
      (s.ecen = false → v = 0x00FFFFFF) ∧ (s.gen = 0x16F63 → x = 0 → v = 0x00FFFFFF) ∧
      (tableLookup s.gen.toNat s.ecen len.toNat x = none → v = 0x00FFFFFF) ∧
      (∀ i, tableLookup s.gen.toNat s.ecen len.toNat x = some (.one i) →
        i < 168 ∧ v.toNat = 2 ^ 31 + 1 * 2 ^ 24 + 0xFF * 2 ^ 16 + 0xFF * 2 ^ 8 + i) ∧
      (∀ i j, tableLookup s.gen.toNat s.ecen len.toNat x = some (.two i j) →
        i < j ∧ j < 168 ∧ v.toNat = 2 ^ 31 + 2 * 2 ^ 24 + 0xFF * 2 ^ 16 + j * 2 ^ 8 + i) ∧
      (∀ i j k, tableLookup s.gen.toNat s.ecen len.toNat x = some (.three i j k) →
        i < j ∧ j < k ∧ k < 168 ∧ v.toNat = 2 ^ 31 + 3 * 2 ^ 24 + k * 2 ^ 16 + j * 2 ^ 8 + i)) ∧
  (∀ (s : State) (len : BitVec 8) (x : BitVec 16), (len.toNat < 5 ∨ 21 < len.toNat) →
    ∃ t, exec (.tlookup len x) s = .next t ∧ Recorded 0x03 (encode (.tlookup len x)) s t)

/-! ### Demodulation and frame search -/

/-- R94 to R96: `DEMOD` writes one byte per complete group, the group's first entry the least significant bit and an entry
read as zero or non-zero; it sets `BYTELEN` and `STATUS.SHORT` and changes nothing else (but for the model's draw counter,
log 4). -/
def Obligations.DemodPacksGroups : Prop :=
  encode .demod = 0x20000000 ∧
  ∀ s : State, ∃ m c,
    let n := min 21 (s.inlen.toNat / 9)
    exec .demod s = .next { s with
      mem := m, bytelen := BitVec.ofNat 5 n, short := decide (n < 5), drawCount := c } ∧
    (∀ k, k < n → ∃ v, m.read (0x200 + k) = some v ∧
      ∀ t e, t < 8 → s.mem.read (0x100 + (9 * k + t)) = some e → v.getLsbD t = (e != 0)) ∧
    (∀ a, (∀ k, k < n → a ≠ 0x200 + k) → m.read a = s.mem.read a)

/-- R98 to R100: `FSEARCH` tries exactly the lengths 5 to `BYTELEN − 1`, each on a slice of the byte buffer, and leaves for
every length the result of R98; the untried lengths are cleared; `CMASK` and `CCOUNT` summarise; no fatal error occurs;
nothing else changes (but for the model's draw counter, log 4). -/
def Obligations.FsearchTriesEveryLength : Prop :=
  encode .fsearch = 0x21000000 ∧
  ∀ s : State, s.genOk = true → s.bytelen.toNat ≤ 21 →
    ∃ t : State, exec .fsearch s = .next t ∧
      (∀ L, 5 ≤ L → L + 1 ≤ s.bytelen.toNat → ∃ F, SliceOf s L F ∧ TriedOutcome s t L F) ∧
      (∀ L, 5 ≤ L → L ≤ 21 → s.bytelen.toNat < L + 1 → t.cinfoAt L = {} ∧ PayloadIs t L (List.replicate L 0)) ∧
      (∀ L, L < 22 → t.cmask.getLsbD L = (decide (5 ≤ L) && (t.cinfoAt L).valid)) ∧
      t.ccount.toNat = popcount t.cmask ∧
      (∀ a, a < 0x400 → t.mem.read a = s.mem.read a) ∧
      t = { s with
        cinfo := t.cinfo, cmask := t.cmask, ccount := t.ccount, mem := t.mem, drawCount := t.drawCount }

/-- R101: `PROCESS` is `DEMOD` and then `FSEARCH` in one command step. -/
def Obligations.ProcessDemodulatesThenSearches : Prop :=
  encode .process = 0x22000000 ∧
  ∀ s : State, ∃ t u, exec .demod s = .next t ∧ exec .fsearch t = .next u ∧ exec .process s = .next u

/-- R97: an input of fewer than 54 entries, so of at most 5 bytes, gives no candidate and no error; `STATUS.SHORT` says
whether fewer than 5 bytes resulted; `DEMOD` writes its bytes and `BYTELEN` all the same, and so does `PROCESS`. -/
def Obligations.ShortInputGivesNoCandidate : Prop :=
  ∀ s : State, s.inlen.toNat < 54 →
    ∃ t u : State, exec .demod s = .next u ∧ exec .process s = .next t ∧
      t.short = decide (s.inlen.toNat < 45) ∧ u.short = t.short ∧
      t.bytelen.toNat = s.inlen.toNat / 9 ∧ u.bytelen = t.bytelen ∧
      (∀ k, k < s.inlen.toNat / 9 → ∃ v, u.mem.read (0x200 + k) = some v ∧ t.mem.read (0x200 + k) = some v) ∧
      t.cmask = 0 ∧ t.ccount = 0 ∧ (∀ L, 5 ≤ L → L ≤ 21 → t.cinfoAt L = {}) ∧
      t.err = s.err ∧ t.errCode = s.errCode ∧ t.errInfo = s.errInfo ∧ t.phase = s.phase

/-- R98: a repair is always verified, so no step records `INCONSISTENCY`. -/
def Obligations.NoStepRecordsInconsistency : Prop :=
  ∀ s t : State, s.errCode ≠ 0x80 → step s = .next t → t.errCode ≠ 0x80

/-- R104, items 1 and 2: a valid frame of length 5 to 20 received with no error yields its payload with `NFIX = 0`,
correction enabled or not; received with one or two bit errors and correction enabled it yields its payload with that
number of repaired bits. -/
def Obligations.FramesWithFewErrorsAreRecovered : Prop :=
  ∀ (s : State) (L : Nat) (F : List Byte), s.genOk = true → 5 ≤ L → L ≤ 20 → F.length = L →
    frameValid s.gen.toNat F = true → L + 1 ≤ s.bytelen.toNat → s.bytelen.toNat ≤ 21 →
    ((∀ k, k < L → s.mem.read (0x200 + k) = F[k]?) →
      ∃ t, exec .fsearch s = .next t ∧ t.cinfoAt L = { valid := true, tried := true, nfix := 0, synd := 0 } ∧
        PayloadIs t L F) ∧
    (∀ E : ErrPattern, PatternOf L E → E.size ≤ 2 → s.ecen = true → lengthCollision s.gen.toNat L = none →
      (∀ k, k < L → s.mem.read (0x200 + k) = (List.zipWith (· ^^^ ·) F (patBytes L E))[k]?) →
      ∃ t, exec .fsearch s = .next t ∧
        t.cinfoAt L = ⟨true, true, BitVec.ofNat 2 E.size, BitVec.ofNat 16 (patSyn s.gen.toNat E)⟩ ∧
        PayloadIs t L F)

/-- R104, item 3: a valid frame of length below 14 received with three bit errors, correction enabled, yields its payload
with `NFIX = 3` where the table has the triple for its syndrome, nothing where the table has no entry (the syndrome is
blacklisted), and a payload that is not the frame's where the table has a pattern of one or two bits. That the length has
no collision also makes the syndrome non-zero. -/
def Obligations.ThreeErrorsAreRecoveredMissedOrMiscorrected : Prop :=
  ∀ (s : State) (L : Nat) (F : List Byte) (i j k : Nat) (syn : BitVec 16), s.genOk = true → 5 ≤ L → L < 14 →
    F.length = L → frameValid s.gen.toNat F = true → L + 1 ≤ s.bytelen.toNat → s.bytelen.toNat ≤ 21 →
    i < j → j < k → k < 8 * L → s.ecen = true → lengthCollision s.gen.toNat L = none →
    syn.toNat = syn3 s.gen.toNat i j k →
    (∀ n, n < L → s.mem.read (0x200 + n) = (List.zipWith (· ^^^ ·) F (patBytes L (.three i j k)))[n]?) →
    ∃ t, exec .fsearch s = .next t ∧
      (tableLookup s.gen.toNat true L syn = some (.three i j k) →
        (t.cinfoAt L).valid = true ∧ (t.cinfoAt L).nfix = 3 ∧ PayloadIs t L F) ∧
      (tableLookup s.gen.toNat true L syn = none → (t.cinfoAt L).valid = false) ∧
      (∀ E, E.size ≤ 2 → tableLookup s.gen.toNat true L syn = some E →
        (t.cinfoAt L).valid = true ∧ (t.cinfoAt L).nfix = BitVec.ofNat 2 E.size ∧ ¬ PayloadIs t L F) ∧
      (∀ a b c, tableLookup s.gen.toNat true L syn = some (.three a b c) → (a, b, c) = (i, j, k))

/-! ### Control, errors, phases -/

/-- R105, R106: `NOP` changes nothing; `CLRERR` clears `STATUS.ERR`, `ERRCODE` and `ERRINFO` and nothing else; either with a
field set raises `BAD_FIELD`; while the engine is halted a `CMD` write is dropped, so `CLRERR` cannot clear a fatal error. -/
def Obligations.ControlCommands : Prop :=
  encode .nop = 0x00000000 ∧ encode .clrerr = 0x30000000 ∧
  (∀ s : State, exec .nop s = .next s) ∧
  (∀ s : State, exec .clrerr s = .next { s with err := false, errCode := 0, errInfo := 0 }) ∧
  (∀ (s : State) (w : Word), (w.extractLsb' 24 8 = 0x00 ∨ w.extractLsb' 24 8 = 0x30) → w.extractLsb' 0 24 ≠ 0 →
    Raises 0x02 w s) ∧
  (∀ (s : State) (v : Word), s.phase = .halted → hostWrite 0x002 v s = s)

/-- R109, R110, R115: while an error is recorded, a step leaves it as it is, unless the engine records a fatal error,
performs `CLRERR`, or is reset. -/
def Obligations.FirstErrorIsKept : Prop :=
  ∀ s t : State, s.err = true → step s = .next t →
    (t.err = true ∧ t.errCode = s.errCode ∧ t.errInfo = s.errInfo) ∨
    (s.phase ≠ .halted ∧ t.phase = .halted ∧ s.nextAgent = .engine) ∨
    (s.phase = .run ∧ s.pending = some 0x30000000 ∧ s.nextAgent = .engine ∧
      t.err = false ∧ t.errCode = 0 ∧ t.errInfo = 0) ∨
    (∃ ec rest, HostDoes s (.reset ec) rest ∧ t.err = false)

/-- R35: the reset value of `PHASE` and all its transitions. -/
def Obligations.PhaseTransitions : Prop :=
  (∀ gen ec, (State.resetWith gen ec).phase = .building) ∧
  ∀ s t : State, step s = .next t → t.phase ≠ s.phase →
    (s.phase = .building ∧ (t.phase = .run ∨ (t.phase = .halted ∧ t.errCode = 0x81)) ∧ s.nextAgent = .engine) ∨
    (s.phase = .run ∧ t.phase = .halted ∧ t.err = true ∧ (t.errCode = 0x80 ∨ t.errCode = 0x81) ∧
      s.nextAgent = .engine) ∨
    (t.phase = .building ∧ ∃ ec rest, HostDoes s (.reset ec) rest)

/-- R110: a halted engine is stuck: until reset, a step changes nothing of the engine, whatever the host does. That a halted
engine's turn is a step at all, to the same state with the turn taken, is the model's choice (log 7). -/
def Obligations.HaltedUntilReset : Prop :=
  (∀ s : State, s.genOk = true → s.phase = .halted → s.nextAgent = .engine →
    step s = .next { s with turns := s.turns.tail }) ∧
  ∀ s t : State, s.phase = .halted → step s = .next t →
    (∃ ec rest, HostDoes s (.reset ec) rest ∧ t.phase = .building) ∨
    t = { s with hostProgram := t.hostProgram, turns := t.turns, readData := t.readData, drawCount := t.drawCount }

/-- R17: every bit of `STATUS` in every state of the invariant. -/
def Obligations.StatusFields : Prop :=
  ∀ s : State, s.Inv →
    s.status.getLsbD 0 = decide (s.phase = .run) ∧
    s.status.getLsbD 1 = decide (s.phase = .building ∨ s.pending ≠ none) ∧
    s.status.getLsbD 2 = s.ecen ∧ s.status.getLsbD 3 = s.short ∧ s.status.getLsbD 4 = s.err ∧
    s.status.getLsbD 5 = decide (s.phase = .halted) ∧ (∀ i, 6 ≤ i → s.status.getLsbD i = false) ∧
    ¬ (s.status.getLsbD 0 = true ∧ s.status.getLsbD 5 = true) ∧
    (s.phase = .halted → s.status.getLsbD 1 = false)

/-- R33: the layout of `CINFO[L]`. -/
def Obligations.CinfoLayout : Prop :=
  ∀ c : CInfo, c.word.getLsbD 31 = c.valid ∧ c.word.getLsbD 30 = c.tried ∧ c.word.extractLsb' 26 4 = 0 ∧
    c.word.extractLsb' 24 2 = c.nfix ∧ c.word.extractLsb' 16 8 = 0 ∧ c.word.extractLsb' 0 16 = c.synd

/-! ### The host's accesses -/

/-- R44, R45: each register has the address and the access that the map lists; the map is a bijection between the registers and the mapped addresses; the unmapped addresses are
those listed; a read of one returns 0 and a write has no effect and records no error. -/
def Obligations.AddressMap : Prop :=
  regAt 0x000 = some .id ∧ regAt 0x001 = some .status ∧ regAt 0x002 = some .cmd ∧ regAt 0x003 = some .errcode ∧
  regAt 0x004 = some .errinfo ∧ regAt 0x005 = some .genr ∧ regAt 0x008 = some .a ∧ regAt 0x009 = some .b ∧
  regAt 0x00A = some .y ∧ regAt 0x00B = some .syn ∧ regAt 0x00C = some .lkr ∧ regAt 0x010 = some .inlen ∧
  regAt 0x011 = some .bytelen ∧ regAt 0x012 = some .cmask ∧ regAt 0x013 = some .ccount ∧
  (∀ k, k < 189 → regAt (BitVec.ofNat 12 (0x100 + k)) = some (.inbuf k)) ∧
  (∀ k, k < 21 → regAt (BitVec.ofNat 12 (0x200 + k)) = some (.bytebuf k)) ∧
  (∀ L, 5 ≤ L → L ≤ 21 → regAt (BitVec.ofNat 12 (0x300 + L)) = some (.cinfo L)) ∧
  (∀ L k, 5 ≤ L → L ≤ 21 → k < 32 → regAt (BitVec.ofNat 12 (0x400 + 32 * L + k)) = some (.cpay L k)) ∧
  (∀ r : Reg, r.writable = true ↔ (r = .cmd ∨ r = .a ∨ r = .b ∨ r = .inlen ∨ r = .bytelen ∨
    (∃ k, r = .inbuf k) ∨ ∃ k, r = .bytebuf k)) ∧
  (∀ r : Reg, r.inRange = true → r.addr < 4096 ∧ regAt (BitVec.ofNat 12 r.addr) = some r) ∧
  (∀ (a : Addr) (r : Reg), regAt a = some r → r.inRange = true ∧ r.addr = a.toNat) ∧
  (∀ a : Addr, regAt a = none ↔
    (0x006 ≤ a.toNat ∧ a.toNat ≤ 0x007) ∨ (0x00D ≤ a.toNat ∧ a.toNat ≤ 0x00F) ∨
    (0x014 ≤ a.toNat ∧ a.toNat ≤ 0x0FF) ∨ (0x1BD ≤ a.toNat ∧ a.toNat ≤ 0x1FF) ∨
    (0x215 ≤ a.toNat ∧ a.toNat ≤ 0x2FF) ∨ (0x300 ≤ a.toNat ∧ a.toNat ≤ 0x304) ∨
    (0x316 ≤ a.toNat ∧ a.toNat ≤ 0x3FF) ∨ (0x400 ≤ a.toNat ∧ a.toNat ≤ 0x49F) ∨
    (0x6C0 ≤ a.toNat ∧ a.toNat ≤ 0xFFF)) ∧
  (∀ (a : Addr) (v : Word) (s : State), regAt a = none → s.hostReadValue a = 0 ∧ hostWrite a v s = s)

/-- R49, R50: a write to an unmapped address does nothing; one to a mapped address is dropped while the engine is halted,
dropped with `BUSY_WRITE` while it builds or a command is pending, and else performed: the register is written as its rule
says, and a read-only one is not. -/
def Obligations.HostWriteAcceptance : Prop :=
  ∀ (s : State) (a : Addr) (v : Word) (rest : List HostOp), HostDoes s (.write a v) rest →
    (regAt a = none → step s = .next (afterAction s rest)) ∧
    ∀ r, regAt a = some r →
      (s.phase = .halted → step s = .next (afterAction s rest)) ∧
      (s.phase = .building ∨ (s.phase = .run ∧ s.pending ≠ none) →
        ∃ t, step s = .next t ∧ Recorded 0x04 (a.setWidth 32) (afterAction s rest) t) ∧
      (s.phase = .run → s.pending = none →
        (r = .cmd → step s = .next { afterAction s rest with pending := some v, lastCmd := v }) ∧
        (r = .a → step s = .next { afterAction s rest with a := v }) ∧
        (r = .b → step s = .next { afterAction s rest with b := v }) ∧
        (r = .inlen →
          ∃ n : BitVec 8, n.toNat = min v.toNat 189 ∧ step s = .next { afterAction s rest with inlen := n }) ∧
        (r = .bytelen →
          ∃ n : BitVec 5, n.toNat = min v.toNat 21 ∧ step s = .next { afterAction s rest with bytelen := n }) ∧
        (∀ k, r = .inbuf k ∨ r = .bytebuf k →
          ∃ m, step s = .next { afterAction s rest with mem := m } ∧ m.read a.toNat = some (v.setWidth 8) ∧
            ∀ b, b ≠ a.toNat → m.read b = s.mem.read b) ∧
        (r.writable = false → step s = .next (afterAction s rest)))

/-- R51, R52: a host read changes nothing of the engine; `ID`, `STATUS`, `CMD`, `ERRCODE`, `ERRINFO` and `GENR` are read
exactly in every state; every register is, but for unwritten entries, where neither exception of R51 applies to it, that is
unless a pending command may write it or a failed search has left it open; the part of `CPAY[L]` from `L − 2` up then
reads 0. -/
def Obligations.HostReads : Prop :=
  ∀ (s : State) (a : Addr) (rest : List HostOp), HostDoes s (.read a) rest →
    ∃ (v : Word) (n : Nat), step s = .next { afterAction s rest with readData := v, drawCount := n } ∧
      (regAt a = some .id → v = 0x43524531) ∧
      (regAt a = some .status → v = s.status) ∧
      (regAt a = some .cmd → v = s.lastCmd) ∧
      (regAt a = some .errcode → v = s.errCode.setWidth 32) ∧
      (regAt a = some .errinfo → v = s.errInfo) ∧
      (regAt a = some .genr → v = s.gen.setWidth 32) ∧
      (∀ r, regAt a = some r → ReadIsFixed s r →
        (∀ L k, r = .cpay L k → L - 2 ≤ k → v = 0) ∧
        ((∀ L k, r = .cpay L k → k < L - 2) → ∀ x, held s r = some x → v = x))

/-- R55: a read returns the value of the latest write: after an accepted write, the next read of the register returns what
its rule stores, and every other register holds what it held, but for `STATUS` after a `CMD` write. That the read is the
very next step rests on the model's default turns (`Idle`, log 6). -/
def Obligations.ReadAfterWrite : Prop :=
  ∀ (s : State) (a : Addr) (v : Word) (r : Reg) (rest : List HostOp), Idle s →
    s.hostProgram = .write a v :: .read a :: rest → regAt a = some r →
    ∃ t u, step s = .next t ∧ step t = .next u ∧ u.hostProgram = rest ∧
      (r = .cmd ∨ r = .a ∨ r = .b → u.readData = v) ∧
      (r = .inlen → u.readData.toNat = min v.toNat 189) ∧
      (r = .bytelen → u.readData.toNat = min v.toNat 21) ∧
      (∀ k, r = .inbuf k ∨ r = .bytebuf k → u.readData.toNat = v.toNat % 256) ∧
      (∀ r', r'.inRange = true → r' ≠ r → held t r' = held s r' ∨ (r = .cmd ∧ r' = .status))

/-- R122, R123: whatever the engine was doing, reset leaves every register at its reset value and every buffer entry
unwritten. Only reset leaves `PHASE = HALTED`. The clauses that reset keeps `gen` (log 1), `hostProgram`, `turns`,
`readData` and `drawCount` (logs 4, 15) are no part of those rules: they are the model's choice. -/
def Obligations.ResetFromAnyState : Prop :=
  (∀ (s : State) (ec : Bool) (rest : List HostOp), HostDoes s (.reset ec) rest →
    ∃ t : State, step s = .next t ∧
      t.phase = .building ∧ t.pending = none ∧ t.ecen = ec ∧ t.gen = s.gen ∧
      t.status = (if ec then 0x00000006 else 0x00000002) ∧ t.lastCmd = 0 ∧ t.errCode = 0 ∧ t.errInfo = 0 ∧
      t.a = 0 ∧ t.b = 0 ∧ t.y = 0 ∧ t.syn = 0 ∧ t.lkr = 0x00FFFFFF ∧ t.inlen = 0 ∧ t.bytelen = 0 ∧
      t.cmask = 0 ∧ t.ccount = 0 ∧ (∀ L, 5 ≤ L → L ≤ 21 → (t.cinfoAt L).word = 0) ∧ (∀ a, t.mem.read a = none) ∧
      t.regValue .id = 0x43524531 ∧ t.regValue .genr = s.gen.setWidth 32 ∧
      t.hostProgram = rest ∧ t.turns = s.turns.tail ∧ t.readData = s.readData ∧ t.drawCount = s.drawCount) ∧
  ∀ s t : State, s.phase = .halted → step s = .next t → t.phase ≠ .halted → ∃ ec rest, HostDoes s (.reset ec) rest

/-! ### Rules about all commands -/

/-- R68: a command changes no register outside its "Writes" line; a word that fails decoding changes none but `STATUS`,
`ERRCODE` and `ERRINFO`. -/
def Obligations.WritesLinesAreComplete : Prop :=
  ∀ (s : State) (w : Word) (t : State), s.genOk = true → s.bytelen.toNat ≤ 21 → execute w s = .next t →
    ∀ r : Reg, r.inRange = true → s.wordWrites w r = false → held t r = held s r

/-- R9, R15, R22, R23, R31, R37: no command changes `GEN`, `ECEN_LATCH`, `LASTCMD`, `A`, `B`, `INLEN` or any entry of
`INBUF`; none but `DEMOD` and `PROCESS` changes `BYTELEN`, `STATUS.SHORT` or `BYTEBUF` (R17, R28, R32); none touches the host's
side. That `GEN` is a field that could change is the model's (R5, R21, log 1), and so are the host's fields (log 6, 8). -/
def Obligations.CommandsLeaveTheirInputs : Prop :=
  ∀ (i : Instr) (s t : State), exec i s = .next t →
    t.gen = s.gen ∧ t.ecen = s.ecen ∧ t.lastCmd = s.lastCmd ∧ t.a = s.a ∧ t.b = s.b ∧ t.inlen = s.inlen ∧
    (∀ k, k < 189 → t.mem.read (0x100 + k) = s.mem.read (0x100 + k)) ∧
    (i ≠ .demod → i ≠ .process → t.bytelen = s.bytelen ∧ t.short = s.short ∧
      ∀ k, k < 21 → t.mem.read (0x200 + k) = s.mem.read (0x200 + k)) ∧
    t.hostProgram = s.hostProgram ∧ t.turns = s.turns ∧ t.readData = s.readData

/-- The frame of the commands that store nothing: every entry of every buffer reads as before. -/
def Obligations.RegisterCommandsLeaveTheBuffers : Prop :=
  ∀ (i : Instr) (s t : State), exec i s = .next t → i ≠ .demod → i ≠ .fsearch → i ≠ .process →
    (∀ a, t.mem.read a = s.mem.read a) ∧ t.cinfo = s.cinfo ∧ t.cmask = s.cmask ∧ t.ccount = s.ccount ∧
    t.phase = s.phase ∧ t.pending = s.pending

/-! ### The invariant -/

/-- The state after reset meets the invariant, for every generator and strap. -/
def Obligations.ResetMeetsTheInvariant : Prop :=
  ∀ (gen : BitVec 17) (ec : Bool), (State.resetWith gen ec).Inv

/-- Every step keeps the invariant: the buffer memory's canonical form, the legal lengths, the agreement of `CMASK`,
`CCOUNT` and `CINFO`, the error codes and the phase. -/
def Obligations.StepKeepsTheInvariant : Prop :=
  ∀ s t : State, s.Inv → step s = .next t → t.Inv

/-! ### The pseudo-instructions -/

/-- R70: `DO <cmd>` from an idle engine writes the word, lets the engine perform it as its next step, and ends with the poll
that reads `STATUS`. That these are three steps in a row rests on the model's default turns (`Idle`, log 6). -/
def Obligations.DoPerformsTheCommand : Prop :=
  ∀ (s : State) (i : Instr) (rest : List HostOp), Idle s → s.hostProgram = doCmd i ++ rest →
    ∃ s₁ s₂ s₃, step s = .next s₁ ∧
      s₁ = { s with hostProgram := .wait :: rest, pending := some (encode i), lastCmd := encode i } ∧
      step s₁ = exec i { s₁ with pending := none } ∧ step s₁ = .next s₂ ∧
      step s₂ = .next s₃ ∧ s₃.hostProgram = rest ∧ s₃.readData = s₂.status ∧ s₃.readData.getLsbD 1 = false

/-- R70, R130: with no interleaving prescribed, the poll of `WAIT` and that of `BOOT` end within two steps. The bound rests
on the model's default turns (log 6). -/
def Obligations.PollsTerminate : Prop :=
  ∀ (s : State) (op : HostOp) (rest : List HostOp), s.Inv → s.genOk = true → s.turns = [] →
    (op = .wait ∨ op = .boot) → s.hostProgram = op :: rest →
    ∃ k t, k ≤ 2 ∧ core.run k s = .next t ∧ t.hostProgram = rest

/-- R70: `LOADBYTES` from an idle engine stores the bytes in order and then their number, and nothing else; `LOADBITS` the
same for the input bits. That the writes are steps in a row rests on the model's default turns (`Idle`, log 6). -/
def Obligations.LoadsStoreTheirValues : Prop :=
  (∀ (s : State) (vs : List Word) (rest : List HostOp), Idle s → vs.length ≤ 21 → s.hostProgram = loadBytes vs ++ rest →
    ∃ m, core.run (vs.length + 1) s =
        .next { s with mem := m, bytelen := BitVec.ofNat 5 vs.length, hostProgram := rest } ∧
      (∀ k v, vs[k]? = some v → m.read (0x200 + k) = some (v.setWidth 8)) ∧
      (∀ a, (∀ k, k < vs.length → a ≠ 0x200 + k) → m.read a = s.mem.read a)) ∧
  (∀ (s : State) (vs : List Word) (rest : List HostOp), Idle s → vs.length ≤ 189 → s.hostProgram = loadBits vs ++ rest →
    ∃ m, core.run (vs.length + 1) s =
        .next { s with mem := m, inlen := BitVec.ofNat 8 vs.length, hostProgram := rest } ∧
      (∀ k v, vs[k]? = some v → m.read (0x100 + k) = some (v.setWidth 8)) ∧
      (∀ a, (∀ k, k < vs.length → a ≠ 0x100 + k) → m.read a = s.mem.read a))

/-! ### The platform -/

/-- R119: engines share no state: a step of one leaves every other engine as it was, and moves its own as it would alone.
That each engine has a host program, turns, a read value and a draw counter of its own, which whole states here compare too,
is the model's choice (log 19, with logs 4, 6, 8): R119 does not say whether one host drives all engines. -/
def Obligations.EnginesAreIndependent : Prop :=
  ∀ (engines after : List State) (k : Nat), platformStep k engines = .next after →
    (∀ j, j ≠ k → after[j]? = engines[j]?) ∧
    (∀ s, engines[k]? = some s → ∃ t, step s = .next t ∧ after[k]? = some t)
end

