-- ==== Sys2Proof/Laws/Decode.lean ====
section
/-! SUPPORT. The fields of a command word, taken apart and put together. -/

namespace Sys2Proof

theorem opcField_mkWord (opc len : BitVec 8) (imm : BitVec 16) : opcField (mkWord opc len imm) = opc := by
  refine BitVec.eq_of_getLsbD_eq fun i hi => ?_
  unfold opcField mkWord
  rw [BitVec.getLsbD_extractLsb', BitVec.getLsbD_append, BitVec.getLsbD_append]
  rw [if_neg (by omega), if_neg (by omega), show 24 + i - 16 - 8 = i by omega]
  simp [hi]

theorem lenField_mkWord (opc len : BitVec 8) (imm : BitVec 16) : lenField (mkWord opc len imm) = len := by
  refine BitVec.eq_of_getLsbD_eq fun i hi => ?_
  unfold lenField mkWord
  rw [BitVec.getLsbD_extractLsb', BitVec.getLsbD_append, BitVec.getLsbD_append]
  simp [hi]

theorem immField_mkWord (opc len : BitVec 8) (imm : BitVec 16) : immField (mkWord opc len imm) = imm := by
  refine BitVec.eq_of_getLsbD_eq fun i hi => ?_
  unfold immField mkWord
  rw [BitVec.getLsbD_extractLsb', BitVec.getLsbD_append]
  simp [hi]

/-- A word is its three fields (R61). -/
theorem mkWord_fields (w : Word) : mkWord (opcField w) (lenField w) (immField w) = w := by
  refine BitVec.eq_of_getLsbD_eq fun i hi => ?_
  unfold opcField lenField immField mkWord
  rw [BitVec.getLsbD_append, BitVec.getLsbD_append]
  simp only [BitVec.getLsbD_extractLsb']
  split
  · simp [*]
  · split
    · rename_i h1 h2; simp [h2]; congr 1; omega
    · rename_i h1 h2
      have h3 : i - 16 - 8 < 8 := by omega
      simp [h3]; congr 1; omega

end Sys2Proof
end

