-- ==== Sys2Proof/Laws/Memory.lean ====
section
/-! SUPPORT. The buffer memory: a read after a write, and that every memory operation keeps the canonical form. -/

namespace Sys2Proof.Machine

theorem Memory.read_write (m : Memory) (a b : Nat) (v : Byte) :
    (m.write a v).read b = if b = a then some v else m.read b := by
  induction m with
  | nil => simp [Memory.write, Memory.read, eq_comm]
  | cons c rest ih =>
    obtain ⟨k, w⟩ := c
    simp only [Memory.write]
    split
    · simp [Memory.read, eq_comm]
    · split
      · subst_vars; simp only [Memory.read, eq_comm]; split <;> rfl
      · simp only [Memory.read, ih]
        split <;> split <;> first | rfl | omega

/-- A read after a write to the same entry gives the value written. -/
theorem Memory.read_write_same (m : Memory) (a : Nat) (v : Byte) : (m.write a v).read a = some v := by
  simp [Memory.read_write]

/-- A write leaves every other entry alone. -/
theorem Memory.read_write_other (m : Memory) {a b : Nat} (v : Byte) (h : b ≠ a) : (m.write a v).read b = m.read b := by
  simp [Memory.read_write, h]

theorem Memory.read_writeList (m : Memory) (a b : Nat) (vs : List Byte) :
    (m.writeList a vs).read b = if a ≤ b ∧ b < a + vs.length then vs[b - a]? else m.read b := by
  induction vs generalizing m a with
  | nil => simp [Memory.writeList]
  | cons v rest ih =>
    simp only [Memory.writeList, ih, Memory.read_write, List.length_cons]
    by_cases hb : b = a
    · subst hb; simp
    · by_cases h : a ≤ b ∧ b < a + (rest.length + 1)
      · have h' : a + 1 ≤ b ∧ b < a + 1 + rest.length := by omega
        obtain ⟨n, rfl⟩ : ∃ n, b = a + 1 + n := ⟨b - (a + 1), by omega⟩
        rw [if_pos h', if_pos h, show a + 1 + n - (a + 1) = n by omega, show a + 1 + n - a = n + 1 by omega,
          List.getElem?_cons_succ]
      · rw [if_neg h, if_neg hb, if_neg (by omega)]

/-- Every address of the list lies above `lo`. -/
theorem Memory.sortedFrom_write (m : Memory) (a : Nat) (v : Byte) (lo : Option Nat) (hs : m.sortedFrom lo = true)
    (hlo : ∀ l, lo = some l → l < a) : (m.write a v).sortedFrom lo = true := by
  induction m generalizing lo with
  | nil =>
    cases lo with
    | none => rfl
    | some l => simpa [Memory.write, Memory.sortedFrom] using hlo l rfl
  | cons c rest ih =>
    obtain ⟨k, w⟩ := c
    have hrest : Memory.sortedFrom (some k) rest = true := by
      cases lo <;> simp_all [Memory.sortedFrom]
    have hk : ∀ l, lo = some l → l < k := by
      intro l hl; subst hl; simp_all [Memory.sortedFrom]
    simp only [Memory.write]
    split
    · cases lo <;> simp_all [Memory.sortedFrom]
    · split
      · subst_vars; cases lo <;> simp_all [Memory.sortedFrom]
      · have := ih (some k) hrest (by intro l hl; simp at hl; omega)
        cases lo <;> simp_all [Memory.sortedFrom]

theorem Memory.all_write (m : Memory) (a : Nat) (v : Byte) (p : Host.Cell → Bool) (hm : m.all p = true)
    (ha : p (a, v) = true) : (m.write a v).all p = true := by
  induction m with
  | nil => simp [Memory.write, ha]
  | cons c rest ih =>
    obtain ⟨k, w⟩ := c
    simp only [List.all_cons, Bool.and_eq_true] at hm
    simp only [Memory.write]
    split
    · simp [ha, hm]
    · split
      · simp [ha, hm]
      · simp [ih hm.2, hm]

/-- A write to a buffer entry keeps the canonical form. -/
theorem Memory.write_wf (m : Memory) (a : Nat) (v : Byte) (hm : m.wf = true) (ha : isBufferEntry a = true) :
    (m.write a v).wf = true := by
  simp only [Memory.wf, Bool.and_eq_true] at hm ⊢
  exact ⟨Memory.sortedFrom_write m a v none hm.1 (by simp), Memory.all_write m a v _ hm.2 ha⟩

/-- Writing consecutive buffer entries keeps the canonical form. -/
theorem Memory.writeList_wf (m : Memory) (a : Nat) (vs : List Byte) (hm : m.wf = true)
    (ha : ∀ k, k < vs.length → isBufferEntry (a + k) = true) : (m.writeList a vs).wf = true := by
  induction vs generalizing m a with
  | nil => simpa [Memory.writeList] using hm
  | cons v rest ih =>
    refine ih _ _ (Memory.write_wf m a v hm (by simpa using ha 0 (by simp))) fun k hk => ?_
    have := ha (k + 1) (by simpa using hk)
    rwa [show a + 1 + k = a + (k + 1) by omega]

/-- The three ranges of buffer entries, as propositions. -/
theorem isBufferEntry_iff (a : Nat) : isBufferEntry a = true ↔
    ((0x100 ≤ a ∧ a < 0x100 + 189) ∨ (0x200 ≤ a ∧ a < 0x200 + 21)) ∨
      ((5 ≤ (a - 0x400) / 32 ∧ (a - 0x400) / 32 ≤ 21) ∧ (a - 0x400) % 32 + 2 < (a - 0x400) / 32) := by
  unfold isBufferEntry Config.inCap Config.maxBytes Config.lmin Config.lmax Config.crcBytes
  rw [Bool.or_eq_true, Bool.or_eq_true, Bool.and_eq_true, Bool.and_eq_true, Bool.and_eq_true, Bool.and_eq_true]
  rw [decide_eq_true_eq, decide_eq_true_eq, decide_eq_true_eq, decide_eq_true_eq, decide_eq_true_eq,
    decide_eq_true_eq, decide_eq_true_eq]

theorem isBufferEntry_inbuf {k : Nat} (h : k < Config.inCap) : isBufferEntry (inbufAddr k) = true := by
  rw [isBufferEntry_iff]; unfold inbufAddr; unfold Config.inCap at h; omega

theorem isBufferEntry_bytebuf {k : Nat} (h : k < Config.maxBytes) : isBufferEntry (bytebufAddr k) = true := by
  rw [isBufferEntry_iff]; unfold bytebufAddr; unfold Config.maxBytes at h; omega

theorem isBufferEntry_cpay {L k : Nat} (h5 : Config.lmin ≤ L) (h21 : L ≤ Config.lmax) (hk : k + Config.crcBytes < L) :
    isBufferEntry (cpayAddr L k) = true := by
  rw [isBufferEntry_iff]; unfold cpayAddr; unfold Config.lmin at h5; unfold Config.lmax at h21
  unfold Config.crcBytes at hk; omega

end Sys2Proof.Machine
end

