-- ==== Sys2Proof/Laws/State.lean ====
section
/-! SUPPORT. The fields of the state after each update, one lemma a field, all by definition: later proofs rewrite with
them and do not unfold the updates. -/

namespace Sys2Proof.Machine

variable (s : State)

/-! ### `State.skipDraws` -/

@[simp] theorem State.skipDraws_gen (n : Nat) : (s.skipDraws n).gen = s.gen := rfl
@[simp] theorem State.skipDraws_phase (n : Nat) : (s.skipDraws n).phase = s.phase := rfl
@[simp] theorem State.skipDraws_pending (n : Nat) : (s.skipDraws n).pending = s.pending := rfl
@[simp] theorem State.skipDraws_ecen (n : Nat) : (s.skipDraws n).ecen = s.ecen := rfl
@[simp] theorem State.skipDraws_lastCmd (n : Nat) : (s.skipDraws n).lastCmd = s.lastCmd := rfl
@[simp] theorem State.skipDraws_short (n : Nat) : (s.skipDraws n).short = s.short := rfl
@[simp] theorem State.skipDraws_err (n : Nat) : (s.skipDraws n).err = s.err := rfl
@[simp] theorem State.skipDraws_errCode (n : Nat) : (s.skipDraws n).errCode = s.errCode := rfl
@[simp] theorem State.skipDraws_errInfo (n : Nat) : (s.skipDraws n).errInfo = s.errInfo := rfl
@[simp] theorem State.skipDraws_a (n : Nat) : (s.skipDraws n).a = s.a := rfl
@[simp] theorem State.skipDraws_b (n : Nat) : (s.skipDraws n).b = s.b := rfl
@[simp] theorem State.skipDraws_y (n : Nat) : (s.skipDraws n).y = s.y := rfl
@[simp] theorem State.skipDraws_syn (n : Nat) : (s.skipDraws n).syn = s.syn := rfl
@[simp] theorem State.skipDraws_lkr (n : Nat) : (s.skipDraws n).lkr = s.lkr := rfl
@[simp] theorem State.skipDraws_inlen (n : Nat) : (s.skipDraws n).inlen = s.inlen := rfl
@[simp] theorem State.skipDraws_bytelen (n : Nat) : (s.skipDraws n).bytelen = s.bytelen := rfl
@[simp] theorem State.skipDraws_cmask (n : Nat) : (s.skipDraws n).cmask = s.cmask := rfl
@[simp] theorem State.skipDraws_ccount (n : Nat) : (s.skipDraws n).ccount = s.ccount := rfl
@[simp] theorem State.skipDraws_cinfo (n : Nat) : (s.skipDraws n).cinfo = s.cinfo := rfl
@[simp] theorem State.skipDraws_mem (n : Nat) : (s.skipDraws n).mem = s.mem := rfl
@[simp] theorem State.skipDraws_hostProgram (n : Nat) : (s.skipDraws n).hostProgram = s.hostProgram := rfl
@[simp] theorem State.skipDraws_turns (n : Nat) : (s.skipDraws n).turns = s.turns := rfl
@[simp] theorem State.skipDraws_readData (n : Nat) : (s.skipDraws n).readData = s.readData := rfl
@[simp] theorem State.skipDraws_drawCount (n : Nat) : (s.skipDraws n).drawCount = s.drawCount + n := rfl

/-! ### `State.setCinfo` -/

@[simp] theorem State.setCinfo_gen (L : Nat) (c : CInfo) : (s.setCinfo L c).gen = s.gen := rfl
@[simp] theorem State.setCinfo_phase (L : Nat) (c : CInfo) : (s.setCinfo L c).phase = s.phase := rfl
@[simp] theorem State.setCinfo_pending (L : Nat) (c : CInfo) : (s.setCinfo L c).pending = s.pending := rfl
@[simp] theorem State.setCinfo_ecen (L : Nat) (c : CInfo) : (s.setCinfo L c).ecen = s.ecen := rfl
@[simp] theorem State.setCinfo_lastCmd (L : Nat) (c : CInfo) : (s.setCinfo L c).lastCmd = s.lastCmd := rfl
@[simp] theorem State.setCinfo_short (L : Nat) (c : CInfo) : (s.setCinfo L c).short = s.short := rfl
@[simp] theorem State.setCinfo_err (L : Nat) (c : CInfo) : (s.setCinfo L c).err = s.err := rfl
@[simp] theorem State.setCinfo_errCode (L : Nat) (c : CInfo) : (s.setCinfo L c).errCode = s.errCode := rfl
@[simp] theorem State.setCinfo_errInfo (L : Nat) (c : CInfo) : (s.setCinfo L c).errInfo = s.errInfo := rfl
@[simp] theorem State.setCinfo_a (L : Nat) (c : CInfo) : (s.setCinfo L c).a = s.a := rfl
@[simp] theorem State.setCinfo_b (L : Nat) (c : CInfo) : (s.setCinfo L c).b = s.b := rfl
@[simp] theorem State.setCinfo_y (L : Nat) (c : CInfo) : (s.setCinfo L c).y = s.y := rfl
@[simp] theorem State.setCinfo_syn (L : Nat) (c : CInfo) : (s.setCinfo L c).syn = s.syn := rfl
@[simp] theorem State.setCinfo_lkr (L : Nat) (c : CInfo) : (s.setCinfo L c).lkr = s.lkr := rfl
@[simp] theorem State.setCinfo_inlen (L : Nat) (c : CInfo) : (s.setCinfo L c).inlen = s.inlen := rfl
@[simp] theorem State.setCinfo_bytelen (L : Nat) (c : CInfo) : (s.setCinfo L c).bytelen = s.bytelen := rfl
@[simp] theorem State.setCinfo_cmask (L : Nat) (c : CInfo) : (s.setCinfo L c).cmask = s.cmask := rfl
@[simp] theorem State.setCinfo_ccount (L : Nat) (c : CInfo) : (s.setCinfo L c).ccount = s.ccount := rfl
@[simp] theorem State.setCinfo_cinfo (L : Nat) (c : CInfo) :
    (s.setCinfo L c).cinfo = if Config.lmin ≤ L then s.cinfo.setIfInBounds (L - Config.lmin) c else s.cinfo := rfl
@[simp] theorem State.setCinfo_mem (L : Nat) (c : CInfo) : (s.setCinfo L c).mem = s.mem := rfl
@[simp] theorem State.setCinfo_hostProgram (L : Nat) (c : CInfo) : (s.setCinfo L c).hostProgram = s.hostProgram := rfl
@[simp] theorem State.setCinfo_turns (L : Nat) (c : CInfo) : (s.setCinfo L c).turns = s.turns := rfl
@[simp] theorem State.setCinfo_readData (L : Nat) (c : CInfo) : (s.setCinfo L c).readData = s.readData := rfl
@[simp] theorem State.setCinfo_drawCount (L : Nat) (c : CInfo) : (s.setCinfo L c).drawCount = s.drawCount := rfl

/-! ### `State.takeTurn` -/

@[simp] theorem State.takeTurn_gen : (s.takeTurn).gen = s.gen := rfl
@[simp] theorem State.takeTurn_phase : (s.takeTurn).phase = s.phase := rfl
@[simp] theorem State.takeTurn_pending : (s.takeTurn).pending = s.pending := rfl
@[simp] theorem State.takeTurn_ecen : (s.takeTurn).ecen = s.ecen := rfl
@[simp] theorem State.takeTurn_lastCmd : (s.takeTurn).lastCmd = s.lastCmd := rfl
@[simp] theorem State.takeTurn_short : (s.takeTurn).short = s.short := rfl
@[simp] theorem State.takeTurn_err : (s.takeTurn).err = s.err := rfl
@[simp] theorem State.takeTurn_errCode : (s.takeTurn).errCode = s.errCode := rfl
@[simp] theorem State.takeTurn_errInfo : (s.takeTurn).errInfo = s.errInfo := rfl
@[simp] theorem State.takeTurn_a : (s.takeTurn).a = s.a := rfl
@[simp] theorem State.takeTurn_b : (s.takeTurn).b = s.b := rfl
@[simp] theorem State.takeTurn_y : (s.takeTurn).y = s.y := rfl
@[simp] theorem State.takeTurn_syn : (s.takeTurn).syn = s.syn := rfl
@[simp] theorem State.takeTurn_lkr : (s.takeTurn).lkr = s.lkr := rfl
@[simp] theorem State.takeTurn_inlen : (s.takeTurn).inlen = s.inlen := rfl
@[simp] theorem State.takeTurn_bytelen : (s.takeTurn).bytelen = s.bytelen := rfl
@[simp] theorem State.takeTurn_cmask : (s.takeTurn).cmask = s.cmask := rfl
@[simp] theorem State.takeTurn_ccount : (s.takeTurn).ccount = s.ccount := rfl
@[simp] theorem State.takeTurn_cinfo : (s.takeTurn).cinfo = s.cinfo := rfl
@[simp] theorem State.takeTurn_mem : (s.takeTurn).mem = s.mem := rfl
@[simp] theorem State.takeTurn_hostProgram : (s.takeTurn).hostProgram = s.hostProgram := rfl
@[simp] theorem State.takeTurn_turns : (s.takeTurn).turns = s.turns.tail := rfl
@[simp] theorem State.takeTurn_readData : (s.takeTurn).readData = s.readData := rfl
@[simp] theorem State.takeTurn_drawCount : (s.takeTurn).drawCount = s.drawCount := rfl

/-! ### `recordFatal` -/

@[simp] theorem recordFatal_gen (c : FatalCode) (info : Word) : (recordFatal c info s).gen = s.gen := rfl
@[simp] theorem recordFatal_phase (c : FatalCode) (info : Word) : (recordFatal c info s).phase = .halted := rfl
@[simp] theorem recordFatal_pending (c : FatalCode) (info : Word) : (recordFatal c info s).pending = none := rfl
@[simp] theorem recordFatal_ecen (c : FatalCode) (info : Word) : (recordFatal c info s).ecen = s.ecen := rfl
@[simp] theorem recordFatal_lastCmd (c : FatalCode) (info : Word) : (recordFatal c info s).lastCmd = s.lastCmd := rfl
@[simp] theorem recordFatal_short (c : FatalCode) (info : Word) : (recordFatal c info s).short = s.short := rfl
@[simp] theorem recordFatal_err (c : FatalCode) (info : Word) : (recordFatal c info s).err = true := rfl
@[simp] theorem recordFatal_errCode (c : FatalCode) (info : Word) : (recordFatal c info s).errCode = c.code := rfl
@[simp] theorem recordFatal_errInfo (c : FatalCode) (info : Word) : (recordFatal c info s).errInfo = info := rfl
@[simp] theorem recordFatal_a (c : FatalCode) (info : Word) : (recordFatal c info s).a = s.a := rfl
@[simp] theorem recordFatal_b (c : FatalCode) (info : Word) : (recordFatal c info s).b = s.b := rfl
@[simp] theorem recordFatal_y (c : FatalCode) (info : Word) : (recordFatal c info s).y = s.y := rfl
@[simp] theorem recordFatal_syn (c : FatalCode) (info : Word) : (recordFatal c info s).syn = s.syn := rfl
@[simp] theorem recordFatal_lkr (c : FatalCode) (info : Word) : (recordFatal c info s).lkr = s.lkr := rfl
@[simp] theorem recordFatal_inlen (c : FatalCode) (info : Word) : (recordFatal c info s).inlen = s.inlen := rfl
@[simp] theorem recordFatal_bytelen (c : FatalCode) (info : Word) : (recordFatal c info s).bytelen = s.bytelen := rfl
@[simp] theorem recordFatal_cmask (c : FatalCode) (info : Word) : (recordFatal c info s).cmask = s.cmask := rfl
@[simp] theorem recordFatal_ccount (c : FatalCode) (info : Word) : (recordFatal c info s).ccount = s.ccount := rfl
@[simp] theorem recordFatal_cinfo (c : FatalCode) (info : Word) : (recordFatal c info s).cinfo = s.cinfo := rfl
@[simp] theorem recordFatal_mem (c : FatalCode) (info : Word) : (recordFatal c info s).mem = s.mem := rfl
@[simp] theorem recordFatal_hostProgram (c : FatalCode) (info : Word) : (recordFatal c info s).hostProgram = s.hostProgram := rfl
@[simp] theorem recordFatal_turns (c : FatalCode) (info : Word) : (recordFatal c info s).turns = s.turns := rfl
@[simp] theorem recordFatal_readData (c : FatalCode) (info : Word) : (recordFatal c info s).readData = s.readData := rfl
@[simp] theorem recordFatal_drawCount (c : FatalCode) (info : Word) : (recordFatal c info s).drawCount = s.drawCount := rfl

/-! ### `clearError` -/

@[simp] theorem clearError_gen : (clearError s).gen = s.gen := rfl
@[simp] theorem clearError_phase : (clearError s).phase = s.phase := rfl
@[simp] theorem clearError_pending : (clearError s).pending = s.pending := rfl
@[simp] theorem clearError_ecen : (clearError s).ecen = s.ecen := rfl
@[simp] theorem clearError_lastCmd : (clearError s).lastCmd = s.lastCmd := rfl
@[simp] theorem clearError_short : (clearError s).short = s.short := rfl
@[simp] theorem clearError_err : (clearError s).err = false := rfl
@[simp] theorem clearError_errCode : (clearError s).errCode = 0 := rfl
@[simp] theorem clearError_errInfo : (clearError s).errInfo = 0 := rfl
@[simp] theorem clearError_a : (clearError s).a = s.a := rfl
@[simp] theorem clearError_b : (clearError s).b = s.b := rfl
@[simp] theorem clearError_y : (clearError s).y = s.y := rfl
@[simp] theorem clearError_syn : (clearError s).syn = s.syn := rfl
@[simp] theorem clearError_lkr : (clearError s).lkr = s.lkr := rfl
@[simp] theorem clearError_inlen : (clearError s).inlen = s.inlen := rfl
@[simp] theorem clearError_bytelen : (clearError s).bytelen = s.bytelen := rfl
@[simp] theorem clearError_cmask : (clearError s).cmask = s.cmask := rfl
@[simp] theorem clearError_ccount : (clearError s).ccount = s.ccount := rfl
@[simp] theorem clearError_cinfo : (clearError s).cinfo = s.cinfo := rfl
@[simp] theorem clearError_mem : (clearError s).mem = s.mem := rfl
@[simp] theorem clearError_hostProgram : (clearError s).hostProgram = s.hostProgram := rfl
@[simp] theorem clearError_turns : (clearError s).turns = s.turns := rfl
@[simp] theorem clearError_readData : (clearError s).readData = s.readData := rfl
@[simp] theorem clearError_drawCount : (clearError s).drawCount = s.drawCount := rfl

/-! ### `resetEngine` -/

@[simp] theorem resetEngine_gen (ec : Bool) : (resetEngine ec s).gen = s.gen := rfl
@[simp] theorem resetEngine_phase (ec : Bool) : (resetEngine ec s).phase = .building := rfl
@[simp] theorem resetEngine_pending (ec : Bool) : (resetEngine ec s).pending = none := rfl
@[simp] theorem resetEngine_ecen (ec : Bool) : (resetEngine ec s).ecen = ec := rfl
@[simp] theorem resetEngine_lastCmd (ec : Bool) : (resetEngine ec s).lastCmd = 0 := rfl
@[simp] theorem resetEngine_short (ec : Bool) : (resetEngine ec s).short = false := rfl
@[simp] theorem resetEngine_err (ec : Bool) : (resetEngine ec s).err = false := rfl
@[simp] theorem resetEngine_errCode (ec : Bool) : (resetEngine ec s).errCode = 0 := rfl
@[simp] theorem resetEngine_errInfo (ec : Bool) : (resetEngine ec s).errInfo = 0 := rfl
@[simp] theorem resetEngine_a (ec : Bool) : (resetEngine ec s).a = 0 := rfl
@[simp] theorem resetEngine_b (ec : Bool) : (resetEngine ec s).b = 0 := rfl
@[simp] theorem resetEngine_y (ec : Bool) : (resetEngine ec s).y = 0 := rfl
@[simp] theorem resetEngine_syn (ec : Bool) : (resetEngine ec s).syn = 0 := rfl
@[simp] theorem resetEngine_lkr (ec : Bool) : (resetEngine ec s).lkr = 0x00FFFFFF := rfl
@[simp] theorem resetEngine_inlen (ec : Bool) : (resetEngine ec s).inlen = 0 := rfl
@[simp] theorem resetEngine_bytelen (ec : Bool) : (resetEngine ec s).bytelen = 0 := rfl
@[simp] theorem resetEngine_cmask (ec : Bool) : (resetEngine ec s).cmask = 0 := rfl
@[simp] theorem resetEngine_ccount (ec : Bool) : (resetEngine ec s).ccount = 0 := rfl
@[simp] theorem resetEngine_cinfo (ec : Bool) : (resetEngine ec s).cinfo = Vector.replicate 17 {} := rfl
@[simp] theorem resetEngine_mem (ec : Bool) : (resetEngine ec s).mem = [] := rfl
@[simp] theorem resetEngine_hostProgram (ec : Bool) : (resetEngine ec s).hostProgram = s.hostProgram := rfl
@[simp] theorem resetEngine_turns (ec : Bool) : (resetEngine ec s).turns = s.turns := rfl
@[simp] theorem resetEngine_readData (ec : Bool) : (resetEngine ec s).readData = s.readData := rfl
@[simp] theorem resetEngine_drawCount (ec : Bool) : (resetEngine ec s).drawCount = s.drawCount := rfl

/-! ### `hostRead` -/

@[simp] theorem hostRead_gen (a : Addr) : (hostRead a s).gen = s.gen := rfl
@[simp] theorem hostRead_phase (a : Addr) : (hostRead a s).phase = s.phase := rfl
@[simp] theorem hostRead_pending (a : Addr) : (hostRead a s).pending = s.pending := rfl
@[simp] theorem hostRead_ecen (a : Addr) : (hostRead a s).ecen = s.ecen := rfl
@[simp] theorem hostRead_lastCmd (a : Addr) : (hostRead a s).lastCmd = s.lastCmd := rfl
@[simp] theorem hostRead_short (a : Addr) : (hostRead a s).short = s.short := rfl
@[simp] theorem hostRead_err (a : Addr) : (hostRead a s).err = s.err := rfl
@[simp] theorem hostRead_errCode (a : Addr) : (hostRead a s).errCode = s.errCode := rfl
@[simp] theorem hostRead_errInfo (a : Addr) : (hostRead a s).errInfo = s.errInfo := rfl
@[simp] theorem hostRead_a (a : Addr) : (hostRead a s).a = s.a := rfl
@[simp] theorem hostRead_b (a : Addr) : (hostRead a s).b = s.b := rfl
@[simp] theorem hostRead_y (a : Addr) : (hostRead a s).y = s.y := rfl
@[simp] theorem hostRead_syn (a : Addr) : (hostRead a s).syn = s.syn := rfl
@[simp] theorem hostRead_lkr (a : Addr) : (hostRead a s).lkr = s.lkr := rfl
@[simp] theorem hostRead_inlen (a : Addr) : (hostRead a s).inlen = s.inlen := rfl
@[simp] theorem hostRead_bytelen (a : Addr) : (hostRead a s).bytelen = s.bytelen := rfl
@[simp] theorem hostRead_cmask (a : Addr) : (hostRead a s).cmask = s.cmask := rfl
@[simp] theorem hostRead_ccount (a : Addr) : (hostRead a s).ccount = s.ccount := rfl
@[simp] theorem hostRead_cinfo (a : Addr) : (hostRead a s).cinfo = s.cinfo := rfl
@[simp] theorem hostRead_mem (a : Addr) : (hostRead a s).mem = s.mem := rfl
@[simp] theorem hostRead_hostProgram (a : Addr) : (hostRead a s).hostProgram = s.hostProgram := rfl
@[simp] theorem hostRead_turns (a : Addr) : (hostRead a s).turns = s.turns := rfl
@[simp] theorem hostRead_readData (a : Addr) : (hostRead a s).readData = s.hostReadValue a := rfl
@[simp] theorem hostRead_drawCount (a : Addr) : (hostRead a s).drawCount = s.drawCount + 1 := rfl

/-! ### `demodulate` -/

@[simp] theorem demodulate_gen : (demodulate s).gen = s.gen := rfl
@[simp] theorem demodulate_phase : (demodulate s).phase = s.phase := rfl
@[simp] theorem demodulate_pending : (demodulate s).pending = s.pending := rfl
@[simp] theorem demodulate_ecen : (demodulate s).ecen = s.ecen := rfl
@[simp] theorem demodulate_lastCmd : (demodulate s).lastCmd = s.lastCmd := rfl
@[simp] theorem demodulate_short : (demodulate s).short = decide (s.groupCount < Config.minBytes) := rfl
@[simp] theorem demodulate_err : (demodulate s).err = s.err := rfl
@[simp] theorem demodulate_errCode : (demodulate s).errCode = s.errCode := rfl
@[simp] theorem demodulate_errInfo : (demodulate s).errInfo = s.errInfo := rfl
@[simp] theorem demodulate_a : (demodulate s).a = s.a := rfl
@[simp] theorem demodulate_b : (demodulate s).b = s.b := rfl
@[simp] theorem demodulate_y : (demodulate s).y = s.y := rfl
@[simp] theorem demodulate_syn : (demodulate s).syn = s.syn := rfl
@[simp] theorem demodulate_lkr : (demodulate s).lkr = s.lkr := rfl
@[simp] theorem demodulate_inlen : (demodulate s).inlen = s.inlen := rfl
@[simp] theorem demodulate_bytelen : (demodulate s).bytelen = BitVec.ofNat 5 s.groupCount := rfl
@[simp] theorem demodulate_cmask : (demodulate s).cmask = s.cmask := rfl
@[simp] theorem demodulate_ccount : (demodulate s).ccount = s.ccount := rfl
@[simp] theorem demodulate_cinfo : (demodulate s).cinfo = s.cinfo := rfl
@[simp] theorem demodulate_mem :
    (demodulate s).mem = s.mem.writeList (bytebufAddr 0) ((List.range s.groupCount).map s.groupByte) := rfl
@[simp] theorem demodulate_hostProgram : (demodulate s).hostProgram = s.hostProgram := rfl
@[simp] theorem demodulate_turns : (demodulate s).turns = s.turns := rfl
@[simp] theorem demodulate_readData : (demodulate s).readData = s.readData := rfl
@[simp] theorem demodulate_drawCount : (demodulate s).drawCount = s.drawCount + 8 * s.groupCount := rfl

/-! ### `clearResults` -/

@[simp] theorem clearResults_gen : (clearResults s).gen = s.gen := rfl
@[simp] theorem clearResults_phase : (clearResults s).phase = s.phase := rfl
@[simp] theorem clearResults_pending : (clearResults s).pending = s.pending := rfl
@[simp] theorem clearResults_ecen : (clearResults s).ecen = s.ecen := rfl
@[simp] theorem clearResults_lastCmd : (clearResults s).lastCmd = s.lastCmd := rfl
@[simp] theorem clearResults_short : (clearResults s).short = s.short := rfl
@[simp] theorem clearResults_err : (clearResults s).err = s.err := rfl
@[simp] theorem clearResults_errCode : (clearResults s).errCode = s.errCode := rfl
@[simp] theorem clearResults_errInfo : (clearResults s).errInfo = s.errInfo := rfl
@[simp] theorem clearResults_a : (clearResults s).a = s.a := rfl
@[simp] theorem clearResults_b : (clearResults s).b = s.b := rfl
@[simp] theorem clearResults_y : (clearResults s).y = s.y := rfl
@[simp] theorem clearResults_syn : (clearResults s).syn = s.syn := rfl
@[simp] theorem clearResults_lkr : (clearResults s).lkr = s.lkr := rfl
@[simp] theorem clearResults_inlen : (clearResults s).inlen = s.inlen := rfl
@[simp] theorem clearResults_bytelen : (clearResults s).bytelen = s.bytelen := rfl
@[simp] theorem clearResults_cmask : (clearResults s).cmask = 0 := rfl
@[simp] theorem clearResults_ccount : (clearResults s).ccount = 0 := rfl
@[simp] theorem clearResults_cinfo : (clearResults s).cinfo = Vector.replicate 17 {} := rfl
@[simp] theorem clearResults_mem : (clearResults s).mem = clearPayloads s.mem tableLengths := by
  simp only [clearResults]
@[simp] theorem clearResults_hostProgram : (clearResults s).hostProgram = s.hostProgram := rfl
@[simp] theorem clearResults_turns : (clearResults s).turns = s.turns := rfl
@[simp] theorem clearResults_readData : (clearResults s).readData = s.readData := rfl
@[simp] theorem clearResults_drawCount : (clearResults s).drawCount = s.drawCount := rfl

/-! ### `storeCandidate` -/

@[simp] theorem storeCandidate_gen (L : Nat) (c : BitVec 16) (p : List Byte) (n : Nat) :
    (storeCandidate L c p n s).gen = s.gen := rfl
@[simp] theorem storeCandidate_phase (L : Nat) (c : BitVec 16) (p : List Byte) (n : Nat) :
    (storeCandidate L c p n s).phase = s.phase := rfl
@[simp] theorem storeCandidate_pending (L : Nat) (c : BitVec 16) (p : List Byte) (n : Nat) :
    (storeCandidate L c p n s).pending = s.pending := rfl
@[simp] theorem storeCandidate_ecen (L : Nat) (c : BitVec 16) (p : List Byte) (n : Nat) :
    (storeCandidate L c p n s).ecen = s.ecen := rfl
@[simp] theorem storeCandidate_lastCmd (L : Nat) (c : BitVec 16) (p : List Byte) (n : Nat) :
    (storeCandidate L c p n s).lastCmd = s.lastCmd := rfl
@[simp] theorem storeCandidate_short (L : Nat) (c : BitVec 16) (p : List Byte) (n : Nat) :
    (storeCandidate L c p n s).short = s.short := rfl
@[simp] theorem storeCandidate_err (L : Nat) (c : BitVec 16) (p : List Byte) (n : Nat) :
    (storeCandidate L c p n s).err = s.err := rfl
@[simp] theorem storeCandidate_errCode (L : Nat) (c : BitVec 16) (p : List Byte) (n : Nat) :
    (storeCandidate L c p n s).errCode = s.errCode := rfl
@[simp] theorem storeCandidate_errInfo (L : Nat) (c : BitVec 16) (p : List Byte) (n : Nat) :
    (storeCandidate L c p n s).errInfo = s.errInfo := rfl
@[simp] theorem storeCandidate_a (L : Nat) (c : BitVec 16) (p : List Byte) (n : Nat) : (storeCandidate L c p n s).a = s.a := rfl
@[simp] theorem storeCandidate_b (L : Nat) (c : BitVec 16) (p : List Byte) (n : Nat) : (storeCandidate L c p n s).b = s.b := rfl
@[simp] theorem storeCandidate_y (L : Nat) (c : BitVec 16) (p : List Byte) (n : Nat) : (storeCandidate L c p n s).y = s.y := rfl
@[simp] theorem storeCandidate_syn (L : Nat) (c : BitVec 16) (p : List Byte) (n : Nat) :
    (storeCandidate L c p n s).syn = s.syn := rfl
@[simp] theorem storeCandidate_lkr (L : Nat) (c : BitVec 16) (p : List Byte) (n : Nat) :
    (storeCandidate L c p n s).lkr = s.lkr := rfl
@[simp] theorem storeCandidate_inlen (L : Nat) (c : BitVec 16) (p : List Byte) (n : Nat) :
    (storeCandidate L c p n s).inlen = s.inlen := rfl
@[simp] theorem storeCandidate_bytelen (L : Nat) (c : BitVec 16) (p : List Byte) (n : Nat) :
    (storeCandidate L c p n s).bytelen = s.bytelen := rfl
@[simp] theorem storeCandidate_cmask (L : Nat) (c : BitVec 16) (p : List Byte) (n : Nat) :
    (storeCandidate L c p n s).cmask = s.cmask ||| ((1 : BitVec 22) <<< L) := rfl
@[simp] theorem storeCandidate_ccount (L : Nat) (c : BitVec 16) (p : List Byte) (n : Nat) :
    (storeCandidate L c p n s).ccount = s.ccount + 1 := rfl
@[simp] theorem storeCandidate_cinfo (L : Nat) (c : BitVec 16) (p : List Byte) (n : Nat) :
    (storeCandidate L c p n s).cinfo = if Config.lmin ≤ L then s.cinfo.setIfInBounds (L - Config.lmin) (candidateInfo c n) else s.cinfo := rfl
@[simp] theorem storeCandidate_mem (L : Nat) (c : BitVec 16) (p : List Byte) (n : Nat) :
    (storeCandidate L c p n s).mem = s.mem.writeList (cpayAddr L 0) p := rfl
@[simp] theorem storeCandidate_hostProgram (L : Nat) (c : BitVec 16) (p : List Byte) (n : Nat) :
    (storeCandidate L c p n s).hostProgram = s.hostProgram := rfl
@[simp] theorem storeCandidate_turns (L : Nat) (c : BitVec 16) (p : List Byte) (n : Nat) :
    (storeCandidate L c p n s).turns = s.turns := rfl
@[simp] theorem storeCandidate_readData (L : Nat) (c : BitVec 16) (p : List Byte) (n : Nat) :
    (storeCandidate L c p n s).readData = s.readData := rfl
@[simp] theorem storeCandidate_drawCount (L : Nat) (c : BitVec 16) (p : List Byte) (n : Nat) :
    (storeCandidate L c p n s).drawCount = s.drawCount := rfl

/-! ### `State.withFetchWord` -/

@[simp] theorem State.withFetchWord_gen (n w : Nat) : (s.withFetchWord n w).gen = s.gen := rfl
@[simp] theorem State.withFetchWord_phase (n w : Nat) : (s.withFetchWord n w).phase = .run := rfl
@[simp] theorem State.withFetchWord_pending (n w : Nat) :
    (s.withFetchWord n w).pending = some (BitVec.ofNat 32 (w % 2 ^ n)) := rfl
@[simp] theorem State.withFetchWord_ecen (n w : Nat) : (s.withFetchWord n w).ecen = s.ecen := rfl
@[simp] theorem State.withFetchWord_lastCmd (n w : Nat) : (s.withFetchWord n w).lastCmd = BitVec.ofNat 32 (w % 2 ^ n) := rfl
@[simp] theorem State.withFetchWord_short (n w : Nat) : (s.withFetchWord n w).short = s.short := rfl
@[simp] theorem State.withFetchWord_err (n w : Nat) : (s.withFetchWord n w).err = s.err := rfl
@[simp] theorem State.withFetchWord_errCode (n w : Nat) : (s.withFetchWord n w).errCode = s.errCode := rfl
@[simp] theorem State.withFetchWord_errInfo (n w : Nat) : (s.withFetchWord n w).errInfo = s.errInfo := rfl
@[simp] theorem State.withFetchWord_a (n w : Nat) : (s.withFetchWord n w).a = s.a := rfl
@[simp] theorem State.withFetchWord_b (n w : Nat) : (s.withFetchWord n w).b = s.b := rfl
@[simp] theorem State.withFetchWord_y (n w : Nat) : (s.withFetchWord n w).y = s.y := rfl
@[simp] theorem State.withFetchWord_syn (n w : Nat) : (s.withFetchWord n w).syn = s.syn := rfl
@[simp] theorem State.withFetchWord_lkr (n w : Nat) : (s.withFetchWord n w).lkr = s.lkr := rfl
@[simp] theorem State.withFetchWord_inlen (n w : Nat) : (s.withFetchWord n w).inlen = s.inlen := rfl
@[simp] theorem State.withFetchWord_bytelen (n w : Nat) : (s.withFetchWord n w).bytelen = s.bytelen := rfl
@[simp] theorem State.withFetchWord_cmask (n w : Nat) : (s.withFetchWord n w).cmask = s.cmask := rfl
@[simp] theorem State.withFetchWord_ccount (n w : Nat) : (s.withFetchWord n w).ccount = s.ccount := rfl
@[simp] theorem State.withFetchWord_cinfo (n w : Nat) : (s.withFetchWord n w).cinfo = s.cinfo := rfl
@[simp] theorem State.withFetchWord_mem (n w : Nat) : (s.withFetchWord n w).mem = s.mem := rfl
@[simp] theorem State.withFetchWord_hostProgram (n w : Nat) : (s.withFetchWord n w).hostProgram = s.hostProgram := rfl
@[simp] theorem State.withFetchWord_turns (n w : Nat) : (s.withFetchWord n w).turns = .engine :: s.turns := rfl
@[simp] theorem State.withFetchWord_readData (n w : Nat) : (s.withFetchWord n w).readData = s.readData := rfl
@[simp] theorem State.withFetchWord_drawCount (n w : Nat) : (s.withFetchWord n w).drawCount = s.drawCount := rfl

/-! ### `recordError`: only `ERR`, `ERRCODE` and `ERRINFO` can change (R109) -/

@[simp] theorem recordError_gen (c : ErrorCode) (info : Word) : (recordError c info s).gen = s.gen := by
  unfold recordError; split <;> rfl
@[simp] theorem recordError_phase (c : ErrorCode) (info : Word) : (recordError c info s).phase = s.phase := by
  unfold recordError; split <;> rfl
@[simp] theorem recordError_pending (c : ErrorCode) (info : Word) : (recordError c info s).pending = s.pending := by
  unfold recordError; split <;> rfl
@[simp] theorem recordError_ecen (c : ErrorCode) (info : Word) : (recordError c info s).ecen = s.ecen := by
  unfold recordError; split <;> rfl
@[simp] theorem recordError_lastCmd (c : ErrorCode) (info : Word) : (recordError c info s).lastCmd = s.lastCmd := by
  unfold recordError; split <;> rfl
@[simp] theorem recordError_short (c : ErrorCode) (info : Word) : (recordError c info s).short = s.short := by
  unfold recordError; split <;> rfl
@[simp] theorem recordError_a (c : ErrorCode) (info : Word) : (recordError c info s).a = s.a := by
  unfold recordError; split <;> rfl
@[simp] theorem recordError_b (c : ErrorCode) (info : Word) : (recordError c info s).b = s.b := by
  unfold recordError; split <;> rfl
@[simp] theorem recordError_y (c : ErrorCode) (info : Word) : (recordError c info s).y = s.y := by
  unfold recordError; split <;> rfl
@[simp] theorem recordError_syn (c : ErrorCode) (info : Word) : (recordError c info s).syn = s.syn := by
  unfold recordError; split <;> rfl
@[simp] theorem recordError_lkr (c : ErrorCode) (info : Word) : (recordError c info s).lkr = s.lkr := by
  unfold recordError; split <;> rfl
@[simp] theorem recordError_inlen (c : ErrorCode) (info : Word) : (recordError c info s).inlen = s.inlen := by
  unfold recordError; split <;> rfl
@[simp] theorem recordError_bytelen (c : ErrorCode) (info : Word) : (recordError c info s).bytelen = s.bytelen := by
  unfold recordError; split <;> rfl
@[simp] theorem recordError_cmask (c : ErrorCode) (info : Word) : (recordError c info s).cmask = s.cmask := by
  unfold recordError; split <;> rfl
@[simp] theorem recordError_ccount (c : ErrorCode) (info : Word) : (recordError c info s).ccount = s.ccount := by
  unfold recordError; split <;> rfl
@[simp] theorem recordError_cinfo (c : ErrorCode) (info : Word) : (recordError c info s).cinfo = s.cinfo := by
  unfold recordError; split <;> rfl
@[simp] theorem recordError_mem (c : ErrorCode) (info : Word) : (recordError c info s).mem = s.mem := by
  unfold recordError; split <;> rfl
@[simp] theorem recordError_hostProgram (c : ErrorCode) (info : Word) : (recordError c info s).hostProgram = s.hostProgram := by
  unfold recordError; split <;> rfl
@[simp] theorem recordError_turns (c : ErrorCode) (info : Word) : (recordError c info s).turns = s.turns := by
  unfold recordError; split <;> rfl
@[simp] theorem recordError_readData (c : ErrorCode) (info : Word) : (recordError c info s).readData = s.readData := by
  unfold recordError; split <;> rfl
@[simp] theorem recordError_drawCount (c : ErrorCode) (info : Word) : (recordError c info s).drawCount = s.drawCount := by
  unfold recordError; split <;> rfl

@[simp] theorem recordError_err (c : ErrorCode) (info : Word) : (recordError c info s).err = true := by
  unfold recordError; split <;> simp_all

end Sys2Proof.Machine
end

