-- ==== Sys2Proof/Laws/Frame.lean ====
section
/-! SUPPORT. The frame search: what one length can give, and what a search leaves alone. -/

namespace Sys2Proof.Machine

@[simp] theorem length_uninvert (F : List Byte) : (uninvert F).length = F.length := by
  simp [uninvert, Config.crcBytes]

@[simp] theorem length_patBytes (L : Nat) (E : ErrPattern) : (patBytes L E).length = L := by simp [patBytes]

@[simp] theorem length_xorBytes (u v : List Byte) : (xorBytes u v).length = min u.length v.length := by
  simp [xorBytes]

@[simp] theorem length_payloadOf (W : List Byte) : (payloadOf W).length = W.length - 2 := by
  simp [payloadOf, Config.crcBytes]

/-- What trying a length can give, and when (R98). -/
theorem judgeFrame_cases (g : Nat) (ecen : Bool) (L : Nat) (W : List Byte) (syn : BitVec 16) :
    (syn = 0 ∧ judgeFrame g ecen L W syn = .candidate (payloadOf W) 0) ∨
    (syn ≠ 0 ∧ tableLookup g ecen L syn = none ∧ judgeFrame g ecen L W syn = .noCandidate) ∨
    (∃ E, syn ≠ 0 ∧ tableLookup g ecen L syn = some E ∧ residue g (xorBytes W (patBytes L E)) = 0 ∧
      judgeFrame g ecen L W syn = .candidate (payloadOf (xorBytes W (patBytes L E))) E.size) ∨
    (∃ E, syn ≠ 0 ∧ tableLookup g ecen L syn = some E ∧ residue g (xorBytes W (patBytes L E)) ≠ 0 ∧
      judgeFrame g ecen L W syn = .inconsistent) := by
  unfold judgeFrame
  by_cases h0 : syn = 0
  · exact Or.inl ⟨h0, if_pos h0⟩
  · simp only [if_neg h0]
    cases ht : tableLookup g ecen L syn with
    | none => exact Or.inr (Or.inl ⟨h0, rfl, rfl⟩)
    | some E =>
      by_cases hr : residue g (xorBytes W (patBytes L E)) = 0
      · exact Or.inr (Or.inr (Or.inl ⟨E, h0, rfl, hr, if_pos hr⟩))
      · exact Or.inr (Or.inr (Or.inr ⟨E, h0, rfl, hr, if_neg hr⟩))

/-- What a frame search leaves alone: all but its results, the draw counter and, after a fatal error, the error state. -/
structure SearchFrame (s t : State) : Prop where
  gen : t.gen = s.gen
  ecen : t.ecen = s.ecen
  lastCmd : t.lastCmd = s.lastCmd
  short : t.short = s.short
  a : t.a = s.a
  b : t.b = s.b
  y : t.y = s.y
  syn : t.syn = s.syn
  lkr : t.lkr = s.lkr
  inlen : t.inlen = s.inlen
  bytelen : t.bytelen = s.bytelen
  hostProgram : t.hostProgram = s.hostProgram
  turns : t.turns = s.turns
  readData : t.readData = s.readData
  /-- `INBUF` and `BYTEBUF` lie below `0x400` (R44). -/
  buffers : ∀ a, a < 0x400 → t.mem.read a = s.mem.read a

theorem SearchFrame.refl (s : State) : SearchFrame s s := by constructor <;> intros <;> rfl

theorem SearchFrame.trans {s t u : State} (h : SearchFrame s t) (h' : SearchFrame t u) : SearchFrame s u where
  gen := h'.gen.trans h.gen
  ecen := h'.ecen.trans h.ecen
  lastCmd := h'.lastCmd.trans h.lastCmd
  short := h'.short.trans h.short
  a := h'.a.trans h.a
  b := h'.b.trans h.b
  y := h'.y.trans h.y
  syn := h'.syn.trans h.syn
  lkr := h'.lkr.trans h.lkr
  inlen := h'.inlen.trans h.inlen
  bytelen := h'.bytelen.trans h.bytelen
  hostProgram := h'.hostProgram.trans h.hostProgram
  turns := h'.turns.trans h.turns
  readData := h'.readData.trans h.readData
  buffers a ha := (h'.buffers a ha).trans (h.buffers a ha)

theorem Memory.read_cpay_writeList (m : Memory) (L a : Nat) (vs : List Byte) (ha : a < 0x400) :
    (m.writeList (cpayAddr L 0) vs).read a = m.read a := by
  rw [Memory.read_writeList, if_neg]; unfold cpayAddr; omega

theorem storeCandidate_frame (L : Nat) (syn : BitVec 16) (payload : List Byte) (n : Nat) (s : State) :
    SearchFrame s (storeCandidate L syn payload n s) := by
  constructor
  all_goals first
    | rfl
    | exact fun a ha => Memory.read_cpay_writeList _ _ _ _ ha

theorem skipDraws_frame (n : Nat) (s : State) : SearchFrame s (s.skipDraws n) := by
  constructor <;> intros <;> rfl

theorem setCinfo_frame (L : Nat) (c : CInfo) (s : State) : SearchFrame s (s.setCinfo L c) := by
  constructor <;> intros <;> rfl

theorem recordFatal_frame (c : FatalCode) (info : Word) (s : State) : SearchFrame s (recordFatal c info s) := by
  constructor <;> intros <;> rfl

theorem searchLength_frame (L : Nat) (s : State) : SearchFrame s (searchLength L s) := by
  refine SearchFrame.trans ?_ (skipDraws_frame L _)
  unfold applyTry
  split
  · exact storeCandidate_frame ..
  · exact setCinfo_frame ..
  · exact recordFatal_frame ..

/-- The search only changes results, draws and, after a fatal error, the error state (R100, R110). -/
theorem searchLengths_frame (Ls : List Nat) (s : State) : SearchFrame s (searchLengths Ls s) := by
  induction Ls generalizing s with
  | nil => exact .refl s
  | cons L rest ih =>
    rw [searchLengths]
    split
    · exact searchLength_frame L s
    · exact (searchLength_frame L s).trans (ih _)

theorem clearPayloads_read_low (m : Memory) (Ls : List Nat) (a : Nat) (ha : a < 0x400) :
    (clearPayloads m Ls).read a = m.read a := by
  induction Ls generalizing m with
  | nil => rfl
  | cons L rest ih => rw [clearPayloads, ih, Memory.read_cpay_writeList _ _ _ _ ha]

/-- Clearing the payloads keeps the canonical form (R100). -/
theorem clearPayloads_wf (m : Memory) (Ls : List Nat) (hm : m.wf = true)
    (hL : ∀ L ∈ Ls, Config.lmin ≤ L ∧ L ≤ Config.lmax) : (clearPayloads m Ls).wf = true := by
  induction Ls generalizing m with
  | nil => exact hm
  | cons L rest ih =>
    rw [clearPayloads]
    refine ih _ (Memory.writeList_wf _ _ _ hm fun k hk => ?_) fun L' h => hL L' (List.mem_cons_of_mem _ h)
    have hL' := hL L List.mem_cons_self
    rw [List.length_replicate] at hk
    exact isBufferEntry_cpay hL'.1 hL'.2 (by unfold Config.crcBytes at *; omega)

/-- The lengths with a table are 5 to 21 (R89). -/
theorem mem_tableLengths (L : Nat) : L ∈ tableLengths ↔ Config.lmin ≤ L ∧ L ≤ Config.lmax := by
  simp only [tableLengths, List.mem_map, List.mem_range, Config.lmin, Config.lmax]
  constructor
  · rintro ⟨a, ha, rfl⟩; omega
  · rintro ⟨h5, h21⟩; exact ⟨L - 5, by omega, by omega⟩

theorem clearResults_buffers (s : State) (a : Nat) (ha : a < 0x400) : (clearResults s).mem.read a = s.mem.read a := by
  rw [clearResults_mem]; exact clearPayloads_read_low _ _ _ ha

theorem clearResults_frame (s : State) : SearchFrame s (clearResults s) :=
  ⟨rfl, rfl, rfl, rfl, rfl, rfl, rfl, rfl, rfl, rfl, rfl, rfl, rfl, rfl, clearResults_buffers s⟩

/-- The frame search as a whole leaves alone what its lengths and its clearing do. -/
theorem frameSearch_frame (s : State) : SearchFrame s (frameSearch s) :=
  (clearResults_frame s).trans (searchLengths_frame _ _)

end Sys2Proof.Machine
end

