-- ==== Sys2Proof/Laws/Gf2.lean ====
section
/-! SUPPORT. Polynomial arithmetic: the reduction is linear, needs no particular height to begin at, and ends below degree 16; the
product needs no particular height either. -/

namespace Sys2Proof.Machine

/-- One step of the reduction is linear, so all of them are (R78). -/
theorem redSteps_xor (g : Nat) (k a b : Nat) : redSteps g k (a ^^^ b) = redSteps g k a ^^^ redSteps g k b := by
  induction k generalizing a b with
  | zero => rfl
  | succ k ih =>
    simp only [redSteps, Nat.testBit_xor]
    cases ha : a.testBit (k + Config.deg) <;> cases hb : b.testBit (k + Config.deg) <;>
      simp only [Bool.false_eq_true, ↓reduceIte, Bool.xor_false, Bool.xor_true, Bool.not_true, Bool.not_false, ih]
    · rw [Nat.xor_assoc]
    · rw [Nat.xor_assoc, Nat.xor_assoc, Nat.xor_comm (redSteps g k b)]
    · rw [Nat.xor_assoc, Nat.xor_comm (redSteps g k (g <<< k)), Nat.xor_assoc, Nat.xor_self, Nat.xor_zero]

/-- Steps above the highest set bit do nothing. -/
theorem redSteps_add (g k n a : Nat) (h : a < 2 ^ (k + Config.deg)) : redSteps g (k + n) a = redSteps g k a := by
  induction n with
  | zero => rfl
  | succ n ih =>
    have hz : a.testBit (k + n + Config.deg) = false :=
      Nat.testBit_lt_two_pow (Nat.lt_of_lt_of_le h (Nat.pow_le_pow_right (by decide) (by omega)))
    rw [← Nat.add_assoc]
    simp only [redSteps, hz, Bool.false_eq_true, ↓reduceIte, ih]

/-- The reduction may begin at any height above its operand. -/
theorem red_eq_redSteps (g k a : Nat) (h : a < 2 ^ (k + Config.deg)) : red g a = redSteps g k a := by
  have hlog : a < 2 ^ (a.log2 + 1 - Config.deg + Config.deg) :=
    Nat.lt_of_lt_of_le Nat.lt_log2_self (Nat.pow_le_pow_right (by decide) (by omega))
  have hmax := redSteps_add g (a.log2 + 1 - Config.deg) k a hlog
  rw [Nat.add_comm, redSteps_add g k _ a h] at hmax
  exact hmax.symm

/-- A step with a generator of degree 16 clears the bit it looks at (R73). -/
theorem redSteps_lt (g k a : Nat) (hg : g < 2 ^ (Config.deg + 1)) (h16 : g.testBit Config.deg = true)
    (h : a < 2 ^ (k + Config.deg)) : redSteps g k a < 2 ^ Config.deg := by
  induction k generalizing a with
  | zero => simpa [redSteps] using h
  | succ k ih =>
    refine ih _ (Nat.lt_pow_two_of_testBit _ fun i hi => ?_)
    have hshift : ∀ i, k + Config.deg + 1 ≤ i → (g <<< k).testBit i = false := by
      intro i hi
      rw [Nat.testBit_shiftLeft, Nat.testBit_lt_two_pow (Nat.lt_of_lt_of_le hg (Nat.pow_le_pow_right (by decide) (by omega)))]
      simp
    have ha : ∀ i, k + Config.deg + 1 ≤ i → a.testBit i = false := fun i hi =>
      Nat.testBit_lt_two_pow (Nat.lt_of_lt_of_le h (Nat.pow_le_pow_right (by decide) (by omega)))
    split
    · rename_i hbit
      rcases Nat.eq_or_lt_of_le hi with rfl | hlt
      · rw [Nat.testBit_xor, hbit, Nat.testBit_shiftLeft, Nat.add_sub_cancel_left, h16]; simp
      · rw [Nat.testBit_xor, hshift i hlt, ha i hlt]; rfl
    · rename_i hbit
      rcases Nat.eq_or_lt_of_le hi with rfl | hlt
      · simpa using hbit
      · exact ha i hlt

/-- The carry-less product adds nothing above the set bits of `b`. -/
theorem clmulBits_add (a b k n : Nat) (h : b < 2 ^ k) : clmulBits a b (k + n) = clmulBits a b k := by
  induction n with
  | zero => rfl
  | succ n ih =>
    have hz : b.testBit (k + n) = false :=
      Nat.testBit_lt_two_pow (Nat.lt_of_lt_of_le h (Nat.pow_le_pow_right (by decide) (by omega)))
    rw [← Nat.add_assoc]
    simp only [clmulBits, hz, Bool.false_eq_true, ↓reduceIte, Nat.xor_zero, ih]

/-- The product may be summed up to any height above the set bits of `b`. -/
theorem clmul_eq_clmulBits (a b k : Nat) (h : b < 2 ^ k) : clmul a b = clmulBits a b k := by
  have hmax := clmulBits_add a b (b.log2 + 1) k Nat.lt_log2_self
  rw [Nat.add_comm, clmulBits_add a b k _ h] at hmax
  exact hmax.symm

/-- A product with a sum, bit by bit. -/
theorem clmulBits_xor (a b c n : Nat) : clmulBits a (b ^^^ c) n = clmulBits a b n ^^^ clmulBits a c n := by
  induction n with
  | zero => simp [clmulBits]
  | succ n ih =>
    simp only [clmulBits, ih, Nat.testBit_xor]
    cases b.testBit n <;> cases c.testBit n <;>
      simp only [Bool.false_eq_true, ↓reduceIte, Bool.xor_false, Bool.xor_true, Bool.not_true, Bool.not_false,
        Nat.xor_zero, Nat.xor_assoc]
    · rw [Nat.xor_comm (clmulBits a c n)]
    · rw [Nat.xor_comm (clmulBits a c n), ← Nat.xor_assoc (a <<< n), Nat.xor_self, Nat.zero_xor]

end Sys2Proof.Machine
end

