-- ==== Sys2Proof/Laws/Host.lean ====
section
/-! SUPPORT. The host's moves: every outcome of a write, and what a performed write changes. -/

namespace Sys2Proof.Machine

/-- Every outcome of a host write (R45, R49): no effect, a recorded `BUSY_WRITE`, or the register's write. -/
theorem hostWrite_cases (a : Addr) (v : Word) (s : State) :
    (regAt a = none ∧ hostWrite a v s = s) ∨
    (s.phase = .halted ∧ hostWrite a v s = s) ∨
    (∃ r, regAt a = some r ∧ (s.phase = .building ∨ (s.phase = .run ∧ s.pending ≠ none)) ∧
      hostWrite a v s = recordError .busyWrite (a.setWidth 32) s) ∨
    (∃ r, regAt a = some r ∧ s.phase = .run ∧ s.pending = none ∧ hostWrite a v s = performWrite r v s) := by
  unfold hostWrite
  cases hr : regAt a with
  | none => exact Or.inl ⟨rfl, rfl⟩
  | some r =>
    cases hp : s.phase with
    | halted => exact Or.inr (Or.inl ⟨rfl, rfl⟩)
    | building => exact Or.inr (Or.inr (Or.inl ⟨r, rfl, Or.inl rfl, rfl⟩))
    | run =>
      cases hq : s.pending with
      | none => exact Or.inr (Or.inr (Or.inr ⟨r, rfl, rfl, rfl, rfl⟩))
      | some w => exact Or.inr (Or.inr (Or.inl ⟨r, rfl, Or.inr ⟨rfl, by simp⟩, rfl⟩))

/-- What a performed write can do: one register, or nothing (R50, R52). -/
theorem performWrite_cases (r : Reg) (v : Word) (s : State) :
    (r = .cmd ∧ performWrite r v s = { s with pending := some v, lastCmd := v }) ∨
    (r = .a ∧ performWrite r v s = { s with a := v }) ∨
    (r = .b ∧ performWrite r v s = { s with b := v }) ∨
    (r = .inlen ∧ performWrite r v s = { s with inlen := BitVec.ofNat 8 (min v.toNat Config.inCap) }) ∨
    (r = .bytelen ∧ performWrite r v s = { s with bytelen := BitVec.ofNat 5 (min v.toNat Config.maxBytes) }) ∨
    (∃ k, r = .inbuf k ∧ performWrite r v s = { s with mem := s.mem.write (inbufAddr k) (v.setWidth 8) }) ∨
    (∃ k, r = .bytebuf k ∧ performWrite r v s = { s with mem := s.mem.write (bytebufAddr k) (v.setWidth 8) }) ∨
    (r.writable = false ∧ performWrite r v s = s) := by
  cases r <;> simp [performWrite, Reg.writable]

/-- A mapped address names a register whose indexes are in range (R44). -/
theorem regAt_inRange (a : Addr) (r : Reg) (h : regAt a = some r) : r.inRange = true := by
  unfold regAt at h
  split at h
  · unfold scalarAt at h
    split at h <;> simp_all [Reg.inRange] <;> subst h <;> rfl
  · split at h
    · rename_i hr; cases h; exact hr
    · simp at h

/-- Every move of the host (R49, R51, R70, R122). -/
theorem hostMove_cases (s : State) :
    (s.hostProgram = [] ∧ hostMove s = s) ∨
    (∃ op rest, s.hostProgram = op :: rest ∧ hostMove s = hostAct op rest s) := by
  unfold hostMove
  cases h : s.hostProgram with
  | nil => exact Or.inl ⟨rfl, rfl⟩
  | cons op rest => exact Or.inr ⟨op, rest, rfl, rfl⟩

end Sys2Proof.Machine
end

