-- ==== Sys2Proof/Laws/Ops.lean ====
section
/-! SUPPORT. The shared operations: recording an error, the result registers by length, reading buffer operands. -/

namespace Sys2Proof.Machine

/-- A recorded error is kept (R109). -/
theorem recordError_of_err (c : ErrorCode) (info : Word) (s : State) (h : s.err = true) : recordError c info s = s := by
  simp [recordError, h]

/-- With none recorded, the error is recorded (R109). -/
theorem recordError_of_clear (c : ErrorCode) (info : Word) (s : State) (h : s.err = false) :
    recordError c info s = { s with errCode := c.code, errInfo := info, err := true } := by
  simp [recordError, h]

/-- A `CINFO` read after a write (R33). -/
theorem State.cinfoAt_setCinfo (s : State) (L L' : Nat) (c : CInfo) (h5 : Config.lmin ≤ L) (h21 : L ≤ Config.lmax) :
    (s.setCinfo L c).cinfoAt L' = if L' = L then c else s.cinfoAt L' := by
  unfold State.cinfoAt
  rw [State.setCinfo_cinfo, if_pos h5]
  unfold Config.lmin at *; unfold Config.lmax at h21
  by_cases h : 5 ≤ L'
  · rw [if_pos h, if_pos h, Vector.getElem?_setIfInBounds]
    by_cases he : L' = L
    · subst he; rw [if_pos rfl, if_pos (by omega), if_pos rfl]; rfl
    · rw [if_neg (by omega), if_neg he]
  · rw [if_neg h, if_neg h, if_neg (by omega)]

/-- A written entry is read exactly; only an unwritten one is a draw (R39). -/
theorem State.readEntry_of_written (s : State) (a i : Nat) (v : Byte) (h : s.mem.read a = some v) :
    s.readEntry a i = v := by
  simp [State.readEntry, h]

@[simp] theorem State.length_bytes (s : State) (n : Nat) : (s.bytes n).length = n := by simp [State.bytes]

/-- A byte of the prefix that a command reads is that entry's read (R32, R47). -/
theorem State.getElem?_bytes (s : State) (n k : Nat) (h : k < n) :
    (s.bytes n)[k]? = some (s.readEntry (bytebufAddr k) k) := by
  simp [State.bytes, h]

theorem getLsbD_foldl_bits (f : Nat → Bool) (n t : Nat) (h : t < 8) :
    ((List.range n).foldl (fun (acc : Byte) t => if f t then acc ||| ((1 : Byte) <<< t) else acc) 0).getLsbD t =
      (decide (t < n) && f t) := by
  induction n with
  | zero => simp
  | succ n ih =>
    rw [List.range_succ, List.foldl_append, List.foldl_cons, List.foldl_nil]
    by_cases hn : f n = true
    · rw [if_pos hn, BitVec.getLsbD_or, ih, BitVec.getLsbD_shiftLeft, show (1 : Byte) = 1#8 from rfl, BitVec.getLsbD_one]
      rcases Nat.lt_trichotomy t n with hlt | rfl | hgt
      · simp [hlt, Nat.lt_succ_of_lt hlt]
      · simp [h, hn]
      · have h1 : ¬ t < n := by omega
        have h2 : ¬ t < n + 1 := by omega
        have h3 : t - n ≠ 0 := by omega
        simp [h1, h2, h3]
    · rw [if_neg hn, ih]
      rcases Nat.lt_trichotomy t n with hlt | rfl | hgt
      · simp [hlt, Nat.lt_succ_of_lt hlt]
      · simp [hn]
      · have h1 : ¬ t < n := by omega
        have h2 : ¬ t < n + 1 := by omega
        simp [h1, h2]

/-- The bits of a byte put together from eight bits (R94). -/
theorem getLsbD_byteOfBits (f : Nat → Bool) (t : Nat) (h : t < 8) : (byteOfBits f).getLsbD t = f t := by
  rw [byteOfBits, getLsbD_foldl_bits f 8 t h]
  simp [h]

end Sys2Proof.Machine
end

