-- ==== Sys2Proof/Laws/PerInstr.lean ====
section
/-! SUPPORT. Statements about every command as it is written, one lemma a constructor. -/

namespace Sys2Proof.Laws.EncodedOpcode

/-- The word of a command carries the command's opcode (R61, R63). -/
def Statement (i : Instr) : Prop := opcField (encode i) = i.opcode

theorem nop : Statement .nop := opcField_mkWord ..
theorem padd : Statement .padd := opcField_mkWord ..
theorem pmulm : Statement .pmulm := opcField_mkWord ..
theorem ppowm : Statement .ppowm := opcField_mkWord ..
theorem prem : Statement .prem := opcField_mkWord ..
theorem synd (len : BitVec 8) (inv : Bool) : Statement (.synd len inv) := opcField_mkWord ..
theorem tlookup (len : BitVec 8) (s : BitVec 16) : Statement (.tlookup len s) := opcField_mkWord ..
theorem demod : Statement .demod := opcField_mkWord ..
theorem fsearch : Statement .fsearch := opcField_mkWord ..
theorem process : Statement .process := opcField_mkWord ..
theorem clrerr : Statement .clrerr := opcField_mkWord ..

end Sys2Proof.Laws.EncodedOpcode
end

