-- ==== Sys2Proof/Laws/Step.lean ====
section
/-! SUPPORT. Every move of the engine and every step, case by case. -/

namespace Sys2Proof.Machine

/-- No command stops: every one answers a next state (R107). -/
theorem exec_next (i : Instr) (s : State) : ∃ t, exec i s = .next t := by
  cases i with
  | nop => exact ⟨_, rfl⟩
  | padd => exact ⟨_, rfl⟩
  | pmulm => exact ⟨_, rfl⟩
  | ppowm => exact ⟨_, rfl⟩
  | prem => exact ⟨_, rfl⟩
  | synd len inv =>
    simp only [exec, execSynd]
    split <;> exact ⟨_, rfl⟩
  | tlookup len syn =>
    simp only [exec, execTlookup]
    split <;> exact ⟨_, rfl⟩
  | demod => exact ⟨_, rfl⟩
  | fsearch => exact ⟨_, rfl⟩
  | process => exact ⟨_, rfl⟩
  | clrerr => exact ⟨_, rfl⟩

/-- The construction step: the engine runs, or halts with the first collision (R124). -/
theorem buildStep_cases (s : State) :
    ((s.ecen = false ∨ firstCollision s.g tableLengths = none) ∧ buildStep s = { s with phase := .run }) ∨
    (∃ tier L syn, s.ecen = true ∧ firstCollision s.g tableLengths = some (tier, L, syn) ∧
      buildStep s = recordFatal .tableCollision (fatalInfo tier L (BitVec.ofNat 16 syn)) s) := by
  unfold buildStep
  cases he : s.ecen with
  | false => exact Or.inl ⟨Or.inl rfl, rfl⟩
  | true =>
    rw [if_pos rfl]
    generalize firstCollision s.g tableLengths = c
    cases c with
    | none => exact Or.inl ⟨Or.inr rfl, rfl⟩
    | some c => exact Or.inr ⟨c.1, c.2.1, c.2.2, rfl, rfl, rfl⟩

/-- Every move of the engine (R66, R110, R124). -/
theorem engineMove_cases (s : State) :
    (s.phase = .building ∧ engineMove s = .next (buildStep s)) ∨
    (s.phase = .halted ∧ engineMove s = .next s) ∨
    (s.phase = .run ∧ s.pending = none ∧ engineMove s = .next s) ∨
    (∃ w i, s.phase = .run ∧ s.pending = some w ∧ decode w = .ok i ∧
      engineMove s = exec i { s with pending := none }) ∨
    (∃ w e, s.phase = .run ∧ s.pending = some w ∧ decode w = .error e ∧
      engineMove s = .next (recordError (DecodeError.errorCode e) w { s with pending := none })) := by
  unfold engineMove execute
  cases hp : s.phase with
  | building => exact Or.inl ⟨rfl, rfl⟩
  | halted => exact Or.inr (Or.inl ⟨rfl, rfl⟩)
  | run =>
    cases hq : s.pending with
    | none => exact Or.inr (Or.inr (Or.inl ⟨rfl, rfl, rfl⟩))
    | some w =>
      cases hd : decode w with
      | ok i => exact Or.inr (Or.inr (Or.inr (Or.inl ⟨w, i, rfl, rfl, hd, by simp only [hd]⟩)))
      | error e => exact Or.inr (Or.inr (Or.inr (Or.inr ⟨w, e, rfl, rfl, hd, by simp only [hd]⟩)))

/-- Every step that answers a next state: the generator has degree 16, and one agent moved (R6, R10). -/
theorem step_cases (s t : State) (h : step s = .next t) :
    s.genOk = true ∧
      ((s.nextAgent = .host ∧ t = hostMove s.takeTurn) ∨
       (s.nextAgent = .engine ∧ engineMove s.takeTurn = .next t)) := by
  unfold step at h
  split at h
  · rename_i hg
    refine ⟨hg, ?_⟩
    cases ha : s.nextAgent with
    | host => rw [ha] at h; cases h; exact Or.inl ⟨rfl, rfl⟩
    | engine => rw [ha] at h; exact Or.inr ⟨rfl, h⟩
  · cases h

end Sys2Proof.Machine
end

