-- ==== Sys2Proof/Laws/Table.lean ====
section
/-! SUPPORT. The correction tables: what the searches for pairs and triples find, when no syndrome repeats, and what a lookup can
answer. -/

namespace Sys2Proof.Machine

theorem synSetFrom_testBit (l : List Nat) (acc n : Nat) :
    (l.foldl (fun acc s => acc ||| (1 <<< s)) acc).testBit n = (acc.testBit n || decide (n ∈ l)) := by
  induction l generalizing acc with
  | nil => simp
  | cons s rest ih =>
    rw [List.foldl_cons, ih, Nat.testBit_or, Nat.one_shiftLeft, Nat.testBit_two_pow, Bool.or_assoc]
    simp [eq_comm]

/-- The set of a list has exactly its elements. -/
theorem synSet_testBit (l : List Nat) (n : Nat) : (synSet l).testBit n = true ↔ n ∈ l := by
  simp [synSet, synSetFrom_testBit]

theorem mem_onesWith (s i : Nat) (ps : List (Nat × Nat)) : i ∈ onesWith s ps ↔ (i, s) ∈ ps := by
  simp only [onesWith, List.mem_filterMap]
  constructor
  · rintro ⟨⟨j, p⟩, hmem, h⟩
    split at h
    · rename_i hp; simp only [Option.some.injEq] at h; subst h; simpa [← hp] using hmem
    · simp at h
  · intro h; exact ⟨(i, s), h, by simp⟩

/-- The pairs found are those of two entries, in order, whose syndromes sum to `s`: the filter by `keys` loses none. -/
theorem mem_pairsWith (keys s i j : Nat) (ps : List (Nat × Nat)) (hk : ∀ x ∈ ps, keys.testBit x.2 = true) :
    (i, j) ∈ pairsWith keys s ps ↔ ∃ p q, List.Sublist [(i, p), (j, q)] ps ∧ p ^^^ q = s := by
  induction ps with
  | nil => simp [pairsWith]
  | cons c rest ih =>
    obtain ⟨i', p'⟩ := c
    have ih' := ih fun x hx => hk x (List.mem_cons_of_mem _ hx)
    simp only [pairsWith, List.mem_append, ih']
    constructor
    · rintro (h | ⟨p, q, hsub, hs⟩)
      · split at h
        · simp only [List.mem_map, mem_onesWith, Prod.mk.injEq] at h
          obtain ⟨j', hj, rfl, rfl⟩ := h
          exact ⟨p', s ^^^ p', by simpa using hj, by rw [Nat.xor_comm s, ← Nat.xor_assoc, Nat.xor_self, Nat.zero_xor]⟩
        · simp at h
      · exact ⟨p, q, hsub.cons _, hs⟩
    · rintro ⟨p, q, hsub, hs⟩
      rcases List.sublist_cons_iff.1 hsub with h | ⟨r, hr, h⟩
      · exact Or.inr ⟨p, q, h, hs⟩
      · simp only [List.cons.injEq, Prod.mk.injEq] at hr
        obtain ⟨⟨rfl, rfl⟩, rfl⟩ := hr
        have hq : s ^^^ p = q := by
          rw [← hs, Nat.xor_comm p, Nat.xor_assoc, Nat.xor_self, Nat.xor_zero]
        have hmem : (j, q) ∈ rest := by simpa using h
        refine Or.inl ?_
        rw [hq, if_pos (hk (j, q) (List.mem_cons_of_mem _ hmem))]
        simp only [List.mem_map, mem_onesWith, Prod.mk.injEq]
        exact ⟨j, hmem, by simp⟩

/-- The triples found are those of three entries, in order, whose syndromes sum to `s`. -/
theorem mem_triplesWith (keys s i j k : Nat) (ps : List (Nat × Nat)) (hk : ∀ x ∈ ps, keys.testBit x.2 = true) :
    (i, j, k) ∈ triplesWith keys s ps ↔
      ∃ p q r, List.Sublist [(i, p), (j, q), (k, r)] ps ∧ p ^^^ q ^^^ r = s := by
  induction ps with
  | nil => simp [triplesWith]
  | cons c rest ih =>
    obtain ⟨i', p'⟩ := c
    have hk' : ∀ x ∈ rest, keys.testBit x.2 = true := fun x hx => hk x (List.mem_cons_of_mem _ hx)
    simp only [triplesWith, List.mem_append, ih hk', List.mem_map, Prod.exists, Prod.mk.injEq,
      mem_pairsWith keys _ _ _ rest hk']
    constructor
    · rintro (⟨j', k', ⟨q, r, hsub, hs⟩, rfl, rfl, rfl⟩ | ⟨p, q, r, hsub, hs⟩)
      · exact ⟨p', q, r, hsub.cons_cons _, by
          rw [Nat.xor_assoc, hs, Nat.xor_comm s, ← Nat.xor_assoc, Nat.xor_self, Nat.zero_xor]⟩
      · exact ⟨p, q, r, hsub.cons _, hs⟩
    · rintro ⟨p, q, r, hsub, hs⟩
      rcases List.sublist_cons_iff.1 hsub with h | ⟨l, hl, h⟩
      · exact Or.inr ⟨p, q, r, h, hs⟩
      · simp only [List.cons.injEq, Prod.mk.injEq] at hl
        obtain ⟨⟨rfl, rfl⟩, rfl⟩ := hl
        exact Or.inl ⟨j, k, ⟨q, r, h, by
          rw [← hs, Nat.xor_assoc p, Nat.xor_comm p, Nat.xor_assoc (q ^^^ r), Nat.xor_self, Nat.xor_zero]⟩, rfl, rfl, rfl⟩

/-- Every position below `8 L` stands in the list with its syndrome, and nothing else does. -/
theorem mem_singles (g L i p : Nat) : (i, p) ∈ singles g L ↔ i < 8 * L ∧ p = red g (1 <<< i) := by
  simp [singles, eq_comm]

theorem singles_keys (g L : Nat) :
    ∀ x ∈ singles g L, (synSet ((singles g L).map Prod.snd)).testBit x.2 = true := fun _ hx =>
  (synSet_testBit _ _).2 (List.mem_map_of_mem hx)

/-- The positions of an ordered choice from the list are ascending. -/
theorem sublist_singles_pairwise (g L : Nat) (l : List (Nat × Nat)) (h : List.Sublist l (singles g L)) :
    l.Pairwise fun x y => x.1 < y.1 := by
  refine List.Pairwise.sublist h ?_
  simp only [singles, List.pairwise_map]
  exact List.pairwise_lt_range

/-- No syndrome of the list is in `seen` and none repeats, exactly when no repeat is found. -/
theorem firstRepeat_eq_none (seen : Nat) (l : List Nat) :
    firstRepeat seen l = none ↔ l.Nodup ∧ ∀ s ∈ l, seen.testBit s = false := by
  induction l generalizing seen with
  | nil => simp [firstRepeat]
  | cons s rest ih =>
    simp only [firstRepeat]
    split
    · rename_i h; simp [h]
    · rename_i h
      simp only [ih, Nat.testBit_or, Nat.one_shiftLeft, Nat.testBit_two_pow, Bool.or_eq_false_iff,
        decide_eq_false_iff_not, List.nodup_cons, List.mem_cons, forall_eq_or_imp, Bool.not_eq_true] at h ⊢
      constructor
      · rintro ⟨hn, hs⟩
        exact ⟨⟨fun hmem => (hs s hmem).2 rfl, hn⟩, h, fun x hx => (hs x hx).1⟩
      · rintro ⟨⟨hns, hn⟩, -, hs⟩
        exact ⟨hn, fun x hx => ⟨hs x hx, fun hxs => hns (hxs ▸ hx)⟩⟩

/-- The syndromes of the pairs are those of two entries in order. -/
theorem mem_pairSyns (s : Nat) (ps : List (Nat × Nat)) :
    s ∈ pairSyns ps ↔ ∃ x y, List.Sublist [x, y] ps ∧ x.2 ^^^ y.2 = s := by
  induction ps with
  | nil => simp [pairSyns]
  | cons c rest ih =>
    obtain ⟨i, p⟩ := c
    simp only [pairSyns, List.mem_append, List.mem_map, ih]
    constructor
    · rintro (⟨q, hq, rfl⟩ | ⟨x, y, h, hs⟩)
      · exact ⟨(i, p), q, by simpa using hq, rfl⟩
      · exact ⟨x, y, h.cons _, hs⟩
    · rintro ⟨x, y, h, hs⟩
      rcases List.sublist_cons_iff.1 h with h | ⟨r, hr, h⟩
      · exact Or.inr ⟨x, y, h, hs⟩
      · simp only [List.cons.injEq] at hr
        obtain ⟨rfl, rfl⟩ := hr
        exact Or.inl ⟨y, by simpa using h, hs⟩

/-- What a lookup can answer: nothing, with correction disabled or none found; or the lowest tier's pattern (R86 to R89). -/
theorem tableLookup_cases (g : Nat) (ecen : Bool) (L : Nat) (syn : BitVec 16) (E : ErrPattern)
    (h : tableLookup g ecen L syn = some E) :
    ecen = true ∧
      ((∃ i, E = .one i ∧ (i, syn.toNat) ∈ singles g L) ∨
       (∃ i j p q, E = .two i j ∧ List.Sublist [(i, p), (j, q)] (singles g L) ∧ p ^^^ q = syn.toNat) ∨
       (∃ i j k p q r, E = .three i j k ∧ L < Config.l3lim ∧ List.Sublist [(i, p), (j, q), (k, r)] (singles g L) ∧
         p ^^^ q ^^^ r = syn.toNat)) := by
  unfold tableLookup at h
  split at h
  · rename_i he
    refine ⟨he, ?_⟩
    unfold lookupTiers at h
    split at h
    · rename_i i rest h1
      cases h
      exact Or.inl ⟨i, rfl, (mem_onesWith _ _ _).1 (by rw [h1]; simp)⟩
    · split at h
      · rename_i i j rest h2
        cases h
        obtain ⟨p, q, hsub, hs⟩ := (mem_pairsWith _ _ i j _ (singles_keys g L)).1 (by rw [h2]; simp)
        exact Or.inr (Or.inl ⟨i, j, p, q, rfl, hsub, hs⟩)
      · unfold tier3 at h
        split at h
        · rename_i hL
          split at h
          · rename_i i j k h3
            cases h
            obtain ⟨p, q, r, hsub, hs⟩ := (mem_triplesWith _ _ i j k _ (singles_keys g L)).1 (by rw [h3]; simp)
            exact Or.inr (Or.inr ⟨i, j, k, p, q, r, rfl, hL, hsub, hs⟩)
          · simp at h
        · simp at h
  · simp at h

end Sys2Proof.Machine
end

