-- ==== Sys2Proof/Machine/Assembler.lean ====
section
/-! DEFINITION. The assembler syntax (30_encoding.md R69) and the pseudo-instructions (R70): a line of text becomes the host
actions it stands for. Text is a list of characters. -/

namespace Sys2Proof.Machine

/-- A token is a run of characters with no space, tab or comma; a comma is a token of its own; `;` begins a comment. -/
def asmTokensFrom (cur : List Char) : List Char → List (List Char)
  | [] => if cur.isEmpty then [] else [cur]
  | c :: rest =>
    if c = ';' then (if cur.isEmpty then [] else [cur])
    else if c = ' ' || c = '\t' || c = '\r' then
      (if cur.isEmpty then asmTokensFrom [] rest else cur :: asmTokensFrom [] rest)
    else if c = ',' then
      (if cur.isEmpty then [','] :: asmTokensFrom [] rest else cur :: [','] :: asmTokensFrom [] rest)
    else asmTokensFrom (cur ++ [c]) rest

/-- The tokens of a line, in lower case: mnemonics are case-insensitive (R69). DESIGN CHOICE (log 18): so is the rest of the
line, the register names, the operand `inv`, the prefix `0x` and the hexadecimal digits. -/
def asmTokens (line : List Char) : List (List Char) := asmTokensFrom [] (line.map Char.toLower)

/-- The value of a digit below `base`, the letters in lower case. -/
def asmDigit (base : Nat) (c : Char) : Option Nat :=
  if '0'.toNat ≤ c.toNat && c.toNat ≤ '9'.toNat then some (c.toNat - '0'.toNat)
  else if base = 16 && 'a'.toNat ≤ c.toNat && c.toNat ≤ 'f'.toNat then some (c.toNat - 'a'.toNat + 10)
  else none

/-- Digits after the value `acc`. -/
def asmDigits (base acc : Nat) : List Char → Option Nat
  | [] => some acc
  | c :: rest => (asmDigit base c).bind fun d => asmDigits base (acc * base + d) rest

/-- A number: decimal, or hexadecimal after `0x` (R69). -/
def asmNumber : List Char → Option Nat
  | [] => none
  | '0' :: 'x' :: c :: rest => asmDigits 16 0 (c :: rest)
  | cs => asmDigits 10 0 cs

/-- A number that fits in `w` bits. -/
def asmBits (w : Nat) (cs : List Char) : Option (BitVec w) :=
  (asmNumber cs).bind fun n => if n < 2 ^ w then some (BitVec.ofNat w n) else none

/-- The characters up to the first `c`, and those after it. -/
def asmSplit (c : Char) : List Char → Option (List Char × List Char)
  | [] => none
  | d :: rest => if d = c then some ([], rest) else (asmSplit c rest).map fun p => (d :: p.1, p.2)

/-- An index `[<k>]`, and the characters after it. -/
def asmIndex : List Char → Option (Nat × List Char)
  | '[' :: rest => (asmSplit ']' rest).bind fun p => (asmNumber p.1).map fun k => (k, p.2)
  | _ => none

/-- The scalar registers by name (R44). -/
def asmScalars : List (List Char × Reg) :=
  [(['i', 'd'], .id), (['s', 't', 'a', 't', 'u', 's'], .status), (['c', 'm', 'd'], .cmd),
   (['e', 'r', 'r', 'c', 'o', 'd', 'e'], .errcode), (['e', 'r', 'r', 'i', 'n', 'f', 'o'], .errinfo),
   (['g', 'e', 'n', 'r'], .genr), (['a'], .a), (['b'], .b), (['y'], .y), (['s', 'y', 'n'], .syn),
   (['l', 'k', 'r'], .lkr), (['i', 'n', 'l', 'e', 'n'], .inlen), (['b', 'y', 't', 'e', 'l', 'e', 'n'], .bytelen),
   (['c', 'm', 'a', 's', 'k'], .cmask), (['c', 'c', 'o', 'u', 'n', 't'], .ccount)]

/-- The array element `name[<i>]` or `CPAY[<L>][<k>]` (R12, R69). -/
def asmArrayReg (name idx : List Char) : Option Reg :=
  (asmIndex ('[' :: idx)).bind fun p =>
    if p.2.isEmpty then
      (if name = ['i', 'n', 'b', 'u', 'f'] then some (.inbuf p.1)
       else if name = ['b', 'y', 't', 'e', 'b', 'u', 'f'] then some (.bytebuf p.1)
       else if name = ['c', 'i', 'n', 'f', 'o'] then some (.cinfo p.1)
       else none)
    else if name = ['c', 'p', 'a', 'y'] then
      (asmIndex p.2).bind fun q => if q.2.isEmpty then some (.cpay p.1 q.1) else none
    else none

/-- A register as a program writes it (R69); an element outside its array is no register. -/
def asmReg (cs : List Char) : Option Reg :=
  match asmSplit '[' cs with
  | none => asmScalars.lookup cs
  | some (name, idx) => (asmArrayReg name idx).bind fun r => if r.inRange then some r else none

/-- The commands without operands (R69). -/
def asmFormatZ : List (List Char × Instr) :=
  [(['n', 'o', 'p'], .nop), (['p', 'a', 'd', 'd'], .padd), (['p', 'm', 'u', 'l', 'm'], .pmulm),
   (['p', 'p', 'o', 'w', 'm'], .ppowm), (['p', 'r', 'e', 'm'], .prem), (['d', 'e', 'm', 'o', 'd'], .demod),
   (['f', 's', 'e', 'a', 'r', 'c', 'h'], .fsearch), (['p', 'r', 'o', 'c', 'e', 's', 's'], .process),
   (['c', 'l', 'r', 'e', 'r', 'r'], .clrerr)]

/-- A command as R69 writes it: the mnemonic, then its operands. -/
def asmCommand : List (List Char) → Option Instr
  | [m] => asmFormatZ.lookup m
  | [m, l] => if m = ['s', 'y', 'n', 'd'] then (asmBits 8 l).map fun L => .synd L false else none
  | [m, l, comma, x] =>
    if comma ≠ [','] then none
    else if m = ['s', 'y', 'n', 'd'] then
      (if x = ['i', 'n', 'v'] then (asmBits 8 l).map fun L => .synd L true else none)
    else if m = ['t', 'l', 'o', 'o', 'k', 'u', 'p'] then
      (asmBits 8 l).bind fun L => (asmBits 16 x).map fun s => .tlookup L s
    else none
  | _ => none

/-- `DO <cmd>` (R70); the programs of 95_test_vectors.md also write the command word itself. -/
def asmDo (args : List (List Char)) : Option (List HostOp) :=
  match asmCommand args with
  | some i => some (doCmd i)
  | none =>
    match args with
    | [w] => (asmBits 32 w).map doWord
    | _ => none

/-- The values of a `LOADBITS` or `LOADBYTES`, at most `cap` of them (R70). -/
def asmValues (cap : Nat) (args : List (List Char)) : Option (List Word) :=
  if args.length ≤ cap then args.mapM (asmBits 32) else none

/-- One line (R69, R70). A command on its own is `WR CMD, <word>`. -/
def asmLineTokens : List (List Char) → Option (List HostOp)
  | [] => some []
  | m :: args =>
    if m = ['w', 'r'] then
      match args with
      | [r, comma, v] =>
        if comma = [','] then (asmReg r).bind fun reg => (asmBits 32 v).map fun x => [wr reg x] else none
      | _ => none
    else if m = ['r', 'd'] then
      match args with
      | [r] => (asmReg r).map fun reg => [rd reg]
      | _ => none
    else if m = ['w', 'a', 'i', 't'] then (if args.isEmpty then some [.wait] else none)
    else if m = ['b', 'o', 'o', 't'] then (if args.isEmpty then some [.boot] else none)
    else if m = ['d', 'o'] then asmDo args
    else if m = ['l', 'o', 'a', 'd', 'b', 'i', 't', 's'] then (asmValues Config.inCap args).map loadBits
    else if m = ['l', 'o', 'a', 'd', 'b', 'y', 't', 'e', 's'] then (asmValues Config.maxBytes args).map loadBytes
    else (asmCommand (m :: args)).map fun i => [.write cmdAddr (encode i)]

/-- One line of text (R69, R70). -/
def asmLine (line : List Char) : Option (List HostOp) := asmLineTokens (asmTokens line)

/-- A program: its lines in order; the actions are the host's accesses in program order (R55, R69). -/
def asmProgram : List (List Char) → Option (List HostOp)
  | [] => some []
  | line :: rest => (asmLine line).bind fun ops => (asmProgram rest).map fun more => ops ++ more

end Sys2Proof.Machine
end

