-- ==== Sys2Proof/Tests/Slice0.lean ====
section
/-! SUPPORT. Small tests of the model, each expected value from the spec, and for every statement of Obligations.lean that
has hypotheses a witness that meets them. -/

open Sys2Proof Sys2Proof.Machine Sys2Proof.Spec

namespace Sys2Proof.Tests

-- One theorem after another: waiting for the kernel in parallel takes a thread, and its stack, for each.
set_option Elab.async false

/-! ### Helpers -/

/-- The next state of an outcome. -/
def stateOf : Host.Outcome State Fault Refusal → Option State
  | .next t => some t
  | _ => none

/-- A field of the state one step later. -/
def fieldAfter {α : Type} (f : State → α) (s : State) : Option α := (stateOf (step s)).map f

/-- The engine after a boot, correction enabled, the default generator. -/
def booted : State := { State.reset with phase := .run }

/-- `booted` with bytes in the byte buffer. -/
def withBytes (bytes : List Byte) : State :=
  { booted with mem := Memory.writeList [] 0x200 bytes, bytelen := BitVec.ofNat 5 bytes.length }

/-- `booted` with input entries. -/
def withBits (bits : List Byte) : State :=
  { booted with mem := Memory.writeList [] 0x100 bits, inlen := BitVec.ofNat 8 bits.length }

/-- The host's next action, the engine booted and idle. -/
def hosting (op : HostOp) : State := { booted with hostProgram := [op] }

/-- The smallest search of 95_test_vectors.md §2.5: a valid 5-byte frame and one more byte. -/
def smallest : State := withBytes [0x01, 0x02, 0x03, 0xF3, 0x29, 0xAA]

/-! ### WellFormed: each check refuses an ill-formed term (R65) -/

theorem test_wf_synd_22 : (Instr.synd 22 false).wf = false := by decide
theorem test_wf_synd_1_inv : (Instr.synd 1 true).wf = false := by decide
theorem test_wf_tlookup_4 : (Instr.tlookup 4 0).wf = false := by decide
theorem test_wf_tlookup_22 : (Instr.tlookup 22 0).wf = false := by decide
theorem test_wf_limits : (Instr.synd 0 false).wf && (Instr.synd 2 true).wf && (Instr.synd 21 true).wf &&
    (Instr.tlookup 5 0).wf && (Instr.tlookup 21 0).wf = true := by decide

/-! ### Decoding: words written out bit by bit from R62 and R63 (`o` opcode, `l` length, `i` immediate) -/

theorem test_decode_nop : decode 0b00000000_00000000_00000000_00000000 = .ok .nop := by decide
theorem test_decode_padd : decode 0b00000001_00000000_00000000_00000000 = .ok .padd := by decide
theorem test_decode_pmulm : decode 0b00000010_00000000_00000000_00000000 = .ok .pmulm := by decide
theorem test_decode_ppowm : decode 0b00000011_00000000_00000000_00000000 = .ok .ppowm := by decide
theorem test_decode_prem : decode 0b00000100_00000000_00000000_00000000 = .ok .prem := by decide
theorem test_decode_synd : decode 0b00010000_00001011_00000000_00000001 = .ok (.synd 11 true) := by decide
theorem test_decode_tlookup : decode 0b00010001_00000110_11001101_00110001 = .ok (.tlookup 6 0xCD31) := by decide
theorem test_decode_demod : decode 0b00100000_00000000_00000000_00000000 = .ok .demod := by decide
theorem test_decode_fsearch : decode 0b00100001_00000000_00000000_00000000 = .ok .fsearch := by decide
theorem test_decode_process : decode 0b00100010_00000000_00000000_00000000 = .ok .process := by decide
theorem test_decode_clrerr : decode 0b00110000_00000000_00000000_00000000 = .ok .clrerr := by decide
theorem test_decode_reserved : decode 0xFF160000 = .error .badOpcode := by decide
theorem test_decode_field : decode 0x01000001 = .error .badField := by decide
theorem test_decodeTableWord : decodeTableWord 32 0x11050007 = some (.tlookup 5 7) := by decide

/-! ### One step of each command (expected values from 95_test_vectors.md §2, or by hand from the rule named) -/

theorem test_nop : fieldAfter State.status (booted.withFetchWord 32 0x00000000) = some 0x00000005 := by decide
theorem test_padd :
    fieldAfter State.y ({ booted with a := 0xFFFFFFFF, b := 0x0000FFFF }.withFetchWord 32 0x01000000) =
      some 0xFFFF0000 := by decide +kernel
theorem test_pmulm :
    fieldAfter State.y ({ booted with a := 0xFFFFFFFF, b := 0xFFFFFFFF }.withFetchWord 32 0x02000000) =
      some 0x00001CE5 := by decide +kernel
theorem test_ppowm :
    fieldAfter State.y ({ booted with a := 0xFFFFFFFF, b := 3 }.withFetchWord 32 0x03000000) =
      some 0x00002F5C := by decide +kernel
theorem test_ppowm_zero :
    fieldAfter State.y ({ booted with a := 0, b := 0 }.withFetchWord 32 0x03000000) = some 1 := by decide +kernel
theorem test_prem :
    fieldAfter State.y ({ booted with a := 0xFFFFFFFF, b := 7 }.withFetchWord 32 0x04000000) =
      some 0x00006494 := by decide +kernel
theorem test_synd_inv : fieldAfter State.syn (smallest.withFetchWord 32 0x10050001) = some 0x0000 := by decide +kernel
theorem test_synd : fieldAfter State.syn (smallest.withFetchWord 32 0x10050000) = some 0xFFFF := by decide +kernel
theorem test_tlookup_triple :
    fieldAfter State.lkr (booted.withFetchWord 32 0x11050007) = some 0x83020100 := by decide +kernel
theorem test_tlookup_blacklisted :
    fieldAfter State.lkr ({ booted with lkr := 0 }.withFetchWord 32 0x11050051) = some 0x00FFFFFF := by decide +kernel
theorem test_demod :
    fieldAfter (fun t => (t.mem.read 0x200, t.bytelen, t.short))
      ((withBits [0x80, 0, 1, 0, 0, 1, 0, 1, 0xFF]).withFetchWord 32 0x20000000) =
      some (some 0xA5, 1, true) := by decide +kernel
theorem test_fsearch :
    fieldAfter (fun t => ((t.cinfoAt 5).word, t.mem.read 0x4A2, t.cmask, t.ccount)) (smallest.withFetchWord 32 0x21000000) =
      some (0xC0000000, some 0x03, 0x20, 1) := by decide +kernel
/-- The frame of `smallest` with position 0 flipped: a repaired CRC bit (R104 items 2 and 5). -/
theorem test_fsearch_repairs :
    (withBytes [0x01, 0x02, 0x03, 0xF3, 0x28, 0xAA]).tryFrame 5 = .candidate [0x01, 0x02, 0x03] 1 := by decide +kernel
/-- A short input clears the previous candidates (R97, R101). -/
theorem test_process :
    fieldAfter (fun t => (t.mem.read 0x200, t.bytelen, t.short, t.cmask, t.ccount))
      ({ withBits [0x80, 0, 1, 0, 0, 1, 0, 1, 0xFF] with cmask := 0x20, ccount := 1 }.withFetchWord 32 0x22000000) =
      some (some 0xA5, 1, true, 0, 0) := by decide +kernel
theorem test_clrerr :
    fieldAfter (fun t => (t.status, t.errCode, t.errInfo))
      ({ booted with err := true, errCode := 1, errInfo := 0xFF000000 }.withFetchWord 32 0x30000000) =
      some (0x05, 0, 0) := by decide +kernel

/-! ### Errors, the host's accesses, reset and construction (95_test_vectors.md §2.4, §2.6, §2.7, P6) -/

theorem test_bad_opcode_first :
    fieldAfter (fun t => (t.errCode, t.errInfo)) (booted.withFetchWord 32 0xFF160000) = some (0x01, 0xFF160000) := by
  decide +kernel
theorem test_bad_len :
    fieldAfter (fun t => (t.errCode, t.errInfo)) (booted.withFetchWord 32 0x11160000) = some (0x03, 0x11160000) := by
  decide +kernel
theorem test_busy_write :
    fieldAfter (fun t => (t.errCode, t.errInfo, t.a))
      { hosting (.write 0x008 7) with pending := some 0x01000000, a := 5 } = some (0x04, 0x00000008, 5) := by decide +kernel
theorem test_write_inlen_clamps : fieldAfter State.inlen (hosting (.write 0x010 1000)) = some 189 := by decide +kernel
theorem test_read_id : fieldAfter State.readData (hosting (.read 0x000)) = some 0x43524531 := by decide +kernel
theorem test_read_unmapped : fieldAfter State.readData (hosting (.read 0x7FF)) = some 0 := by decide +kernel
theorem test_reset_status : State.reset.status = 0x00000006 := by decide
theorem test_reset_without_correction : (State.resetWith 0x16F63 false).status = 0x00000002 := by decide
theorem test_construction_collides :
    fieldAfter (fun t => (t.status, t.errCode, t.errInfo)) (State.resetWith 0x10001 true) =
      some (0x34, 0x81, 0x01050001) := by decide +kernel
/-- By hand: with `x^16 = x^12 + x^5 + 1`, the pair {5, 12} repeats {0, 16}, the first pair to repeat one (R91). -/
theorem test_construction_collides_tier2 :
    fieldAfter (fun t => (t.status, t.errCode, t.errInfo)) (State.resetWith 0x11021 true) =
      some (0x34, 0x81, 0x02051020) := by decide +kernel
theorem test_construction_without_correction :
    fieldAfter State.status (State.resetWith 0x10001 false) = some 0x01 := by decide +kernel

/-! ### Memory -/

theorem test_reset_memory_wf : State.reset.mem.wf = true := by decide
theorem test_memory_canonical : Memory.write (Memory.write [] 0x201 5) 0x200 6 = [(0x200, 6), (0x201, 5)] := by decide

/-! ### Assembler (R69, R70) -/

theorem test_asm_synd_inv : asmCommand [['s', 'y', 'n', 'd'], ['1', '1'], [','], ['i', 'n', 'v']] = some (.synd 11 true) := by
  decide +kernel
theorem test_asm_hex : asmNumber ['0', 'x', '1', 'f'] = some 31 := by decide +kernel


/-! ### Witnesses: for every statement with hypotheses, states and operands that meet them -/

/-- The word of the pending `PADD`, the engine's turn. -/
def padding : State := booted.withFetchWord 32 0x01000000

/-- A halted engine, as `TABLE_COLLISION` leaves it. -/
def halted : State := { booted with phase := .halted, err := true, errCode := 0x81, errInfo := 0x01050001 }

theorem witness_OtherGeneratorsAreRefused : (State.resetWith 0x06F63 true).gen.getLsbD 16 = false := by decide

theorem witness_StepRunsThePendingCommand :
    (padding.genOk = true ∧ padding.nextAgent = .engine ∧ padding.phase = .run ∧ padding.pending = some 0x01000000 ∧
      decode 0x01000000 = .ok .padd) ∧ decodeTableWord 32 0x110B5D01 = some (.tlookup 11 0x5D01) := by decide

theorem witness_ConstructionStepBuilds :
    let s := State.resetWith 0x16F63 false
    s.genOk = true ∧ s.phase = .building ∧ s.nextAgent = .engine ∧ s.ecen = false := by decide

theorem witness_ConstructionStepHalts :
    let s := State.resetWith 0x10001 true
    s.genOk = true ∧ s.phase = .building ∧ s.nextAgent = .engine ∧ s.ecen = true ∧ ¬ NoCollision s.gen.toNat 5 ∧
      ∀ L', 5 ≤ L' → L' < 5 → NoCollision s.gen.toNat L' :=
  ⟨by decide, by decide, by decide, by decide, fun h => h.1 0 16 (by decide) (by decide) (by decide),
    fun _ h h' => absurd h (Nat.not_le_of_lt h')⟩

/-- A generator of four terms: `x^0 + x^5` and `x^12 + x^16` have one syndrome, and no two positions have. -/
theorem witness_ConstructionStepHalts_tier2 :
    let s := State.resetWith 0x11021 true
    s.genOk = true ∧ s.phase = .building ∧ s.nextAgent = .engine ∧ s.ecen = true ∧ ¬ NoCollision s.gen.toNat 5 ∧
      tier1Collision s.gen.toNat 5 = none ∧ ∀ L', 5 ≤ L' → L' < 5 → NoCollision s.gen.toNat L' :=
  ⟨by decide, by decide, by decide, by decide,
    fun h => h.2.2 0 5 12 16 (by decide) (by decide) (by decide) (by decide) (by decide) (by decide +kernel),
    by decide +kernel, fun _ h h' => absurd h (Nat.not_le_of_lt h')⟩

theorem witness_DefaultGeneratorHasNoCollision :
    State.reset.gen = 0x16F63 ∧ State.reset.phase = .building ∧ State.reset.nextAgent = .engine := by decide

/-- For the statements about every generator of degree 16 and about states with one. -/
theorem witness_generator : (0x16F63 : BitVec 17).getLsbD 16 = true ∧ booted.genOk = true := by decide

theorem witness_BitSerialReduction : 16 ≤ (0x10000 : Nat).log2 ∧ (0x10000 : Nat) ≠ 0 ∧ (0xFFFF : Nat).log2 < 16 := by
  decide +kernel

theorem witness_PolynomialCommandLaws :
    (0xFFFF : Word).toNat < 2 ^ 16 ∧ (0xFFFFFFFE : Word).toNat + (1 : Word).toNat < 2 ^ 32 := by decide

theorem witness_ResidueIsLinear : ([0x12, 0x34] : List Byte).length = ([0xFF, 0x00] : List Byte).length := rfl

theorem witness_SyndGivesTheResidue :
    (21 : BitVec 8).toNat ≤ 21 ∧ 2 ≤ (2 : BitVec 8).toNat ∧ 21 < (22 : BitVec 8).toNat ∧ (1 : BitVec 8).toNat < 2 ∧
      (0x10000002 : Word).extractLsb' 24 8 = 0x10 ∧ (0x10000002 : Word).extractLsb' 1 15 ≠ 0 := by decide

theorem witness_IllegalWords :
    (0xFF : BitVec 8) ∉ knownOpcodes ∧ (0x01 : BitVec 8) ∈ knownOpcodes ∧
      (0x01000001 : Word).extractLsb' 0 24 ≠ 0 ∧ (0x10160000 : Word).extractLsb' 1 15 = 0 ∧
      21 < ((0x10160000 : Word).extractLsb' 16 8).toNat ∧ ((0x11040000 : Word).extractLsb' 16 8).toNat < 5 := by decide

theorem witness_LookupIsTheUnionOfTheTiers : lengthCollision 0x16F63 5 = none := by decide +kernel

theorem witness_PatternBytes : PatternOf 5 (.three 0 7 39) := by unfold PatternOf ErrPattern.positions; decide

/-- Each kind of answer of a lookup: a miss, and a pattern of one, two and three positions (95_test_vectors.md §2.3). -/
theorem witness_TlookupReportsTheEntry :
    5 ≤ (5 : BitVec 8).toNat ∧ (21 : BitVec 8).toNat ≤ 21 ∧ (4 : BitVec 8).toNat < 5 ∧
      tableLookup 0x16F63 true 5 0x0051 = none ∧ tableLookup 0x16F63 true 5 0x0001 = some (.one 0) ∧
      tableLookup 0x16F63 true 5 0x0003 = some (.two 0 1) ∧
      tableLookup 0x16F63 true 5 0x0007 = some (.three 0 1 2) := by decide +kernel

theorem witness_FsearchTriesEveryLength :
    smallest.genOk = true ∧ smallest.bytelen.toNat ≤ 21 ∧ 5 + 1 ≤ smallest.bytelen.toNat ∧
      (withBytes (List.replicate 21 0)).bytelen.toNat ≤ 21 ∧ booted.bytelen.toNat < 5 + 1 := by decide +kernel

theorem witness_ShortInputGivesNoCandidate :
    (withBits (List.replicate 53 1)).inlen.toNat < 54 ∧ (withBits (List.replicate 44 1)).inlen.toNat < 45 ∧
      ¬ (withBits (List.replicate 45 1)).inlen.toNat < 45 := by decide +kernel

theorem witness_NoStepRecordsInconsistency : padding.errCode ≠ 0x80 ∧ ∃ t, step padding = .next t :=
  ⟨by decide, _, rfl⟩

/-- The frame of `smallest`, received with no error, with one (position 0), with two (0 and 39). -/
theorem witness_FramesWithFewErrorsAreRecovered :
    let F : List Byte := [0x01, 0x02, 0x03, 0xF3, 0x29]
    smallest.genOk = true ∧ F.length = 5 ∧ frameValid smallest.gen.toNat F = true ∧ 5 + 1 ≤ smallest.bytelen.toNat ∧
      smallest.ecen = true ∧ lengthCollision smallest.gen.toNat 5 = none ∧
      (∀ k, k < 5 → smallest.mem.read (0x200 + k) = F[k]?) ∧
      PatternOf 5 (.one 0) ∧ PatternOf 5 (.two 0 39) ∧
      (∀ k, k < 5 → (withBytes [0x01, 0x02, 0x03, 0xF3, 0x28, 0xAA]).mem.read (0x200 + k) =
        (List.zipWith (· ^^^ ·) F (patBytes 5 (.one 0)))[k]?) ∧
      (∀ k, k < 5 → (withBytes [0x81, 0x02, 0x03, 0xF3, 0x28, 0xAA]).mem.read (0x200 + k) =
        (List.zipWith (· ^^^ ·) F (patBytes 5 (.two 0 39)))[k]?) := by
  unfold PatternOf ErrPattern.positions; decide +kernel

/-- The same frame with three errors: a kept triple and a blacklisted one. -/
theorem witness_ThreeErrors :
    let F : List Byte := [0x01, 0x02, 0x03, 0xF3, 0x29]
    frameValid 0x16F63 F = true ∧
      (∀ n, n < 5 → (withBytes [0x01, 0x02, 0x03, 0xF3, 0x2E, 0xAA]).mem.read (0x200 + n) =
        (List.zipWith (· ^^^ ·) F (patBytes 5 (.three 0 1 2)))[n]?) ∧
      syn3 0x16F63 0 1 2 = 7 ∧ tableLookup 0x16F63 true 5 7 = some (.three 0 1 2) ∧
      (∀ n, n < 5 → (withBytes [0x01, 0x02, 0x03, 0xF3, 0x78, 0xAA]).mem.read (0x200 + n) =
        (List.zipWith (· ^^^ ·) F (patBytes 5 (.three 0 4 6)))[n]?) ∧
      syn3 0x16F63 0 4 6 = 0x51 ∧ tableLookup 0x16F63 true 5 0x51 = none := by decide +kernel

/-- The frame of 90_conflicts.md C2 with three errors whose syndrome is the key of a pair. -/
theorem witness_ThreeErrors_lowerKey :
    let F : List Byte := [0x90, 0x16, 0x00, 0x01, 0x00, 0x73, 0x01, 0x36, 0x50, 0x7F, 0x2D]
    let s := withBytes [0x90, 0x16, 0x00, 0x01, 0x00, 0x73, 0x01, 0x36, 0x50, 0x7F, 0x3E, 0x00]
    s.genOk = true ∧ F.length = 11 ∧ frameValid s.gen.toNat F = true ∧ 11 + 1 ≤ s.bytelen.toNat ∧
      s.bytelen.toNat ≤ 21 ∧ s.ecen = true ∧ lengthCollision s.gen.toNat 11 = none ∧
      (∀ n, n < 11 → s.mem.read (0x200 + n) = (List.zipWith (· ^^^ ·) F (patBytes 11 (.three 0 1 4)))[n]?) ∧
      syn3 s.gen.toNat 0 1 4 = 0x13 ∧ tableLookup s.gen.toNat true 11 0x13 = some (.two 16 64) := by decide +kernel

theorem witness_Recorded : (hosting .wait).err = false ∧ halted.err = true := by decide

theorem reset_inv : State.reset.Inv where
  memWf := rfl
  inlenLegal := by decide
  bytelenLegal := by decide
  pendingRuns h := by cases h
  pendingLast _ h := by cases h
  clearReadsZero _ := ⟨rfl, rfl⟩
  recordedCode h := by cases h
  haltedFatal := by decide
  maskValid := by decide +kernel
  countMask := by decide
  infoOk L h5 h21 := by
    have h : ∀ L, L < 22 → State.reset.cinfoAt L = {} := by decide +kernel
    rw [h L (Nat.lt_succ_of_le h21)]
    exact {
      validTried := fun h => (by cases h)
      untriedSynd := fun _ => rfl
      invalidNfix := fun _ => rfl
      threeShort := fun h => absurd h (by decide)
      lastUntried := fun _ => rfl }
  lkrReserved := by decide

theorem halted_inv : halted.Inv :=
  { reset_inv with
    pendingRuns := fun h => by cases h
    pendingLast := fun _ h => by cases h
    clearReadsZero := fun h => by cases h
    recordedCode := fun _ => by decide
    haltedFatal := by decide }

theorem witness_FirstErrorIsKept : halted.err = true ∧ ∃ t, step halted = .next t := ⟨by decide, _, rfl⟩

/-- Each kind of change of phase: by the construction step, both ways, and by reset. -/
theorem witness_PhaseTransitions :
    fieldAfter State.phase (State.resetWith 0x16F63 false) = some .run ∧
      fieldAfter State.phase (State.resetWith 0x10001 true) = some .halted ∧
      fieldAfter State.phase { halted with hostProgram := [.reset true] } = some .building := by decide +kernel

theorem witness_HaltedUntilReset : halted.phase = .halted ∧ ∃ t, step halted = .next t := ⟨rfl, _, rfl⟩

theorem witness_StatusFields : State.reset.Inv ∧ halted.Inv ∧ halted.phase = .halted := ⟨reset_inv, halted_inv, rfl⟩

theorem witness_AddressMap :
    (Reg.inbuf 188).inRange = true ∧ (Reg.cpay 21 31).inRange = true ∧ regAt 0x1BC = some (.inbuf 188) ∧
      regAt 0x6BF = some (.cpay 21 31) ∧ regAt 0x1BD = none ∧ regAt 0x6C0 = none := by decide +kernel

/-- A write of each kind of register, and the conditions under which it is dropped. -/
theorem witness_HostWriteAcceptance :
    HostDoes (hosting (.write 0x002 0)) (.write 0x002 0) [] ∧ regAt 0x002 = some .cmd ∧
      HostDoes { halted with hostProgram := [.write 0x008 1] } (.write 0x008 1) [] ∧ regAt 0x008 = some .a ∧
      HostDoes { State.reset with hostProgram := [.write 0x010 1] } (.write 0x010 1) [] ∧ regAt 0x010 = some .inlen ∧
      HostDoes { hosting (.write 0x200 1) with pending := some 0 } (.write 0x200 1) [] ∧
      regAt 0x200 = some (.bytebuf 0) ∧ regAt 0x100 = some (.inbuf 0) ∧ regAt 0x009 = some .b ∧
      regAt 0x011 = some .bytelen ∧ regAt 0x000 = some .id ∧ (Reg.id).writable = false ∧ regAt 0x006 = none := by
  unfold HostDoes; decide +kernel

theorem witness_HostReads :
    HostDoes (hosting (.read 0x4A3)) (.read 0x4A3) [] ∧ regAt 0x4A3 = some (.cpay 5 3) ∧
      (hosting (.read 0x4A3)).pending = none ∧ (hosting (.read 0x4A3)).phase ≠ .halted ∧
      held booted .lkr = some 0x00FFFFFF ∧ regAt 0x001 = some .status ∧ regAt 0x005 = some .genr := by
  unfold HostDoes; decide +kernel

/-- With `PADD` pending, `SYN` is read exactly; halted on `TABLE_COLLISION`, every register is; halted on `INCONSISTENCY`,
`LKR` still is. -/
theorem witness_ReadIsFixed :
    ReadIsFixed padding .syn ∧ (∀ r, ReadIsFixed halted r) ∧ ReadIsFixed { halted with errCode := 0x80 } .lkr ∧
      HostDoes { padding with hostProgram := [.read 0x00B], turns := [] } (.read 0x00B) [] := by
  refine ⟨⟨fun w h => ?_, fun h => absurd h (by decide)⟩, fun r => ⟨fun _ h => (by cases h), fun _ h => absurd h (by decide)⟩,
    ⟨fun _ h => (by cases h), fun _ _ h => ?_⟩, by unfold HostDoes; decide⟩
  · cases h
    decide
  · simp [SearchLeavesOpen] at h

theorem witness_ReadAfterWrite :
    let s := { booted with hostProgram := [.write 0x010 1000, .read 0x010] }
    Idle s ∧ s.hostProgram = .write 0x010 1000 :: .read 0x010 :: [] ∧ regAt 0x010 = some .inlen := by
  unfold Idle; decide +kernel

theorem witness_ResetFromAnyState :
    HostDoes { halted with hostProgram := [.reset false] } (.reset false) [] := by unfold HostDoes; decide +kernel

theorem witness_WritesLinesAreComplete :
    booted.genOk = true ∧ booted.bytelen.toNat ≤ 21 ∧ stateOf (execute 0x01000000 booted) = some booted ∧
      (Reg.lkr).inRange = true ∧ booted.wordWrites 0x01000000 .lkr = false := by decide +kernel

theorem witness_CommandsLeaveTheirInputs :
    exec .padd booted = .next { booted with y := booted.a ^^^ booted.b } ∧ Instr.padd ≠ .demod ∧ Instr.padd ≠ .process ∧
      Instr.padd ≠ .fsearch := ⟨rfl, by decide, by decide, by decide⟩

theorem witness_RegisterCommandsLeaveTheBuffers :
    exec .nop smallest = .next smallest ∧ Instr.nop ≠ .demod ∧ Instr.nop ≠ .fsearch ∧ Instr.nop ≠ .process :=
  ⟨rfl, by decide, by decide, by decide⟩

/-- `CLRERR` with a field set; a halted engine, and its turn. -/
theorem witness_ControlCommands :
    (0x30000001 : Word).extractLsb' 24 8 = 0x30 ∧ (0x30000001 : Word).extractLsb' 0 24 ≠ 0 ∧
      halted.genOk = true ∧ halted.phase = .halted ∧ halted.nextAgent = .engine := by decide

/-- The default generator with `A = 2`, for `PPOWM`. -/
theorem witness_PpowmRaisesToThePower :
    let s := { booted with a := 2, b := 256 }
    s.genOk = true ∧ s.gen = 0x16F63 ∧ s.a = 2 := by decide

theorem witness_StepKeepsTheInvariant : State.reset.Inv ∧ halted.Inv ∧ ∃ t, step halted = .next t :=
  ⟨reset_inv, halted_inv, _, rfl⟩

theorem witness_DoPerformsTheCommand :
    let s := { booted with hostProgram := doCmd .padd ++ [.boot] }
    Idle s ∧ s.hostProgram = doCmd .padd ++ [.boot] := by unfold Idle; decide

/-- A poll of each kind, one met at once and one that waits for the construction step. -/
theorem witness_PollsTerminate :
    ({ halted with hostProgram := [.wait] } : State).Inv ∧ ({ State.reset with hostProgram := [.boot] } : State).Inv ∧
      halted.genOk = true ∧ halted.turns = [] ∧ State.reset.genOk = true ∧ State.reset.turns = [] :=
  ⟨{ halted_inv with }, { reset_inv with }, by decide⟩

theorem witness_LoadsStoreTheirValues :
    let s := { booted with hostProgram := loadBytes [0x90, 0x16] ++ [.boot] }
    Idle s ∧ ([0x90, 0x16] : List Word).length ≤ 21 ∧ s.hostProgram = loadBytes [0x90, 0x16] ++ [.boot] := by
  unfold Idle; decide

theorem witness_EnginesAreIndependent : ∃ after, platformStep 1 [State.reset, halted] = .next after := ⟨_, rfl⟩

end Sys2Proof.Tests
end

section
/-! PROOFS. The scope: what every command leaves alone (00_scope.md R9), and the generators the model refuses (R6). -/

namespace Sys2Proof.Machine

/-! ### The refused generators -/

/-- A step from a generator of another degree (R6). -/
theorem step_of_not_genOk (s : State) (h : s.genOk = false) : step s = .refused .generatorDegree := by
  rw [step, if_neg (by simp [h])]

/-- Settles O6: bit 16 of `GEN` is what a step tests first. -/
theorem otherGeneratorsAreRefused : Obligations.OtherGeneratorsAreRefused :=
  fun s h => step_of_not_genOk s h

/-! ### The commands that store nothing: only `Y`, `SYN`, `LKR`, the error state and the draw counter can change -/

/-- What every command but `DEMOD`, `FSEARCH` and `PROCESS` leaves alone. -/
structure RegisterFrame (s t : State) : Prop where
  gen : t.gen = s.gen
  phase : t.phase = s.phase
  pending : t.pending = s.pending
  ecen : t.ecen = s.ecen
  lastCmd : t.lastCmd = s.lastCmd
  short : t.short = s.short
  a : t.a = s.a
  b : t.b = s.b
  inlen : t.inlen = s.inlen
  bytelen : t.bytelen = s.bytelen
  cmask : t.cmask = s.cmask
  ccount : t.ccount = s.ccount
  cinfo : t.cinfo = s.cinfo
  mem : t.mem = s.mem
  hostProgram : t.hostProgram = s.hostProgram
  turns : t.turns = s.turns
  readData : t.readData = s.readData

theorem RegisterFrame.refl (s : State) : RegisterFrame s s := by constructor <;> rfl

theorem writeY_registerFrame (s : State) (y : Word) : RegisterFrame s { s with y := y } := by constructor <;> rfl

theorem clearError_registerFrame (s : State) : RegisterFrame s (clearError s) := by constructor <;> rfl

theorem recordError_registerFrame (c : ErrorCode) (info : Word) (s : State) :
    RegisterFrame s (recordError c info s) := by
  constructor <;> simp

/-- `SYND` writes `SYN`, or records `BAD_LEN` (R92, R66). -/
theorem execSynd_registerFrame {len : BitVec 8} {inv : Bool} {s t : State} (h : execSynd len inv s = .next t) :
    RegisterFrame s t := by
  unfold execSynd at h
  split at h
  · cases h; constructor <;> rfl
  · cases h; exact recordError_registerFrame ..

/-- `TLOOKUP` writes `LKR`, or records `BAD_LEN` (R93, R66). -/
theorem execTlookup_registerFrame {len : BitVec 8} {syn : BitVec 16} {s t : State}
    (h : execTlookup len syn s = .next t) : RegisterFrame s t := by
  unfold execTlookup at h
  split at h
  · cases h; constructor <;> rfl
  · cases h; exact recordError_registerFrame ..

/-- What a command can do: leave all but the result registers and the error state alone, or demodulate, search, or both. -/
theorem exec_cases {i : Instr} {s t : State} (h : exec i s = .next t) :
    RegisterFrame s t ∨ (i = .demod ∧ t = demodulate s) ∨ (i = .fsearch ∧ t = frameSearch s) ∨
      (i = .process ∧ t = frameSearch (demodulate s)) := by
  cases i with
  | nop => cases h; exact .inl (.refl s)
  | padd => cases h; exact .inl (writeY_registerFrame ..)
  | pmulm => cases h; exact .inl (writeY_registerFrame ..)
  | ppowm => cases h; exact .inl (writeY_registerFrame ..)
  | prem => cases h; exact .inl (writeY_registerFrame ..)
  | synd len inv => exact .inl (execSynd_registerFrame h)
  | tlookup len syn => exact .inl (execTlookup_registerFrame h)
  | demod => cases h; exact .inr (.inl ⟨rfl, rfl⟩)
  | fsearch => cases h; exact .inr (.inr (.inl ⟨rfl, rfl⟩))
  | process => cases h; exact .inr (.inr (.inr ⟨rfl, rfl⟩))
  | clrerr => cases h; exact .inl (clearError_registerFrame s)

/-! ### The inputs of the engine, which no command changes -/

/-- The generator, the strap latch, the input registers, the input buffer and the host agent's fields are as before. -/
structure InputFrame (s t : State) : Prop where
  gen : t.gen = s.gen
  ecen : t.ecen = s.ecen
  lastCmd : t.lastCmd = s.lastCmd
  a : t.a = s.a
  b : t.b = s.b
  inlen : t.inlen = s.inlen
  inbuf : ∀ k, k < Config.inCap → t.mem.read (inbufAddr k) = s.mem.read (inbufAddr k)
  hostProgram : t.hostProgram = s.hostProgram
  turns : t.turns = s.turns
  readData : t.readData = s.readData

/-- The demodulated bytes lie above the input buffer (R44). -/
theorem demodulate_inbuf (s : State) {k : Nat} (hk : k < Config.inCap) :
    (demodulate s).mem.read (inbufAddr k) = s.mem.read (inbufAddr k) := by
  rw [demodulate_mem, Memory.read_writeList, if_neg]
  unfold Config.inCap at hk; unfold inbufAddr bytebufAddr
  omega

theorem demodulate_inputFrame (s : State) : InputFrame s (demodulate s) :=
  ⟨rfl, rfl, rfl, rfl, rfl, rfl, fun _ => demodulate_inbuf s, rfl, rfl, rfl⟩

theorem RegisterFrame.inputFrame {s t : State} (h : RegisterFrame s t) : InputFrame s t :=
  { h with inbuf := fun _ _ => by rw [h.mem] }

theorem SearchFrame.inputFrame {s t : State} (h : SearchFrame s t) : InputFrame s t :=
  { h with inbuf := fun k hk => h.buffers _ (by unfold Config.inCap at hk; unfold inbufAddr; omega) }

theorem InputFrame.trans {s t u : State} (h : InputFrame s t) (h' : InputFrame t u) : InputFrame s u where
  gen := h'.gen.trans h.gen
  ecen := h'.ecen.trans h.ecen
  lastCmd := h'.lastCmd.trans h.lastCmd
  a := h'.a.trans h.a
  b := h'.b.trans h.b
  inlen := h'.inlen.trans h.inlen
  inbuf k hk := (h'.inbuf k hk).trans (h.inbuf k hk)
  hostProgram := h'.hostProgram.trans h.hostProgram
  turns := h'.turns.trans h.turns
  readData := h'.readData.trans h.readData

/-- No command changes the inputs (R9). -/
theorem exec_inputFrame {i : Instr} {s t : State} (h : exec i s = .next t) : InputFrame s t := by
  obtain hr | ⟨-, rfl⟩ | ⟨-, rfl⟩ | ⟨-, rfl⟩ := exec_cases h
  · exact hr.inputFrame
  · exact demodulate_inputFrame s
  · exact (frameSearch_frame s).inputFrame
  · exact (demodulate_inputFrame s).trans (frameSearch_frame _).inputFrame

/-! ### The byte buffer, which only a demodulation changes -/

/-- The byte buffer, its length and the flag of a short one are as before. -/
structure ByteFrame (s t : State) : Prop where
  bytelen : t.bytelen = s.bytelen
  short : t.short = s.short
  bytebuf : ∀ k, k < Config.maxBytes → t.mem.read (bytebufAddr k) = s.mem.read (bytebufAddr k)

theorem RegisterFrame.byteFrame {s t : State} (h : RegisterFrame s t) : ByteFrame s t :=
  { h with bytebuf := fun _ _ => by rw [h.mem] }

theorem SearchFrame.byteFrame {s t : State} (h : SearchFrame s t) : ByteFrame s t :=
  { h with bytebuf := fun k hk => h.buffers _ (by unfold Config.maxBytes at hk; unfold bytebufAddr; omega) }

/-- No command but `DEMOD` and `PROCESS` changes the byte buffer (R28, R32). -/
theorem exec_byteFrame {i : Instr} {s t : State} (h : exec i s = .next t) (hd : i ≠ .demod) (hp : i ≠ .process) :
    ByteFrame s t := by
  obtain hr | ⟨rfl, -⟩ | ⟨-, rfl⟩ | ⟨rfl, -⟩ := exec_cases h
  · exact hr.byteFrame
  · exact absurd rfl hd
  · exact (frameSearch_frame s).byteFrame
  · exact absurd rfl hp

/-- Settles O45, from what a command can do and the frame of each of its parts. -/
theorem commandsLeaveTheirInputs : Obligations.CommandsLeaveTheirInputs := by
  intro i s t h
  obtain ⟨hgen, hecen, hcmd, ha, hb, hinlen, hinbuf, hprog, hturns, hread⟩ := exec_inputFrame h
  refine ⟨hgen, hecen, hcmd, ha, hb, hinlen, hinbuf, fun hd hp => ?_, hprog, hturns, hread⟩
  obtain ⟨hlen, hshort, hbytes⟩ := exec_byteFrame h hd hp
  exact ⟨hlen, hshort, hbytes⟩

end Sys2Proof.Machine
end

section
/-! PROOFS. The words with fields, bit by bit: `STATUS` (10_state.md R17), `CINFO` (R33), and the reserved bits of `LKR`
(R26). -/

namespace Sys2Proof.Machine

@[simp] theorem getLsbD_bitAt (b : Bool) (i j : Nat) : (bitAt b i).getLsbD j = (b && decide (j = i ∧ j < 32)) := by
  cases b with
  | false => simp [bitAt]
  | true =>
    simp only [bitAt, if_pos, BitVec.getLsbD_shiftLeft, show (1 : Word) = 1#32 from rfl, BitVec.getLsbD_one]
    grind

/-- A field of a word is read bit by bit. -/
theorem extractLsb'_eq_of_getLsbD {w n i : Nat} {x : BitVec w} {v : BitVec n}
    (h : ∀ k, k < n → x.getLsbD (i + k) = v.getLsbD k) : x.extractLsb' i n = v :=
  BitVec.eq_of_getLsbD_eq fun k hk => by simp [hk, h k hk]

/-! ### `STATUS` -/

/-- The six flags of `STATUS`, each at its bit (R17). -/
theorem getLsbD_status (s : State) (i : Nat) : s.status.getLsbD i =
    (s.ready && decide (i = 0) || s.busy && decide (i = 1) || s.ecen && decide (i = 2) || s.short && decide (i = 3) ||
      s.err && decide (i = 4) || s.fatal && decide (i = 5)) := by
  simp only [State.status, BitVec.getLsbD_or, getLsbD_bitAt]
  grind

theorem State.ready_eq (s : State) : s.ready = decide (s.phase = .run) := by simp [State.ready, Bool.beq_eq_decide_eq]

theorem State.fatal_eq (s : State) : s.fatal = decide (s.phase = .halted) := by
  simp [State.fatal, Bool.beq_eq_decide_eq]

theorem State.busy_eq (s : State) : s.busy = decide (s.phase = .building ∨ s.pending ≠ none) := by
  cases hp : s.pending <;> simp [State.busy, hp, Bool.beq_eq_decide_eq]

/-- No command is pending outside of `RUN`, so a halted engine is not busy (R17, R110). -/
theorem State.Inv.not_busy_of_halted {s : State} (hs : s.Inv) (hh : s.phase = .halted) : s.busy = false := by
  have hp : s.pending.isSome = false := Bool.eq_false_iff.2 fun h => by simpa [hh] using hs.pendingRuns h
  simp [State.busy, hh, hp]

/-- Settles O37: each flag is at its bit, and a phase is one of three. -/
theorem statusFields : Obligations.StatusFields := by
  intro s hs
  rw [← s.ready_eq, ← s.busy_eq, ← s.fatal_eq]
  simp only [getLsbD_status]
  refine ⟨by simp, by simp, by simp, by simp, by simp, by simp, fun i hi => ?_, fun ⟨hr, hf⟩ => ?_, fun hh => ?_⟩
  · have : i ≠ 0 ∧ i ≠ 1 ∧ i ≠ 2 ∧ i ≠ 3 ∧ i ≠ 4 ∧ i ≠ 5 := by omega
    simp [this]
  · have hrun : s.phase = .run := by simpa [State.ready_eq] using hr
    simp [State.fatal_eq, hrun] at hf
  · simpa using hs.not_busy_of_halted hh

/-! ### `CINFO` -/

/-- The fields of a `CINFO` word, each at its bits (R33). -/
theorem getLsbD_cinfoWord (c : CInfo) (i : Nat) : c.word.getLsbD i =
    (c.valid && decide (i = 31) || c.tried && decide (i = 30) ||
      decide (24 ≤ i ∧ i < 26) && c.nfix.getLsbD (i - 24) || decide (i < 16) && c.synd.getLsbD i) := by
  simp only [CInfo.word, BitVec.getLsbD_or, getLsbD_bitAt, BitVec.getLsbD_shiftLeft, BitVec.getLsbD_setWidth]
  have hn : 26 ≤ i → c.nfix.getLsbD (i - 24) = false := fun hi => BitVec.getLsbD_of_ge _ _ (by omega)
  have hs : 16 ≤ i → c.synd.getLsbD i = false := fun hi => BitVec.getLsbD_of_ge _ _ hi
  grind

/-- Settles O38: no field reaches another's bits, or a reserved bit. -/
theorem cinfoLayout : Obligations.CinfoLayout := by
  intro c
  refine ⟨?valid, ?tried, extractLsb'_eq_of_getLsbD ?high, extractLsb'_eq_of_getLsbD ?nfix,
    extractLsb'_eq_of_getLsbD ?low, extractLsb'_eq_of_getLsbD ?synd⟩
  all_goals simp only [getLsbD_cinfoWord]
  case valid => simp
  case tried => simp
  case high => grind
  case nfix => grind
  case low => grind
  case synd => grind

/-! ### `LKR` -/

/-- A count of at most 3 reaches no reserved bit of `LKR`, and no position does (R26). -/
theorem lkrFields_reserved {n : Nat} (hn : n < 4) (p2 p1 p0 : BitVec 8) :
    (lkrFields n p2 p1 p0).extractLsb' 26 5 = 0 := by
  refine extractLsb'_eq_of_getLsbD fun k hk => ?_
  have hcount : n.testBit (2 + k) = false :=
    Nat.testBit_lt_two_pow (Nat.lt_of_lt_of_le hn (Nat.pow_le_pow_right (n := 2) (i := 2) (by decide) (by omega)))
  have hp : ∀ (p : BitVec 8) j, 8 ≤ j → p.getLsbD j = false := fun p j hj => BitVec.getLsbD_of_ge _ _ hj
  simp only [lkrFields, BitVec.getLsbD_or, BitVec.getLsbD_shiftLeft, BitVec.getLsbD_setWidth, BitVec.getLsbD_ofNat]
  grind

/-- A pattern flips one, two or three bits (R85). -/
theorem ErrPattern.size_lt (E : ErrPattern) : E.size < 4 := by cases E <;> simp [ErrPattern.size, ErrPattern.positions]

/-- Bits 30:26 of `LKR` read 0 after every lookup (R26, R93). -/
theorem lkrWord_reserved (r : Option ErrPattern) : (lkrWord r).extractLsb' 26 5 = 0 := by
  cases r with
  | none => decide
  | some E => cases E <;> exact lkrFields_reserved (ErrPattern.size_lt _) ..

end Sys2Proof.Machine
end

section
/-! PROOFS. The changes of `PHASE` (10_state.md R35). -/

namespace Sys2Proof.Machine

/-! ### The engine's moves -/

/-- The engine has halted with this fatal error recorded (R110). -/
structure State.HaltedBy (c : FatalCode) (t : State) : Prop where
  phase : t.phase = .halted
  err : t.err = true
  errCode : t.errCode = c.code

theorem recordFatal_haltedBy (c : FatalCode) (info : Word) (s : State) : (recordFatal c info s).HaltedBy c :=
  ⟨rfl, rfl, rfl⟩

/-- A repair that leaves a non-zero residue halts the engine (R98). -/
theorem searchLength_haltedBy {L : Nat} {s : State} (h : s.tryFrame L = .inconsistent) :
    (searchLength L s).HaltedBy .inconsistency := by
  rw [searchLength, h]; exact ⟨rfl, rfl, rfl⟩

/-- Trying a length with any other result keeps the phase (R98). -/
theorem searchLength_phase {L : Nat} {s : State} (h : s.tryFrame L ≠ .inconsistent) :
    (searchLength L s).phase = s.phase := by
  rw [searchLength]
  cases hr : s.tryFrame L with
  | candidate payload nfix => rfl
  | noCandidate => rfl
  | inconsistent => exact absurd hr h

/-- A search keeps the phase, or halts with `INCONSISTENCY` (R100, R111). -/
theorem searchLengths_phase (Ls : List Nat) (s : State) :
    (searchLengths Ls s).phase = s.phase ∨ (searchLengths Ls s).HaltedBy .inconsistency := by
  induction Ls generalizing s with
  | nil => exact .inl rfl
  | cons L rest ih =>
    rw [searchLengths]
    split
    · next hstop => exact .inr (searchLength_haltedBy hstop)
    · next hgo => exact searchLength_phase hgo ▸ ih (searchLength L s)

theorem frameSearch_phase (s : State) :
    (frameSearch s).phase = s.phase ∨ (frameSearch s).HaltedBy .inconsistency :=
  searchLengths_phase _ (clearResults s)

/-- A command keeps the phase, or halts with `INCONSISTENCY` (R108, R110). -/
theorem exec_phase {i : Instr} {s t : State} (h : exec i s = .next t) :
    t.phase = s.phase ∨ t.HaltedBy .inconsistency := by
  obtain hr | ⟨-, rfl⟩ | ⟨-, rfl⟩ | ⟨-, rfl⟩ := exec_cases h
  · exact .inl hr.phase
  · exact .inl rfl
  · exact frameSearch_phase s
  · exact frameSearch_phase (demodulate s)

/-- What the engine's turn does to the phase (R66, R110, R124). -/
theorem engineMove_phase {s t : State} (h : engineMove s = .next t) :
    t.phase = s.phase ∨ (s.phase = .building ∧ (t.phase = .run ∨ t.HaltedBy .tableCollision)) ∨
      (s.phase = .run ∧ t.HaltedBy .inconsistency) := by
  obtain ⟨hp, he⟩ | ⟨hp, he⟩ | ⟨hp, -, he⟩ | ⟨w, i, hp, -, -, he⟩ | ⟨w, e, hp, -, -, he⟩ := engineMove_cases s
  all_goals rw [he] at h
  · cases h
    obtain ⟨-, hb⟩ | ⟨tier, L, syn, -, -, hb⟩ := buildStep_cases s
    · exact .inr (.inl ⟨hp, .inl (by rw [hb])⟩)
    · exact .inr (.inl ⟨hp, .inr (hb ▸ recordFatal_haltedBy ..)⟩)
  · cases h; exact .inl rfl
  · cases h; exact .inl rfl
  · exact (exec_phase h).imp_right fun hf => .inr ⟨hp, hf⟩
  · cases h; exact .inl (recordError_phase ..)

/-! ### The host's moves -/

theorem performWrite_phase (r : Reg) (v : Word) (s : State) : (performWrite r v s).phase = s.phase := by
  cases r <;> rfl

theorem hostWrite_phase (a : Addr) (v : Word) (s : State) : (hostWrite a v s).phase = s.phase := by
  obtain ⟨-, he⟩ | ⟨-, he⟩ | ⟨r, -, -, he⟩ | ⟨r, -, -, -, he⟩ := hostWrite_cases a v s
  all_goals rw [he]
  · exact recordError_phase ..
  · exact performWrite_phase ..

/-- Only a reset among the host's actions changes the phase (R35, R122). -/
theorem hostAct_phase (op : HostOp) (rest : List HostOp) (s : State) :
    (hostAct op rest s).phase = s.phase ∨ ((hostAct op rest s).phase = .building ∧ ∃ ec, op = .reset ec) := by
  cases op with
  | write a v => exact .inl (hostWrite_phase ..)
  | read a => exact .inl rfl
  | wait => left; simp only [hostAct, hostRead_phase]; split <;> rfl
  | boot => left; simp only [hostAct, hostRead_phase]; split <;> rfl
  | reset ec => exact .inr ⟨rfl, ec, rfl⟩

/-- Settles O35, from what each agent's move does to the phase. -/
theorem phaseTransitions : Obligations.PhaseTransitions := by
  refine ⟨fun _ _ => rfl, fun s t h hne => ?_⟩
  obtain ⟨hg, ⟨ha, rfl⟩ | ⟨ha, he⟩⟩ := step_cases s t h
  · obtain ⟨-, hm⟩ | ⟨op, rest, hop, hm⟩ := hostMove_cases s.takeTurn
    all_goals rw [hm] at hne ⊢
    · exact absurd rfl hne
    · obtain hp | ⟨hp, ec, rfl⟩ := hostAct_phase op rest s.takeTurn
      · exact absurd hp hne
      · exact .inr (.inr ⟨hp, ec, rest, hg, ha, hop⟩)
  · obtain hp | ⟨hp, hr | hf⟩ | ⟨hp, hf⟩ := engineMove_phase he
    · exact absurd hp hne
    · exact .inl ⟨hp, .inl hr, ha⟩
    · exact .inl ⟨hp, .inr ⟨hf.phase, hf.errCode⟩, ha⟩
    · exact .inr (.inl ⟨hp, hf.phase, hf.err, .inl hf.errCode, ha⟩)

end Sys2Proof.Machine
end

section
/-! PROOFS. Every step keeps the invariant: what each shared operation, each command and each agent's move does to it. -/

namespace Sys2Proof.Machine

/-! ### An empty `CINFO` -/

/-- `CINFO` after reset and after a search has cleared it (R100, R122). -/
theorem State.cinfoAt_of_cleared {s : State} (h : s.cinfo = Vector.replicate 17 {}) (L : Nat) : s.cinfoAt L = {} := by
  unfold State.cinfoAt
  split
  · rw [h, Vector.getElem?_replicate]; split <;> rfl
  · rfl

theorem CInfo.ok_empty (L : Nat) : ({} : CInfo).Ok L where
  validTried h := by cases h
  untriedSynd _ := rfl
  invalidNfix _ := rfl
  threeShort h := absurd h (by decide)
  lastUntried _ := rfl

/-! ### The error codes (R108) -/

/-- `ERRCODE` is the code of a fatal error. -/
def IsFatalCode (code : BitVec 8) : Prop := code = FatalCode.inconsistency.code ∨ code = FatalCode.tableCollision.code

theorem ErrorCode.code_mem (c : ErrorCode) : c.code ∈ errorCodes := by cases c <;> decide

theorem FatalCode.code_mem (c : FatalCode) : c.code ∈ errorCodes := by cases c <;> decide

theorem FatalCode.code_isFatal (c : FatalCode) : IsFatalCode c.code := by
  cases c
  · exact .inl rfl
  · exact .inr rfl

theorem ErrorCode.code_not_isFatal (c : ErrorCode) : ¬ IsFatalCode c.code := by
  cases c <;> (rw [IsFatalCode]; decide)

theorem zero_not_isFatal : ¬ IsFatalCode 0 := by rw [IsFatalCode]; decide

/-! ### Reset -/

theorem resetWith_inv (gen : BitVec 17) (ec : Bool) : (State.resetWith gen ec).Inv where
  memWf := rfl
  inlenLegal := Nat.zero_le _
  bytelenLegal := Nat.zero_le _
  pendingRuns h := by cases h
  pendingLast _ h := by cases h
  clearReadsZero _ := ⟨rfl, rfl⟩
  recordedCode h := by cases h
  haltedFatal := iff_of_false (by simp [State.resetWith]) zero_not_isFatal
  maskValid L _ := by rw [State.cinfoAt_of_cleared rfl]; simp [State.resetWith]
  countMask := by simp [State.resetWith, popcount]
  infoOk L _ _ := by rw [State.cinfoAt_of_cleared rfl]; exact CInfo.ok_empty L
  lkrReserved := lkrWord_reserved none

/-! ### The shared operations

Where an operation changes no field that the invariant speaks of, or changes one within its rule, the other fields carry
over by definition. -/

section
variable {s : State}

theorem resetEngine_inv (ec : Bool) (s : State) : (resetEngine ec s).Inv := { resetWith_inv s.gen ec with }

theorem State.Inv.takeTurn (hs : s.Inv) : s.takeTurn.Inv := { hs with }

theorem State.Inv.skipDraws (hs : s.Inv) (n : Nat) : (s.skipDraws n).Inv := { hs with }

theorem State.Inv.dropPending (hs : s.Inv) : ({ s with pending := none } : State).Inv :=
  { hs with
    pendingRuns := fun h => by cases h
    pendingLast := fun _ h => by cases h }

/-- While no error is recorded the engine has not halted (R110). -/
theorem State.Inv.not_halted_of_clear (hs : s.Inv) (he : s.err = false) : s.phase ≠ .halted := by
  rw [Ne, hs.haltedFatal, (hs.clearReadsZero he).1]; exact zero_not_isFatal

/-- Recording an error with no fatal code halts nothing (R109). -/
theorem State.Inv.recordError (hs : s.Inv) (c : ErrorCode) (info : Word) : (recordError c info s).Inv := by
  cases he : s.err with
  | true => rwa [recordError_of_err c info s he]
  | false =>
    rw [recordError_of_clear c info s he]
    exact { hs with
      clearReadsZero := fun h => by cases h
      recordedCode := fun _ => c.code_mem
      haltedFatal := iff_of_false (hs.not_halted_of_clear he) c.code_not_isFatal }

theorem State.Inv.recordFatal (hs : s.Inv) (c : FatalCode) (info : Word) : (recordFatal c info s).Inv :=
  { hs.dropPending with
    pendingRuns := fun h => by cases h
    clearReadsZero := fun h => by cases h
    recordedCode := fun _ => c.code_mem
    haltedFatal := iff_of_true rfl c.code_isFatal }

/-- Only an engine that has not halted clears its error (R106, R110). -/
theorem State.Inv.clearError (hs : s.Inv) (hp : s.phase ≠ .halted) : (clearError s).Inv :=
  { hs with
    clearReadsZero := fun _ => ⟨rfl, rfl⟩
    recordedCode := fun h => by cases h
    haltedFatal := iff_of_false hp zero_not_isFatal }

end

/-! ### One result of a search -/

theorem getLsbD_setBit {w : Nat} (m : BitVec w) (L i : Nat) :
    (m ||| ((1 : BitVec w) <<< L)).getLsbD i = (m.getLsbD i || decide (i = L ∧ i < w)) := by
  rw [BitVec.getLsbD_or, BitVec.getLsbD_shiftLeft, show (1 : BitVec w) = 1#w from rfl, BitVec.getLsbD_one]
  grind

theorem countP_range_or_eq (p : Nat → Bool) (L n : Nat) (hp : p L = false) :
    (List.range n).countP (fun i => p i || decide (i = L)) =
      (List.range n).countP p + if L < n then 1 else 0 := by
  induction n with
  | zero => rfl
  | succ n ih =>
    simp only [List.range_succ, List.countP_append, List.countP_singleton, ih]
    grind

/-- A bit that was clear adds one to the count (R30). -/
theorem popcount_setBit {w : Nat} (m : BitVec w) (L : Nat) (hL : L < w) (hm : m.getLsbD L = false) :
    popcount (m ||| ((1 : BitVec w) <<< L)) = popcount m + 1 := by
  have hcount := countP_range_or_eq (fun i => m.getLsbD i) L w hm
  rw [if_pos hL] at hcount
  rw [popcount, popcount, ← hcount]
  exact List.countP_congr fun i hi => by rw [getLsbD_setBit]; simp [List.mem_range.1 hi]

theorem popcount_le {w : Nat} (m : BitVec w) : popcount m ≤ w := by
  simpa [popcount] using List.countP_le_length (p := fun i => m.getLsbD i) (l := List.range w)

section
variable {s : State} {L : Nat}

/-- Storing a length's result, with the mask bit of that length and the count of the mask (R29, R30, R33). -/
theorem State.Inv.storeResult (hs : s.Inv) (h5 : Config.lmin ≤ L) (h21 : L ≤ Config.lmax) {c : CInfo} (hc : c.Ok L)
    {mem : Memory} {cmask : BitVec 22} {ccount : BitVec 5} (hmem : mem.wf = true)
    (hmask : ∀ L', cmask.getLsbD L' = if L' = L then c.valid else s.cmask.getLsbD L')
    (hcount : ccount.toNat = popcount cmask) :
    ({ s with mem := mem, cmask := cmask, ccount := ccount }.setCinfo L c).Inv :=
  { hs with
    memWf := hmem
    maskValid := fun L' hL' => by
      rw [State.cinfoAt_setCinfo _ _ _ _ h5 h21, State.setCinfo_cmask, hmask]
      split
      · subst L'; simp [h5]
      · exact hs.maskValid L' hL'
    countMask := hcount
    infoOk := fun L' h5' h21' => by
      rw [State.cinfoAt_setCinfo _ _ _ _ h5 h21]
      split
      · subst L'; exact hc
      · exact hs.infoOk L' h5' h21' }

theorem triedInfo_ok (syn : BitVec 16) (h21 : L < Config.lmax) : (triedInfo syn).Ok L where
  validTried h := by cases h
  untriedSynd h := by cases h
  invalidNfix _ := rfl
  threeShort h := by cases h
  lastUntried h := absurd h (Nat.ne_of_lt h21)

theorem candidateInfo_ok (syn : BitVec 16) {n : Nat} (h21 : L < Config.lmax)
    (hn : BitVec.ofNat 2 n = 3 → L < Config.l3lim) : (candidateInfo syn n).Ok L where
  validTried _ := rfl
  untriedSynd h := by cases h
  invalidNfix h := by cases h
  threeShort := hn
  lastUntried h := absurd h (Nat.ne_of_lt h21)

/-- A length that gives no candidate keeps its mask bit clear (R33, R100). -/
theorem State.Inv.storeTried (hs : s.Inv) (h5 : Config.lmin ≤ L) (h21 : L < Config.lmax)
    (hfree : s.cmask.getLsbD L = false) (syn : BitVec 16) : (s.setCinfo L (triedInfo syn)).Inv :=
  hs.storeResult h5 (Nat.le_of_lt h21) (triedInfo_ok syn h21) hs.memWf
    (fun L' => by split <;> simp_all [triedInfo]) hs.countMask

/-- A candidate sets the mask bit of its length, which was clear, and is counted (R100). -/
theorem State.Inv.storeCandidate (hs : s.Inv) (h5 : Config.lmin ≤ L) (h21 : L < Config.lmax)
    (hfree : s.cmask.getLsbD L = false) (syn : BitVec 16) {payload : List Byte} (hlen : payload.length = L - 2)
    {n : Nat} (hn : BitVec.ofNat 2 n = 3 → L < Config.l3lim) : (storeCandidate L syn payload n s).Inv := by
  have hL : L < 22 := Nat.lt_of_lt_of_le h21 (by decide)
  refine hs.storeResult h5 (Nat.le_of_lt h21) (candidateInfo_ok syn h21 hn)
    (Memory.writeList_wf _ _ _ hs.memWf fun k hk => ?_) (fun L' => ?_) ?_
  · exact isBufferEntry_cpay h5 (Nat.le_of_lt h21) (by unfold Config.crcBytes; omega)
  · rw [getLsbD_setBit]
    split
    · subst L'; simp [hL, candidateInfo]
    · simp [*]
  · have hcount := popcount_setBit s.cmask L hL hfree
    have hle := popcount_le (s.cmask ||| ((1 : BitVec 22) <<< L))
    rw [BitVec.toNat_add, hs.countMask, hcount]
    exact Nat.mod_eq_of_lt (Nat.lt_of_le_of_lt (hcount ▸ hle) (by decide))

/-- A candidate's payload lacks the CRC bytes, and only a short frame has three bits repaired (R98, R102). -/
theorem State.tryFrame_candidate {payload : List Byte} {n : Nat} (h : s.tryFrame L = .candidate payload n) :
    payload.length = L - 2 ∧ (BitVec.ofNat 2 n = 3 → L < Config.l3lim) := by
  have hslice : (s.trySlice L).length = L := by simp [State.trySlice]
  unfold State.tryFrame at h
  obtain ⟨-, he⟩ | ⟨-, -, he⟩ | ⟨E, -, hE, -, he⟩ | ⟨E, -, -, -, he⟩ :=
    judgeFrame_cases s.g s.ecen L (s.trySlice L) (s.trySyn L)
  all_goals rw [he] at h; cases h
  · exact ⟨by simp [hslice], fun h3 => absurd h3 (by decide)⟩
  · refine ⟨by simp [hslice], fun h3 => ?_⟩
    obtain ⟨-, ⟨i, rfl, -⟩ | ⟨i, j, p, q, rfl, -⟩ | ⟨i, j, k, p, q, r, rfl, hL, -⟩⟩ := tableLookup_cases _ _ _ _ _ hE
    · simp [ErrPattern.size, ErrPattern.positions] at h3
    · simp [ErrPattern.size, ErrPattern.positions] at h3
    · exact hL

/-! ### The search -/

/-- Trying a length that no earlier result has marked keeps the invariant (R98, R100). -/
theorem State.Inv.searchLength (hs : s.Inv) (h5 : Config.lmin ≤ L) (h21 : L < Config.lmax)
    (hfree : s.cmask.getLsbD L = false) : (searchLength L s).Inv := by
  refine State.Inv.skipDraws ?_ L
  cases hr : s.tryFrame L with
  | candidate payload n =>
    obtain ⟨hlen, hn⟩ := State.tryFrame_candidate hr
    exact hs.storeCandidate h5 h21 hfree _ hlen hn
  | noCandidate => exact hs.storeTried h5 h21 hfree _
  | inconsistent => exact hs.recordFatal ..

/-- Trying a length leaves the mask bits of the others alone. -/
theorem searchLength_cmask {L' : Nat} (hne : L' ≠ L) :
    (searchLength L s).cmask.getLsbD L' = s.cmask.getLsbD L' := by
  unfold Machine.searchLength applyTry
  split
  · rw [State.skipDraws_cmask, storeCandidate_cmask, getLsbD_setBit]; simp [hne]
  · rfl
  · rfl

end

/-- Each length is tried once, so each finds its mask bit clear (R99). -/
theorem State.Inv.searchLengths {Ls : List Nat} {s : State} (hs : s.Inv) (hnodup : Ls.Nodup)
    (hL : ∀ L ∈ Ls, Config.lmin ≤ L ∧ L < Config.lmax ∧ s.cmask.getLsbD L = false) : (searchLengths Ls s).Inv := by
  induction Ls generalizing s with
  | nil => exact hs
  | cons L rest ih =>
    obtain ⟨hnot, hrest⟩ := List.nodup_cons.1 hnodup
    obtain ⟨⟨h5, h21, hfree⟩, htail⟩ := List.forall_mem_cons.1 hL
    have hone := hs.searchLength h5 h21 hfree
    rw [Machine.searchLengths]
    split
    · exact hone
    · refine ih hone hrest fun L' hmem => ?_
      obtain ⟨h5', h21', hfree'⟩ := htail L' hmem
      exact ⟨h5', h21', by rw [searchLength_cmask (ne_of_mem_of_not_mem hmem hnot), hfree']⟩

/-- The lengths tried for a buffer of `n` bytes are 5 to `n − 1` (R99). -/
theorem mem_triedLengths (n L : Nat) : L ∈ triedLengths n ↔ Config.lmin ≤ L ∧ L < n := by
  simp only [triedLengths, List.mem_map, List.mem_range]
  exact ⟨by rintro ⟨k, hk, rfl⟩; omega, fun ⟨h5, hn⟩ => ⟨L - Config.lmin, by omega, by omega⟩⟩

theorem nodup_triedLengths (n : Nat) : (triedLengths n).Nodup :=
  List.nodup_range.map fun _ _ h => Nat.add_left_cancel h

section
variable {s : State}

theorem State.Inv.clearResults (hs : s.Inv) : (clearResults s).Inv :=
  { hs with
    memWf := by rw [clearResults_mem]; exact clearPayloads_wf _ _ hs.memWf fun L => (mem_tableLengths L).1
    maskValid := fun L _ => by rw [State.cinfoAt_of_cleared rfl]; simp
    countMask := by rw [clearResults_ccount, clearResults_cmask]; decide
    infoOk := fun L _ _ => by rw [State.cinfoAt_of_cleared rfl]; exact CInfo.ok_empty L }

/-- A search starts from a cleared mask, and `BYTELEN ≤ 21` keeps it from trying `L = 21` (R99). -/
theorem State.Inv.frameSearch (hs : s.Inv) : (frameSearch s).Inv := by
  refine hs.clearResults.searchLengths (nodup_triedLengths _) fun L hL => ?_
  obtain ⟨h5, hlt⟩ := (mem_triedLengths _ L).1 hL
  exact ⟨h5, Nat.lt_of_lt_of_le hlt hs.bytelenLegal, by simp⟩

/-! ### The commands -/

/-- A legal length stays legal in a register of any width. -/
theorem toNat_ofNat_le {w n cap : Nat} (h : n ≤ cap) : (BitVec.ofNat w n).toNat ≤ cap := by
  rw [BitVec.toNat_ofNat]; exact (Nat.mod_le ..).trans h

/-- A demodulation writes at most 21 bytes (R95, R96). -/
theorem State.Inv.demodulate (hs : s.Inv) : (demodulate s).Inv := by
  have hn : s.groupCount ≤ Config.maxBytes := Nat.min_le_left ..
  exact { hs with
    memWf := Memory.writeList_wf _ _ _ hs.memWf fun k hk => by
      have hk : k < Config.maxBytes := Nat.lt_of_lt_of_le (by simpa using hk) hn
      simpa [bytebufAddr] using isBufferEntry_bytebuf hk
    bytelenLegal := toNat_ofNat_le hn }

/-- Every command keeps the invariant; only `CLRERR` asks that the engine has not halted. -/
theorem State.Inv.exec (hs : s.Inv) (hp : s.phase ≠ .halted) {i : Instr} {t : State} (h : exec i s = .next t) :
    t.Inv := by
  cases i with
  | nop => cases h; exact hs
  | padd => cases h; exact { hs with }
  | pmulm => cases h; exact { hs with }
  | ppowm => cases h; exact { hs with }
  | prem => cases h; exact { hs with }
  | synd len inv =>
    simp only [Machine.exec, execSynd] at h
    split at h
    · cases h; exact { hs with }
    · cases h; exact hs.recordError ..
  | tlookup len syn =>
    simp only [Machine.exec, execTlookup] at h
    split at h
    · cases h; exact { hs with lkrReserved := lkrWord_reserved _ }
    · cases h; exact hs.recordError ..
  | demod => cases h; exact hs.demodulate
  | fsearch => cases h; exact hs.frameSearch
  | process => cases h; exact hs.demodulate.frameSearch
  | clrerr => cases h; exact hs.clearError hp

/-! ### The agents' moves -/

/-- The construction step is taken with nothing pending and no fatal error recorded (R124). -/
theorem State.Inv.buildStep (hs : s.Inv) (hp : s.phase = .building) : (buildStep s).Inv := by
  obtain ⟨-, hb⟩ | ⟨tier, L, syn, -, -, hb⟩ := buildStep_cases s
  all_goals rw [hb]
  · exact { hs with
      pendingRuns := fun _ => rfl
      haltedFatal := iff_of_false Phase.noConfusion fun h => by simpa [hp] using hs.haltedFatal.2 h }
  · exact hs.recordFatal ..

theorem State.Inv.engineMove (hs : s.Inv) {t : State} (h : engineMove s = .next t) : t.Inv := by
  obtain ⟨hp, he⟩ | ⟨-, he⟩ | ⟨-, -, he⟩ | ⟨w, i, hp, -, -, he⟩ | ⟨w, e, -, -, -, he⟩ := engineMove_cases s
  all_goals rw [he] at h
  · cases h; exact hs.buildStep hp
  · cases h; exact hs
  · cases h; exact hs
  · exact hs.dropPending.exec (by rw [hp]; decide) h
  · cases h; exact hs.dropPending.recordError ..

/-- A write is clamped to the legal lengths, stays in the buffers, and makes a word pending only in `RUN` (R27, R28,
R52). -/
theorem State.Inv.performWrite (hs : s.Inv) (hp : s.phase = .run) {r : Reg} (hr : r.inRange = true) (v : Word) :
    (performWrite r v s).Inv := by
  obtain ⟨-, he⟩ | ⟨-, he⟩ | ⟨-, he⟩ | ⟨-, he⟩ | ⟨-, he⟩ | ⟨k, rfl, he⟩ | ⟨k, rfl, he⟩ | ⟨-, he⟩ :=
    performWrite_cases r v s
  all_goals rw [he]
  · exact { hs with
      pendingRuns := fun _ => hp
      pendingLast := fun _ h => Option.some.inj h }
  · exact { hs with }
  · exact { hs with }
  · exact { hs with inlenLegal := toNat_ofNat_le (Nat.min_le_right ..) }
  · exact { hs with bytelenLegal := toNat_ofNat_le (Nat.min_le_right ..) }
  · exact { hs with memWf := Memory.write_wf _ _ _ hs.memWf (isBufferEntry_inbuf (of_decide_eq_true hr)) }
  · exact { hs with memWf := Memory.write_wf _ _ _ hs.memWf (isBufferEntry_bytebuf (of_decide_eq_true hr)) }
  · exact hs

theorem State.Inv.hostWrite (hs : s.Inv) (a : Addr) (v : Word) : (hostWrite a v s).Inv := by
  obtain ⟨-, he⟩ | ⟨-, he⟩ | ⟨r, -, -, he⟩ | ⟨r, hr, hp, -, he⟩ := hostWrite_cases a v s
  all_goals rw [he]
  · exact hs
  · exact hs
  · exact hs.recordError ..
  · exact hs.performWrite hp (regAt_inRange a r hr) v

theorem State.Inv.hostRead (hs : s.Inv) (a : Addr) : (hostRead a s).Inv := { hs with }

theorem State.Inv.setProgram (hs : s.Inv) (ops : List HostOp) : ({ s with hostProgram := ops } : State).Inv :=
  { hs with }

theorem State.Inv.hostAct (hs : s.Inv) (op : HostOp) (rest : List HostOp) : (hostAct op rest s).Inv := by
  cases op with
  | write a v => exact (hs.setProgram rest).hostWrite a v
  | read a => exact (hs.setProgram rest).hostRead a
  | wait => exact State.Inv.hostRead (by split <;> [exact hs.setProgram rest; exact hs]) _
  | boot => exact State.Inv.hostRead (by split <;> [exact hs.setProgram rest; exact hs]) _
  | reset ec => exact resetEngine_inv ec _

theorem State.Inv.hostMove (hs : s.Inv) : (hostMove s).Inv := by
  obtain ⟨-, he⟩ | ⟨op, rest, -, he⟩ := hostMove_cases s
  all_goals rw [he]
  · exact hs
  · exact hs.hostAct op rest

end

/-- Settles O48: each agent's move keeps the invariant. -/
theorem stepKeepsTheInvariant : Obligations.StepKeepsTheInvariant := by
  intro s t hs h
  obtain ⟨-, ⟨-, rfl⟩ | ⟨-, he⟩⟩ := step_cases s t h
  · exact hs.takeTurn.hostMove
  · exact hs.takeTurn.engineMove he

end Sys2Proof.Machine
end

section
/-! PROOFS. The address map (20_memory.md R44, R45): registers and mapped addresses name each other, and the other addresses
are the listed ranges. -/

namespace Sys2Proof.Machine

/-! ### The ranges and addresses of the array registers (R14, R44) -/

@[simp] theorem Reg.inRange_inbuf (k : Nat) : (Reg.inbuf k).inRange = true ↔ k < 189 := decide_eq_true_iff

@[simp] theorem Reg.inRange_bytebuf (k : Nat) : (Reg.bytebuf k).inRange = true ↔ k < 21 := decide_eq_true_iff

@[simp] theorem Reg.inRange_cinfo (L : Nat) : (Reg.cinfo L).inRange = true ↔ 5 ≤ L ∧ L ≤ 21 := by
  rw [Reg.inRange, Bool.and_eq_true, decide_eq_true_iff, decide_eq_true_iff]; rfl

@[simp] theorem Reg.inRange_cpay (L k : Nat) : (Reg.cpay L k).inRange = true ↔ 5 ≤ L ∧ L ≤ 21 ∧ k < 32 := by
  rw [Reg.inRange, Bool.and_eq_true, Bool.and_eq_true, decide_eq_true_iff, decide_eq_true_iff, decide_eq_true_iff, and_assoc]
  rfl

/-- An address from `0x100` up is that of its array register, in range or not. -/
theorem addr_arrayAt {n : Nat} (h : 0x100 ≤ n) : (arrayAt n).addr = n := by
  unfold arrayAt
  split_ifs
  all_goals simp only [Reg.addr, inbufAddr, bytebufAddr, cpayAddr]
  all_goals omega

theorem arrayAt_inbuf {k : Nat} (h : k < 0x100) : arrayAt (inbufAddr k) = .inbuf k := by
  rw [inbufAddr, arrayAt, if_pos (by omega), Nat.add_sub_cancel_left]

theorem arrayAt_bytebuf {k : Nat} (h : k < 0x100) : arrayAt (bytebufAddr k) = .bytebuf k := by
  rw [bytebufAddr, arrayAt, if_neg (by omega), if_pos (by omega), Nat.add_sub_cancel_left]

theorem arrayAt_cinfo {L : Nat} (h : L < 0x100) : arrayAt (0x300 + L) = .cinfo L := by
  rw [arrayAt, if_neg (by omega), if_neg (by omega), if_pos (by omega), Nat.add_sub_cancel_left]

theorem arrayAt_cpay {L k : Nat} (h : k < 32) : arrayAt (cpayAddr L k) = .cpay L k := by
  have hL : (0x400 + 32 * L + k - 0x400) / 32 = L := by omega
  have hk : (0x400 + 32 * L + k - 0x400) % 32 = k := by omega
  rw [cpayAddr, arrayAt, if_neg (by omega), if_neg (by omega), if_neg (by omega), hL, hk]

/-! ### The scalars -/

theorem addr_of_scalarAt {n : Nat} {r : Reg} (h : scalarAt n = some r) : r.addr = n := by
  unfold scalarAt at h
  split at h <;> cases h <;> rfl

/-- The gaps between the scalars (R44, R45). -/
theorem scalarAt_eq_none_iff {n : Nat} (h : n < 0x100) : scalarAt n = none ↔
    (0x006 ≤ n ∧ n ≤ 0x007) ∨ (0x00D ≤ n ∧ n ≤ 0x00F) ∨ 0x014 ≤ n := by
  unfold scalarAt
  split
  case h_16 => refine iff_of_true rfl ?_; simp only [imp_false] at *; omega
  all_goals exact iff_of_false (Option.some_ne_none _) (by omega)

/-! ### The map and its inverse -/

theorem regAt_of_scalar {a : Addr} (h : a.toNat < 0x100) : regAt a = scalarAt a.toNat := if_pos h

theorem regAt_of_array {a : Addr} (h : 0x100 ≤ a.toNat) :
    regAt a = if (arrayAt a.toNat).inRange then some (arrayAt a.toNat) else none := if_neg (Nat.not_lt.2 h)

/-- A mapped address is that of the register it names (R44). -/
theorem addr_of_regAt {a : Addr} {r : Reg} (h : regAt a = some r) : r.addr = a.toNat := by
  obtain ha | ha := Nat.lt_or_ge a.toNat 0x100
  · rw [regAt_of_scalar ha] at h; exact addr_of_scalarAt h
  · rw [regAt_of_array ha] at h
    split at h
    · cases h; exact addr_arrayAt ha
    · cases h

theorem Reg.addr_lt {r : Reg} (h : r.inRange = true) : r.addr < 4096 := by
  cases r with
  | inbuf k => rw [inRange_inbuf] at h; simp only [addr, inbufAddr]; omega
  | bytebuf k => rw [inRange_bytebuf] at h; simp only [addr, bytebufAddr]; omega
  | cinfo L => rw [inRange_cinfo] at h; simp only [addr]; omega
  | cpay L k => rw [inRange_cpay] at h; simp only [addr, cpayAddr]; omega
  | _ => decide

/-- An array register in range is the one its address names. -/
theorem regAt_addr_of_array {r : Reg} (hr : r.inRange = true) (h : 0x100 ≤ r.addr) (ha : arrayAt r.addr = r) :
    regAt (BitVec.ofNat 12 r.addr) = some r := by
  have hn : (BitVec.ofNat 12 r.addr).toNat = r.addr := Nat.mod_eq_of_lt (Reg.addr_lt hr)
  rw [regAt_of_array (hn.symm ▸ h), hn, ha, if_pos hr]

/-- A register in range is the one its address names (R44). -/
theorem regAt_addr {r : Reg} (hr : r.inRange = true) : regAt (BitVec.ofNat 12 r.addr) = some r := by
  cases r with
  | inbuf k =>
    exact regAt_addr_of_array hr (Nat.le_add_right ..) (arrayAt_inbuf (by rw [Reg.inRange_inbuf] at hr; omega))
  | bytebuf k =>
    exact regAt_addr_of_array hr (by simp only [Reg.addr, bytebufAddr]; omega)
      (arrayAt_bytebuf (by rw [Reg.inRange_bytebuf] at hr; omega))
  | cinfo L =>
    exact regAt_addr_of_array hr (by simp only [Reg.addr]; omega)
      (arrayAt_cinfo (by rw [Reg.inRange_cinfo] at hr; omega))
  | cpay L k =>
    exact regAt_addr_of_array hr (by simp only [Reg.addr, cpayAddr]; omega)
      (arrayAt_cpay (by rw [Reg.inRange_cpay] at hr; omega))
  | _ => rfl

/-- Each register has its own address (R44). -/
theorem Reg.addr_injective {r r' : Reg} (hr : r.inRange = true) (hr' : r'.inRange = true) (h : r.addr = r'.addr) :
    r = r' :=
  Option.some.inj (by rw [← regAt_addr hr, ← regAt_addr hr', h])

/-- The array addresses that name no register in range. -/
theorem arrayAt_not_inRange_iff {n : Nat} (h : 0x100 ≤ n) : ¬ (arrayAt n).inRange = true ↔
    (0x1BD ≤ n ∧ n ≤ 0x1FF) ∨ (0x215 ≤ n ∧ n ≤ 0x2FF) ∨ (0x300 ≤ n ∧ n ≤ 0x304) ∨ (0x316 ≤ n ∧ n ≤ 0x3FF) ∨
      (0x400 ≤ n ∧ n ≤ 0x49F) ∨ 0x6C0 ≤ n := by
  unfold arrayAt
  split_ifs
  · rw [Reg.inRange_inbuf]; omega
  · rw [Reg.inRange_bytebuf]; omega
  · rw [Reg.inRange_cinfo]; omega
  · rw [Reg.inRange_cpay]; omega

/-- The unmapped addresses (R45). -/
theorem regAt_eq_none_iff (a : Addr) : regAt a = none ↔
    (0x006 ≤ a.toNat ∧ a.toNat ≤ 0x007) ∨ (0x00D ≤ a.toNat ∧ a.toNat ≤ 0x00F) ∨
    (0x014 ≤ a.toNat ∧ a.toNat ≤ 0x0FF) ∨ (0x1BD ≤ a.toNat ∧ a.toNat ≤ 0x1FF) ∨
    (0x215 ≤ a.toNat ∧ a.toNat ≤ 0x2FF) ∨ (0x300 ≤ a.toNat ∧ a.toNat ≤ 0x304) ∨
    (0x316 ≤ a.toNat ∧ a.toNat ≤ 0x3FF) ∨ (0x400 ≤ a.toNat ∧ a.toNat ≤ 0x49F) ∨
    (0x6C0 ≤ a.toNat ∧ a.toNat ≤ 0xFFF) := by
  have hlt : a.toNat < 4096 := a.isLt
  obtain ha | ha := Nat.lt_or_ge a.toNat 0x100
  · rw [regAt_of_scalar ha, scalarAt_eq_none_iff ha]; omega
  · have hnone : regAt a = none ↔ ¬ (arrayAt a.toNat).inRange = true := by simp [regAt_of_array ha]
    rw [hnone, arrayAt_not_inRange_iff ha]; omega

theorem Reg.writable_iff (r : Reg) : r.writable = true ↔ (r = .cmd ∨ r = .a ∨ r = .b ∨ r = .inlen ∨ r = .bytelen ∨
    (∃ k, r = .inbuf k) ∨ ∃ k, r = .bytebuf k) := by
  cases r <;> simp [Reg.writable]

/-! ### Unmapped addresses (R45) -/

theorem State.hostReadValue_of_unmapped {a : Addr} (h : regAt a = none) (s : State) : s.hostReadValue a = 0 := by
  rw [State.hostReadValue, h]

theorem hostWrite_of_unmapped {a : Addr} (h : regAt a = none) (v : Word) (s : State) : hostWrite a v s = s := by
  rw [hostWrite, h]

/-- Settles O39: each register is the one its address names, and a mapped address is its register's. -/
theorem addressMap : Obligations.AddressMap :=
  ⟨rfl, rfl, rfl, rfl, rfl, rfl, rfl, rfl, rfl, rfl, rfl, rfl, rfl, rfl, rfl,
    fun k hk => regAt_addr (r := .inbuf k) (by simpa using hk),
    fun k hk => regAt_addr (r := .bytebuf k) (by simpa using hk),
    fun L h5 h21 => regAt_addr (r := .cinfo L) (by simpa using ⟨h5, h21⟩),
    fun L k h5 h21 hk => regAt_addr (r := .cpay L k) (by simpa using ⟨h5, h21, hk⟩),
    Reg.writable_iff, fun _ hr => ⟨Reg.addr_lt hr, regAt_addr hr⟩,
    fun a r h => ⟨regAt_inRange a r h, addr_of_regAt h⟩, regAt_eq_none_iff,
    fun _ v s h => ⟨s.hostReadValue_of_unmapped h, hostWrite_of_unmapped h v s⟩⟩

end Sys2Proof.Machine
end

section
/-! PROOFS. The host's accesses (20_memory.md R49 to R52, R55): which writes are accepted, what a read returns, a read after
a write. -/

namespace Sys2Proof.Machine
open Sys2Proof.Spec

section
variable {s : State} {a : Addr} {r : Reg} {v : Word} {rest : List HostOp}

/-! ### The host's turn -/

theorem step_of_host {op : HostOp} (h : HostDoes s op rest) : step s = .next (hostAct op rest s.takeTurn) := by
  obtain ⟨hg, ha, hp⟩ := h
  rw [step, if_pos hg, ha]
  simp only [hostMove, State.takeTurn_hostProgram, hp]

theorem step_of_write (h : HostDoes s (.write a v) rest) : step s = .next (hostWrite a v (afterAction s rest)) :=
  step_of_host h

theorem step_of_read (h : HostDoes s (.read a) rest) : step s = .next (hostRead a (afterAction s rest)) :=
  step_of_host h

/-- Where no interleaving is prescribed, the host acts as long as its next action can end (log 6). -/
theorem hostDoes_of_noTurns {op : HostOp} (hg : s.genOk = true) (ht : s.turns = []) (hp : s.hostProgram = op :: rest)
    (hd : s.pollDone op = true) : HostDoes s op rest := by
  refine ⟨hg, ?_, hp⟩
  simp only [State.nextAgent, ht, hp]
  exact if_pos hd

/-! ### A host write by the engine's phase (R49) -/

theorem hostWrite_of_halted (h : s.phase = .halted) : hostWrite a v s = s := by
  unfold hostWrite
  cases regAt a with
  | none => rfl
  | some r => simp only [h]

theorem hostWrite_of_busy (hr : regAt a = some r) (h : s.phase = .building ∨ (s.phase = .run ∧ s.pending ≠ none)) :
    hostWrite a v s = recordError .busyWrite (a.setWidth 32) s := by
  unfold hostWrite
  obtain hb | ⟨hrun, hq⟩ := h
  · simp only [hr, hb]
  · simp only [hr, hrun]
    exact if_pos (Option.isSome_iff_ne_none.2 hq)

theorem hostWrite_of_idle (hr : regAt a = some r) (h : s.phase = .run) (hq : s.pending = none) :
    hostWrite a v s = performWrite r v s := by
  simp [hostWrite, hr, h, hq]

theorem recordError_recorded (c : ErrorCode) (info : Word) (s : State) :
    Recorded c.code info s (recordError c info s) :=
  ⟨recordError_of_err c info s, recordError_of_clear c info s⟩

/-- A read-only register ignores a write (R50). -/
theorem performWrite_of_readOnly (h : r.writable = false) : performWrite r v s = s := by
  cases r with
  | cmd => cases h
  | a => cases h
  | b => cases h
  | inlen => cases h
  | bytelen => cases h
  | inbuf k => cases h
  | bytebuf k => cases h
  | _ => rfl

/-- A clamped value fits its register (R27, R28). -/
theorem toNat_ofNat_min {w cap : Nat} (n : Nat) (h : cap < 2 ^ w) : (BitVec.ofNat w (min n cap)).toNat = min n cap := by
  rw [BitVec.toNat_ofNat]
  exact Nat.mod_eq_of_lt (Nat.lt_of_le_of_lt (Nat.min_le_right ..) h)

/-- A write to a buffer entry stores its low byte at the write's own address, and no other entry (R31, R32). -/
theorem performWrite_entry {k : Nat} (hr : regAt a = some r) (h : r = .inbuf k ∨ r = .bytebuf k) :
    performWrite r v s = { s with mem := s.mem.write a.toNat (v.setWidth 8) } := by
  rw [← addr_of_regAt hr]
  obtain rfl | rfl := h <;> rfl

end

/-- Settles O40, from the effect of a write in each phase. -/
theorem hostWriteAcceptance : Obligations.HostWriteAcceptance := by
  intro s a v rest hdo
  rw [step_of_write hdo]
  refine ⟨fun hr => by rw [hostWrite_of_unmapped hr], fun r hr => ⟨fun hh => ?_, fun hb => ?_, fun hrun hq => ?_⟩⟩
  · rw [hostWrite_of_halted (s := afterAction s rest) hh]
  · exact ⟨_, rfl, hostWrite_of_busy (s := afterAction s rest) hr hb ▸ recordError_recorded ..⟩
  · rw [hostWrite_of_idle (s := afterAction s rest) hr hrun hq]
    refine ⟨?cmd, ?a, ?b, ?inlen, ?bytelen, fun k hk => ?entry, fun h => by rw [performWrite_of_readOnly h]⟩
    case cmd => rintro rfl; rfl
    case a => rintro rfl; rfl
    case b => rintro rfl; rfl
    case inlen => rintro rfl; exact ⟨_, toNat_ofNat_min v.toNat (by decide), rfl⟩
    case bytelen => rintro rfl; exact ⟨_, toNat_ofNat_min v.toNat (by decide), rfl⟩
    case entry =>
      rw [performWrite_entry hr hk]
      exact ⟨_, rfl, Memory.read_write_same .., fun _ => Memory.read_write_other _ _⟩

section
variable {s : State} {a : Addr} {r : Reg} {v : Word} {rest : List HostOp}

/-! ### What a read returns (R51) -/

theorem readsDraw_of_alwaysExact (h : r.alwaysExact = true) : s.readsDraw r = false := by
  simp [State.readsDraw, h]

/-- Exactly the registers that a failed search leaves open read a draw after it. -/
theorem lostInFatal_iff (r : Reg) : r.lostInFatal = true ↔ SearchLeavesOpen r := by
  cases r <;> simp [Reg.lostInFatal, Reg.searchResult, SearchLeavesOpen]

/-- A read is exact where neither exception of R51 applies. -/
theorem readsDraw_of_readIsFixed (h : ReadIsFixed s r) : s.readsDraw r = false := by
  obtain ⟨hpending, hhalted⟩ := h
  have hlost : (s.phase == .halted && s.errCode == FatalCode.inconsistency.code && r.lostInFatal) = false := by
    refine Bool.eq_false_iff.2 fun h => ?_
    simp only [Bool.and_eq_true, beq_iff_eq, lostInFatal_iff] at h
    obtain ⟨⟨hp, hc⟩, hl⟩ := h
    exact hhalted hp hc hl
  unfold State.readsDraw
  rw [hlost]
  cases hq : s.pending with
  | none => simp
  | some w => simp [hpending w hq]

theorem hostReadValue_of_exact (hr : regAt a = some r) (h : s.readsDraw r = false) :
    s.hostReadValue a = s.regValue r := by
  simp [State.hostReadValue, hr, h]

theorem hostReadValue_of_alwaysExact (hr : regAt a = some r) (h : r.alwaysExact = true) :
    s.hostReadValue a = s.regValue r :=
  hostReadValue_of_exact hr (readsDraw_of_alwaysExact h)

/-- The part of `CPAY[L]` from `L − 2` up (R34). -/
theorem regValue_cpay_dead {L k : Nat} (h : L - 2 ≤ k) : s.regValue (.cpay L k) = 0 :=
  if_neg (by unfold Config.crcBytes; omega)

theorem regValue_cpay_live {L k : Nat} (h : k < L - 2) :
    s.regValue (.cpay L k) = (s.readEntry (cpayAddr L k) 0).setWidth 32 :=
  if_pos (by unfold Config.crcBytes; omega)

/-- An entry that holds a byte is read as that byte (R39). -/
theorem readEntry_of_held {n : Nat} {x : Word} (h : (s.mem.read n).map (fun v => v.setWidth 32) = some x) :
    (s.readEntry n 0).setWidth 32 = x := by
  obtain ⟨b, hb, rfl⟩ := Option.map_eq_some_iff.1 h
  rw [State.readEntry_of_written _ _ _ _ hb]

/-- The content of a register is its value; of `CPAY[L]`, below `L − 2`. -/
theorem regValue_of_held {x : Word} (hlive : ∀ L k, r = .cpay L k → k < L - 2) (h : held s r = some x) :
    s.regValue r = x := by
  cases r with
  | inbuf k => exact readEntry_of_held h
  | bytebuf k => exact readEntry_of_held h
  | cpay L k => rw [regValue_cpay_live (hlive L k rfl)]; exact readEntry_of_held h
  | _ => exact Option.some.inj h

end

/-- Settles O41: where a read takes no draw it returns the register's value. -/
theorem hostReads : Obligations.HostReads := by
  intro s a rest hdo
  refine ⟨s.hostReadValue a, s.drawCount + 1, step_of_read hdo, fun h => hostReadValue_of_alwaysExact h rfl,
    fun h => hostReadValue_of_alwaysExact h rfl, fun h => hostReadValue_of_alwaysExact h rfl,
    fun h => hostReadValue_of_alwaysExact h rfl, fun h => hostReadValue_of_alwaysExact h rfl,
    fun h => hostReadValue_of_alwaysExact h rfl, fun r hr hfixed => ?_⟩
  rw [hostReadValue_of_exact hr (readsDraw_of_readIsFixed hfixed)]
  refine ⟨?_, fun hlive x hx => regValue_of_held hlive hx⟩
  rintro L k rfl hk
  exact regValue_cpay_dead hk

section
variable {s : State} {a : Addr} {r r' : Reg} {v : Word} {rest : List HostOp}

/-! ### A performed write, and the registers it leaves alone (R52) -/

theorem performWrite_genOk (r : Reg) (v : Word) (s : State) : (performWrite r v s).genOk = s.genOk := by
  cases r <;> rfl

theorem performWrite_turns (r : Reg) (v : Word) (s : State) : (performWrite r v s).turns = s.turns := by
  cases r <;> rfl

theorem performWrite_hostProgram (r : Reg) (v : Word) (s : State) :
    (performWrite r v s).hostProgram = s.hostProgram := by
  cases r <;> rfl

/-- Only a `CMD` write makes a command pending (R52). -/
theorem performWrite_pending (h : r ≠ .cmd) : (performWrite r v s).pending = s.pending := by
  cases r with
  | cmd => exact absurd rfl h
  | _ => rfl

/-- After a performed write its register is read exactly: `CMD` always is, and after another one nothing is pending. -/
theorem readsDraw_performWrite (hp : s.phase = .run) (hq : s.pending = none) :
    (performWrite r v s).readsDraw r = false := by
  by_cases hc : r = .cmd
  · exact hc ▸ readsDraw_of_alwaysExact rfl
  · refine readsDraw_of_readIsFixed ⟨fun w hw => ?_, fun hh => ?_⟩
    · rw [performWrite_pending hc, hq] at hw; cases hw
    · rw [performWrite_phase, hp] at hh; cases hh

/-- A write to one buffer entry leaves what every other register holds. -/
theorem held_writeEntry {b : Byte} (hr : r.inRange = true) (hr' : r'.inRange = true) (hne : r' ≠ r) :
    held { s with mem := s.mem.write r.addr b } r' = held s r' := by
  have haddr : r'.addr ≠ r.addr := mt (Reg.addr_injective hr' hr) hne
  have hread : ((s.mem.write r.addr b).read r'.addr).map (fun v => v.setWidth 32) =
      (s.mem.read r'.addr).map fun v => v.setWidth 32 := by rw [Memory.read_write_other s.mem b haddr]
  cases r' with
  | inbuf k => exact hread
  | bytebuf k => exact hread
  | cpay L k => exact hread
  | _ => rfl

/-- A performed write leaves what every other register holds, but for `STATUS` after a `CMD` write (R52). -/
theorem held_performWrite (hr : r.inRange = true) (hr' : r'.inRange = true) (hne : r' ≠ r) :
    held (performWrite r v s) r' = held s r' ∨ (r = .cmd ∧ r' = .status) := by
  cases r with
  | cmd =>
    cases r' with
    | cmd => exact absurd rfl hne
    | status => exact .inr ⟨rfl, rfl⟩
    | _ => exact .inl rfl
  | a =>
    cases r' with
    | a => exact absurd rfl hne
    | _ => exact .inl rfl
  | b =>
    cases r' with
    | b => exact absurd rfl hne
    | _ => exact .inl rfl
  | inlen =>
    cases r' with
    | inlen => exact absurd rfl hne
    | _ => exact .inl rfl
  | bytelen =>
    cases r' with
    | bytelen => exact absurd rfl hne
    | _ => exact .inl rfl
  | inbuf k => exact .inl (held_writeEntry hr hr' hne)
  | bytebuf k => exact .inl (held_writeEntry hr hr' hne)
  | _ => exact .inl rfl

/-! ### The value of a register after a write to it -/

theorem toNat_regValue_inlen (s : State) : (s.regValue .inlen).toNat = s.inlen.toNat :=
  BitVec.toNat_setWidth_of_le (by decide)

theorem toNat_regValue_bytelen (s : State) : (s.regValue .bytelen).toNat = s.bytelen.toNat :=
  BitVec.toNat_setWidth_of_le (by decide)

/-- A buffer entry reads the low byte of the word written (R31, R32). -/
theorem regValue_performWrite_entry {k : Nat} (h : r = .inbuf k ∨ r = .bytebuf k) :
    ((performWrite r v s).regValue r).toNat = v.toNat % 256 := by
  have hread (n : Nat) : (({ s with mem := s.mem.write n (v.setWidth 8) } : State).readEntry n 0).setWidth 32 =
      (v.setWidth 8).setWidth 32 := by
    rw [State.readEntry_of_written _ _ _ _ (Memory.read_write_same ..)]
  have hval : (performWrite r v s).regValue r = (v.setWidth 8).setWidth 32 := by
    obtain rfl | rfl := h <;> exact hread _
  rw [hval, BitVec.toNat_setWidth_of_le (by decide), BitVec.toNat_setWidth]

/-! ### Two accesses of an idle engine in a row -/

theorem hostDoes_of_idle {op : HostOp} (h : Idle s) (hp : s.hostProgram = op :: rest) (hd : s.pollDone op = true) :
    HostDoes s op rest := by
  obtain ⟨hg, -, -, ht⟩ := h
  exact hostDoes_of_noTurns hg ht hp hd

/-- An accepted write to an idle engine is performed, and the host's next access follows (log 6). -/
theorem step_write_of_idle (hs : Idle s) (hp : s.hostProgram = .write a v :: rest) (hr : regAt a = some r) :
    step s = .next (performWrite r v (afterAction s rest)) := by
  rw [step_of_write (hostDoes_of_idle hs hp rfl)]
  obtain ⟨-, hrun, hq, -⟩ := hs
  rw [hostWrite_of_idle (s := afterAction s rest) hr hrun hq]

/-- The read that follows a performed write returns the value of the register written. -/
theorem step_read_of_performWrite (hs : Idle s) (hr : regAt a = some r) :
    ∃ u, step (performWrite r v (afterAction s (.read a :: rest))) = .next u ∧ u.hostProgram = rest ∧
      u.readData = (performWrite r v (afterAction s (.read a :: rest))).regValue r := by
  obtain ⟨hg, hrun, hq, ht⟩ := hs
  have hdo : HostDoes (performWrite r v (afterAction s (.read a :: rest))) (.read a) rest := by
    refine hostDoes_of_noTurns ?_ ?_ ?_ rfl
    · rw [performWrite_genOk]; exact hg
    · rw [performWrite_turns, afterAction, ht]; rfl
    · rw [performWrite_hostProgram]; rfl
  exact ⟨_, step_of_read hdo, rfl,
    hostReadValue_of_exact hr (readsDraw_performWrite (s := afterAction s (.read a :: rest)) hrun hq)⟩

/-- The host agent's fields are no register's. -/
theorem held_afterAction (s : State) (rest : List HostOp) (r : Reg) : held (afterAction s rest) r = held s r := by
  cases r <;> rfl

end

/-- Settles O42: the read returns the value that the write left in its register. -/
theorem readAfterWrite : Obligations.ReadAfterWrite := by
  intro s a v r rest hs hp hr
  obtain ⟨u, hstep, hprog, hread⟩ := step_read_of_performWrite (v := v) (rest := rest) hs hr
  refine ⟨_, u, step_write_of_idle hs hp hr, hstep, hprog, ?_⟩
  rw [hread]
  refine ⟨?_, ?_, ?_, fun k hk => regValue_performWrite_entry hk, fun r' hr' hne => ?_⟩
  · rintro (rfl | rfl | rfl) <;> rfl
  · rintro rfl; rw [toNat_regValue_inlen]; exact toNat_ofNat_min _ (by decide)
  · rintro rfl; rw [toNat_regValue_bytelen]; exact toNat_ofNat_min _ (by decide)
  · rw [← held_afterAction s (.read a :: rest) r']
    exact held_performWrite (regAt_inRange a r hr) hr' hne

end Sys2Proof.Machine
end

section
/-! PROOFS. The command word (30_encoding.md R60 to R63): what the decoder answers, that the encoder is its inverse, and
the rows of the opcode table. -/

namespace Sys2Proof
open Sys2Proof.Spec

/-! ### A word by its fields (R61) -/

theorem mkWord_inj {o l o' l' : BitVec 8} {m m' : BitVec 16} :
    mkWord o l m = mkWord o' l' m' ↔ o = o' ∧ l = l' ∧ m = m' := by
  refine ⟨fun h => ⟨?_, ?_, ?_⟩, by rintro ⟨rfl, rfl, rfl⟩; rfl⟩
  · simpa only [opcField_mkWord] using congrArg opcField h
  · simpa only [lenField_mkWord] using congrArg lenField h
  · simpa only [immField_mkWord] using congrArg immField h

/-- A word is known by its fields. -/
theorem mkWord_eq_iff {o l : BitVec 8} {m : BitVec 16} {w : Word} :
    mkWord o l m = w ↔ o = opcField w ∧ l = lenField w ∧ m = immField w := by
  rw [← mkWord_inj, mkWord_fields]

theorem mkWord_and (o l o' l' : BitVec 8) (m m' : BitVec 16) :
    mkWord o l m &&& mkWord o' l' m' = mkWord (o &&& o') (l &&& l') (m &&& m') :=
  BitVec.and_append.trans (congrArg (· ++ (m &&& m')) BitVec.and_append)

/-- The must-be-zero bits of format Z are the length and the immediate (R62). -/
theorem low24_eq_zero_iff (w : Word) : w.extractLsb' 0 24 = 0 ↔ lenField w = 0 ∧ immField w = 0 := by
  simp only [lenField, immField, BitVec.toNat_eq, BitVec.extractLsb'_toNat, Nat.shiftRight_eq_div_pow,
    BitVec.ofNat_eq_ofNat, BitVec.toNat_ofNat]
  omega

theorem extractLsb'_immField (w : Word) : (immField w).extractLsb' 1 15 = w.extractLsb' 1 15 := by
  simp only [immField, BitVec.toNat_eq, BitVec.extractLsb'_toNat, Nat.shiftRight_eq_div_pow]
  omega

theorem getLsbD_zero_immField (w : Word) : (immField w).getLsbD 0 = w.getLsbD 0 := by simp [immField]

/-- An immediate with bits 15:1 clear is its bit `INV` (R62). -/
theorem eq_inv_iff (m : BitVec 16) : (m = if m.getLsbD 0 then 1 else 0) ↔ m.extractLsb' 1 15 = 0 := by
  simp only [BitVec.toNat_eq, BitVec.extractLsb'_toNat, Nat.shiftRight_eq_div_pow, BitVec.getLsbD, Nat.testBit_zero,
    decide_eq_true_eq, apply_ite BitVec.toNat, BitVec.ofNat_eq_ofNat, BitVec.toNat_ofNat]
  split <;> omega

/-! ### What the decoder answers (R63, R66) -/

/-- The commands without operands (R62, R63). -/
def formatZCommands : List Instr := [.nop, .padd, .pmulm, .ppowm, .prem, .demod, .fsearch, .process, .clrerr]

/-- A command without operands has no length to be out of range (R65). -/
theorem wf_formatZ : ∀ i ∈ formatZCommands, i.wf = true := by decide

theorem encode_formatZ : ∀ i ∈ formatZCommands, encode i = mkWord i.opcode 0 0 := by decide

/-- Every known opcode is one of format Z, of `SYND` or of `TLOOKUP` (R63). -/
theorem knownOpcodes_cases :
    ∀ o ∈ knownOpcodes, (∃ i ∈ formatZCommands, o = i.opcode) ∨ o = 0x10 ∨ o = 0x11 := by decide

theorem Instr.format_cases (i : Instr) :
    i ∈ formatZCommands ∨ (∃ len inv, i = .synd len inv) ∨ ∃ len s, i = .tlookup len s := by
  cases i with
  | synd len inv => exact .inr (.inl ⟨len, inv, rfl⟩)
  | tlookup len s => exact .inr (.inr ⟨len, s, rfl⟩)
  | _ => exact .inl (by decide)

section
variable {w : Word} {i : Instr}

theorem decode_of_unknown (h : opcField w ∉ knownOpcodes) : decode w = .error .badOpcode := by
  have hne {n : Nat} (hn : BitVec.ofNat 8 n ∈ knownOpcodes) : (opcField w).toNat ≠ n := by
    rintro rfl; rw [BitVec.ofNat_toNat, BitVec.setWidth_eq] at hn; exact h hn
  unfold decode
  split
  case h_12 => rfl
  all_goals next he => exact absurd he (hne (by decide))

theorem decode_of_formatZ (hi : i ∈ formatZCommands) (h : opcField w = i.opcode) : decode w = formatZ w i := by
  rw [decode, h]
  simp only [formatZCommands, List.mem_cons, List.not_mem_nil, or_false] at hi
  obtain rfl | rfl | rfl | rfl | rfl | rfl | rfl | rfl | rfl := hi <;> rfl

theorem decode_of_synd (h : opcField w = 0x10) : decode w = formatS w .synd := by rw [decode, h]; rfl

theorem decode_of_tlookup (h : opcField w = 0x11) : decode w = formatT w .tlookup := by rw [decode, h]; rfl

/-- Every answer of the decoder: no opcode of the map, or the check of the opcode's format. -/
theorem decode_cases (w : Word) :
    (opcField w ∉ knownOpcodes ∧ decode w = .error .badOpcode) ∨
    (∃ i ∈ formatZCommands, opcField w = i.opcode ∧ decode w = formatZ w i) ∨
    (opcField w = 0x10 ∧ decode w = formatS w .synd) ∨
    (opcField w = 0x11 ∧ decode w = formatT w .tlookup) := by
  by_cases hk : opcField w ∈ knownOpcodes
  · obtain ⟨i, hi, h⟩ | h | h := knownOpcodes_cases _ hk
    · exact .inr (.inl ⟨i, hi, h, decode_of_formatZ hi h⟩)
    · exact .inr (.inr (.inl ⟨h, decode_of_synd h⟩))
    · exact .inr (.inr (.inr ⟨h, decode_of_tlookup h⟩))
  · exact .inl ⟨hk, decode_of_unknown hk⟩

theorem formatZ_eq_ok_iff {j : Instr} : formatZ w j = .ok i ↔ (lenField w = 0 ∧ immField w = 0) ∧ j = i := by
  rw [← low24_eq_zero_iff, formatZ]
  by_cases h : w.extractLsb' 0 24 = 0
  · rw [if_pos h]; simp [h]
  · rw [if_neg h]; exact iff_of_false nofun fun hz => h hz.1

theorem formatS_eq_ok_iff {f : BitVec 8 → Bool → Instr} : formatS w f = .ok i ↔
    (immField w = if (immField w).getLsbD 0 then 1 else 0) ∧ f (lenField w) ((immField w).getLsbD 0) = i := by
  rw [eq_inv_iff, formatS]
  by_cases h : (immField w).extractLsb' 1 15 = 0
  · rw [if_pos h]; simp [h]
  · rw [if_neg h]; exact iff_of_false nofun fun hs => h hs.1

theorem formatT_eq_ok_iff {f : BitVec 8 → BitVec 16 → Instr} :
    formatT w f = .ok i ↔ f (lenField w) (immField w) = i := by
  rw [formatT, Except.ok.injEq]

/-! ### Decode and encode -/

theorem decode_encode (i : Instr) : decode (encode i) = .ok i := by
  obtain hi | ⟨len, inv, rfl⟩ | ⟨len, s, rfl⟩ := i.format_cases
  · rw [encode_formatZ i hi, decode_of_formatZ hi (opcField_mkWord ..)]
    exact formatZ_eq_ok_iff.2 ⟨⟨lenField_mkWord .., immField_mkWord ..⟩, rfl⟩
  · rw [encode, Instr.opcode, decode_of_synd (opcField_mkWord ..), formatS_eq_ok_iff, lenField_mkWord, immField_mkWord]
    cases inv <;> exact ⟨rfl, rfl⟩
  · rw [encode, Instr.opcode, decode_of_tlookup (opcField_mkWord ..), formatT_eq_ok_iff, lenField_mkWord,
      immField_mkWord]

theorem encode_of_decode (h : decode w = .ok i) : encode i = w := by
  obtain ⟨-, he⟩ | ⟨j, hj, ho, he⟩ | ⟨ho, he⟩ | ⟨ho, he⟩ := decode_cases w
  all_goals rw [he] at h
  · cases h
  · obtain ⟨⟨hl, hm⟩, rfl⟩ := formatZ_eq_ok_iff.1 h
    rw [encode_formatZ j hj, mkWord_eq_iff]
    exact ⟨ho.symm, hl.symm, hm.symm⟩
  · obtain ⟨hm, rfl⟩ := formatS_eq_ok_iff.1 h
    rw [encode, mkWord_eq_iff]
    exact ⟨ho.symm, rfl, hm.symm⟩
  · obtain rfl := formatT_eq_ok_iff.1 h
    rw [encode, mkWord_eq_iff]
    exact ⟨ho.symm, rfl, rfl⟩

end

/-- Settles O2: the decoder of each format takes apart what the encoder puts together. -/
theorem decodeAndEncodeAgree : Obligations.DecodeAndEncodeAgree := ⟨decode_encode, fun _ _ => encode_of_decode⟩

/-- Settles O1: closed words, each by evaluation. -/
theorem decodesWordsOfTheFormats : Obligations.DecodesWordsOfTheFormats := by
  rw [Obligations.DecodesWordsOfTheFormats]; decide

/-! ### The rows of the opcode table -/

/-- The row of a command without operands: its one word (R62). -/
def formatZRow (i : Instr) : OpRow := ⟨i.mnemonic, encode i, 0xFFFFFFFF⟩

/-- The row of format S: bits 31:24 and 15:1 are fixed (R62). -/
def syndRow : OpRow := ⟨"SYND", mkWord 0x10 0 0, mkWord 0xFF 0 0xFFFE⟩

/-- The row of format T: bits 31:24 are fixed (R62). -/
def tlookupRow : OpRow := ⟨"TLOOKUP", mkWord 0x11 0 0, mkWord 0xFF 0 0⟩

theorem mem_opcodeTable_cases :
    ∀ r ∈ opcodeTable, (∃ i ∈ formatZCommands, r = formatZRow i) ∨ r = syndRow ∨ r = tlookupRow := by decide

theorem formatZRow_mem : ∀ i ∈ formatZCommands, formatZRow i ∈ opcodeTable := by decide

theorem mnemonic_injective :
    ∀ r ∈ opcodeTable, ∀ r' ∈ opcodeTable, r.mnemonic = r'.mnemonic → r = r' := by decide

section
variable {w : Word}

theorem formatZRow_matches_iff {i : Instr} : (formatZRow i).matchesWord w = true ↔ encode i = w := by
  rw [OpRow.matchesWord, formatZRow, show (0xFFFFFFFF : Word) = BitVec.allOnes 32 from rfl, BitVec.and_allOnes,
    beq_iff_eq, eq_comm]

/-- A word under a mask, field by field. -/
theorem and_mkWord_eq_iff {o l o' l' : BitVec 8} {m m' : BitVec 16} : w &&& mkWord o l m = mkWord o' l' m' ↔
    opcField w &&& o = o' ∧ lenField w &&& l = l' ∧ immField w &&& m = m' := by
  conv_lhs => rw [← mkWord_fields w, mkWord_and, mkWord_inj]

theorem and_opcodeMask (o : BitVec 8) : o &&& 0xFF = o := BitVec.and_allOnes

theorem and_emptyMask {n : Nat} (x : BitVec n) : x &&& 0 = 0 := BitVec.and_zero

/-- The immediate under the mask of format S: its bits 15:1 (R62). -/
theorem and_immMask_eq_zero_iff (m : BitVec 16) : m &&& 0xFFFE = 0 ↔ m.extractLsb' 1 15 = 0 := by
  have hmask : ∀ i, i < 16 → (0xFFFE : BitVec 16).getLsbD i = decide (1 ≤ i) := by decide
  have hbit (i : Nat) (hi : i < 15) : (m &&& 0xFFFE).getLsbD (1 + i) = (m.extractLsb' 1 15).getLsbD i := by
    rw [BitVec.getLsbD_and, hmask _ (by omega)]; simp [hi]
  refine ⟨fun h => BitVec.eq_of_getLsbD_eq fun i hi => ?_, fun h => BitVec.eq_of_getLsbD_eq fun i hi => ?_⟩
  · rw [← hbit i hi, h]; simp
  · cases i with
    | zero => rw [BitVec.getLsbD_and, hmask 0 hi]; simp
    | succ i => rw [Nat.add_comm, hbit i (by omega), h]; simp

theorem syndRow_matches_iff : syndRow.matchesWord w = true ↔
    opcField w = 0x10 ∧ immField w = if (immField w).getLsbD 0 then 1 else 0 := by
  rw [OpRow.matchesWord, syndRow, beq_iff_eq, and_mkWord_eq_iff, and_opcodeMask, and_emptyMask,
    and_immMask_eq_zero_iff, eq_inv_iff]
  simp

theorem tlookupRow_matches_iff : tlookupRow.matchesWord w = true ↔ opcField w = 0x11 := by
  rw [OpRow.matchesWord, tlookupRow, beq_iff_eq, and_mkWord_eq_iff, and_opcodeMask, and_emptyMask, and_emptyMask]
  simp

/-- A command's word matches the row of its mnemonic. -/
theorem exists_row_of_decode {i : Instr} (h : decode w = .ok i) :
    ∃ r ∈ opcodeTable, r.matchesWord w = true ∧ r.mnemonic = i.mnemonic := by
  obtain ⟨-, he⟩ | ⟨j, hj, ho, he⟩ | ⟨ho, he⟩ | ⟨ho, he⟩ := decode_cases w
  · rw [he] at h; cases h
  · rw [he] at h
    obtain ⟨-, rfl⟩ := formatZ_eq_ok_iff.1 h
    exact ⟨_, formatZRow_mem j hj, formatZRow_matches_iff.2 (encode_of_decode (he.trans h)), rfl⟩
  · rw [he] at h
    obtain ⟨hm, rfl⟩ := formatS_eq_ok_iff.1 h
    exact ⟨syndRow, by decide, syndRow_matches_iff.2 ⟨ho, hm⟩, rfl⟩
  · rw [he] at h
    obtain rfl := formatT_eq_ok_iff.1 h
    exact ⟨tlookupRow, by decide, tlookupRow_matches_iff.2 ho, rfl⟩

/-- A word that matches a row is a command of the row's mnemonic. -/
theorem decode_of_row {r : OpRow} (hr : r ∈ opcodeTable) (h : r.matchesWord w = true) :
    ∃ i, decode w = .ok i ∧ i.mnemonic = r.mnemonic := by
  obtain ⟨i, -, rfl⟩ | rfl | rfl := mem_opcodeTable_cases r hr
  · exact ⟨i, formatZRow_matches_iff.1 h ▸ decode_encode i, rfl⟩
  · obtain ⟨ho, hm⟩ := syndRow_matches_iff.1 h
    exact ⟨_, (decode_of_synd ho).trans (formatS_eq_ok_iff.2 ⟨hm, rfl⟩), rfl⟩
  · exact ⟨_, (decode_of_tlookup (tlookupRow_matches_iff.1 h)).trans (formatT_eq_ok_iff.2 rfl), rfl⟩

/-- Two rows of one word have the mnemonic of the command it decodes to. -/
theorem row_unique {r r' : OpRow} (hr : r ∈ opcodeTable) (hr' : r' ∈ opcodeTable) (h : r.matchesWord w = true)
    (h' : r'.matchesWord w = true) : r = r' := by
  obtain ⟨i, hi, hm⟩ := decode_of_row hr h
  obtain ⟨i', hi', hm'⟩ := decode_of_row hr' h'
  obtain rfl : i = i' := Except.ok.inj (hi.symm.trans hi')
  exact mnemonic_injective r hr r' hr' (hm.symm.trans hm')

end

/-- Settles O3: what the decoder checks of each format is what the row's mask covers. -/
theorem decoderMatchesOpcodeTable : Obligations.DecoderMatchesOpcodeTable :=
  ⟨fun _ _ => exists_row_of_decode, fun _ _ => decode_of_row, fun _ _ hr _ hr' => row_unique hr hr'⟩

end Sys2Proof
end

section
/-! PROOFS. Performing a word (30_encoding.md R64 to R66): the first check that fails is the error recorded, and a word
that passes is executed. -/

namespace Sys2Proof.Machine
open Sys2Proof.Spec

/-! ### The length check (R65) -/

theorem syndLenOk_iff (len : BitVec 8) (inv : Bool) :
    syndLenOk len inv = true ↔ len.toNat ≤ 21 ∧ (inv = true → 2 ≤ len.toNat) := by
  cases inv <;> simp [syndLenOk]

theorem tlookupLenOk_iff (len : BitVec 8) : tlookupLenOk len = true ↔ 5 ≤ len.toNat ∧ len.toNat ≤ 21 := by
  simp [tlookupLenOk]

/-- A command whose length is out of range records `BAD_LEN` with its own word (R66). -/
theorem exec_of_not_wf {i : Instr} (h : i.wf = false) (s : State) :
    exec i s = .next (recordError .badLen (encode i) s) := by
  cases i with
  | synd len inv => exact if_neg (by rw [show syndLenOk len inv = false from h]; decide)
  | tlookup len x => exact if_neg (by rw [show tlookupLenOk len = false from h]; decide)
  | _ => cases h

/-! ### The decoding checks -/

section
variable {w : Word} {i : Instr} {e : DecodeError}

theorem execute_of_decode (h : decode w = .ok i) (s : State) : execute w s = exec i s := by rw [execute, h]

theorem execute_of_decodeError (h : decode w = .error e) (s : State) :
    execute w s = .next (recordError (DecodeError.errorCode e) w s) := by rw [execute, h]

theorem raises_of_decodeError (h : decode w = .error e) (s : State) : Raises (DecodeError.errorCode e).code w s :=
  ⟨_, execute_of_decodeError h s, recordError_recorded ..⟩

theorem raises_of_not_wf (h : decode w = .ok i) (hw : i.wf = false) (s : State) : Raises 0x03 w s := by
  refine ⟨_, (execute_of_decode h s).trans (exec_of_not_wf hw s), ?_⟩
  rw [encode_of_decode h]
  exact recordError_recorded ..

theorem executes_of_wf (h : decode w = .ok i) (hw : i.wf = true) (s : State) :
    ∃ i, decode w = .ok i ∧ i.wf = true ∧ execute w s = exec i s := ⟨i, h, hw, execute_of_decode h s⟩

/-- A known opcode but those of `SYND` and `TLOOKUP` is of format Z (R63). -/
theorem exists_formatZ (hk : opcField w ∈ knownOpcodes) (hs : opcField w ≠ 0x10) (ht : opcField w ≠ 0x11) :
    ∃ i ∈ formatZCommands, decode w = formatZ w i := by
  obtain ⟨i, hi, ho⟩ | ho | ho := knownOpcodes_cases _ hk
  · exact ⟨i, hi, decode_of_formatZ hi ho⟩
  · exact absurd ho hs
  · exact absurd ho ht

theorem decode_synd_badField (ho : opcField w = 0x10) (hm : w.extractLsb' 1 15 ≠ 0) :
    decode w = .error .badField := by
  rw [decode_of_synd ho]; exact if_neg (extractLsb'_immField w ▸ hm)

theorem decode_synd_ok (ho : opcField w = 0x10) (hm : w.extractLsb' 1 15 = 0) :
    decode w = .ok (.synd (lenField w) (w.getLsbD 0)) := by
  rw [decode_of_synd ho, ← getLsbD_zero_immField w]; exact if_pos (extractLsb'_immField w ▸ hm)

end

/-- Settles O4: each clause is one answer of the decoder, or the length check of the command it answers. -/
theorem illegalWordsRaiseTheFirstError : Obligations.IllegalWordsRaiseTheFirstError := by
  refine ⟨by decide +kernel, fun w s => ⟨fun ho => ?opcode, fun hk hs ht hz => ?fieldZ, fun ho hm => ?fieldS,
    fun ho hm hL => ?lenS, fun ho hL => ?lenT, fun hk hs ht hz => ?okZ, fun ho hm hL hI => ?okS,
    fun ho h5 h21 => ?okT⟩⟩
  case opcode => exact raises_of_decodeError (decode_of_unknown ho) s
  case fieldZ =>
    obtain ⟨i, -, hd⟩ := exists_formatZ hk hs ht
    exact raises_of_decodeError (hd.trans (if_neg hz)) s
  case fieldS => exact raises_of_decodeError (decode_synd_badField ho hm) s
  case lenS =>
    refine raises_of_not_wf (decode_synd_ok ho hm) (Bool.eq_false_iff.2 fun hw => ?_) s
    obtain ⟨hle, hinv⟩ := (syndLenOk_iff ..).1 hw
    obtain hgt | ⟨hI, hlt⟩ := hL
    · exact absurd hle (Nat.not_le.2 hgt)
    · exact absurd (hinv hI) (Nat.not_le.2 hlt)
  case lenT =>
    refine raises_of_not_wf (decode_of_tlookup ho) (Bool.eq_false_iff.2 fun hw => ?_) s
    obtain ⟨h5, h21⟩ := (tlookupLenOk_iff _).1 hw
    exact hL.elim (Nat.not_lt.2 h5) (Nat.not_lt.2 h21)
  case okZ =>
    obtain ⟨i, hi, hd⟩ := exists_formatZ hk hs ht
    exact executes_of_wf (hd.trans (if_pos hz)) (wf_formatZ i hi) s
  case okS => exact executes_of_wf (decode_synd_ok ho hm) ((syndLenOk_iff ..).2 ⟨hL, hI⟩) s
  case okT => exact executes_of_wf (decode_of_tlookup ho) ((tlookupLenOk_iff _).2 ⟨h5, h21⟩) s

end Sys2Proof.Machine
end

section
/-! PROOFS. A repair clears the residue (41_syndrome_table.md R82, R85 to R89): the residue is linear, the byte form of
a pattern has the pattern's syndrome, and a lookup answers a pattern with the syndrome looked up. So no search is ever
inconsistent (42_demod_frame.md R98). -/

namespace Sys2Proof.Machine
open Sys2Proof.Spec

/-! ### The residue is linear (R82) -/

theorem red_xor (g a b : Nat) : red g (a ^^^ b) = red g a ^^^ red g b := by
  have hle (n : Nat) (h : n ≤ a + b) : n < 2 ^ (a + b + Config.deg) :=
    Nat.lt_of_le_of_lt (h.trans (Nat.le_add_right ..)) Nat.lt_two_pow_self
  have ha := hle a (Nat.le_add_right ..)
  have hb := hle b (Nat.le_add_left ..)
  rw [red_eq_redSteps g _ _ ha, red_eq_redSteps g _ _ hb, red_eq_redSteps g _ _ (Nat.xor_lt_two_pow ha hb),
    redSteps_xor]

theorem red_zero (g : Nat) : red g 0 = 0 := by
  have h := red_xor g 0 0
  rwa [Nat.xor_self, Nat.xor_self] at h

theorem bufPoly_xorBytes {u v : List Byte} (h : u.length = v.length) :
    bufPoly (xorBytes u v) = bufPoly u ^^^ bufPoly v := by
  induction u generalizing v with
  | nil => obtain rfl := List.length_eq_zero_iff.1 h.symm; rfl
  | cons c u ih =>
    cases v with
    | nil => cases h
    | cons d v =>
      have hlen : u.length = v.length := Nat.succ.inj h
      have htail : (xorBytes u v).length = u.length := by rw [length_xorBytes, hlen, Nat.min_self]
      change ((c ^^^ d).toNat <<< (8 * (xorBytes u v).length)) ^^^ bufPoly (xorBytes u v) = _
      rw [htail, ih hlen, BitVec.toNat_xor, Nat.shiftLeft_xor_distrib, bufPoly, bufPoly, hlen]
      simp only [Nat.xor_assoc, Nat.xor_left_comm]

/-- The residue is linear (R82). -/
theorem residue_xorBytes (g : Nat) {u v : List Byte} (h : u.length = v.length) :
    residue g (xorBytes u v) = residue g u ^^^ residue g v := by
  rw [residue, bufPoly_xorBytes h, red_xor, BitVec.ofNat_xor]; rfl

/-! ### The byte form of a pattern (R85) -/

theorem getLsbD_patByteFrom (ps : List Nat) (q t : Nat) (ht : t < 8) (acc : Byte) :
    (ps.foldl (fun acc e => if e / 8 = q then acc ||| ((1 : Byte) <<< (e % 8)) else acc) acc).getLsbD t =
      (acc.getLsbD t || decide (8 * q + t ∈ ps)) := by
  induction ps generalizing acc with
  | nil => simp
  | cons e ps ih =>
    rw [List.foldl_cons, ih]
    by_cases he : e / 8 = q
    · have hbit : t = e % 8 ∧ t < 8 ↔ 8 * q + t = e := by omega
      rw [if_pos he, getLsbD_setBit]
      simp only [hbit, Bool.or_assoc, List.mem_cons, Bool.decide_or]
    · have hne : 8 * q + t ≠ e := by omega
      simp [if_neg he, hne]

/-- Bit `t` of the byte of positions `8q .. 8q + 7`. -/
theorem getLsbD_patByte (ps : List Nat) (q t : Nat) (ht : t < 8) :
    (patByte ps q).getLsbD t = decide (8 * q + t ∈ ps) := by
  rw [patByte, getLsbD_patByteFrom ps q t ht]; simp

theorem patBytes_succ (L : Nat) (E : ErrPattern) :
    patBytes (L + 1) E = patByte E.positions L :: patBytes L E := by
  rw [patBytes, List.range_succ_eq_map, List.map_cons, List.map_map]
  refine congrArg₂ List.cons rfl (List.map_congr_left fun b _ => ?_)
  rw [Function.comp_apply, show L + 1 - 1 - b.succ = L - 1 - b by omega]

theorem testBit_bufPoly_patBytes (L : Nat) (E : ErrPattern) (p : Nat) :
    (bufPoly (patBytes L E)).testBit p = decide (p < 8 * L ∧ p ∈ E.positions) := by
  induction L with
  | zero => simp [patBytes, bufPoly]
  | succ L ih =>
    rw [patBytes_succ, bufPoly, length_patBytes, Nat.testBit_xor, ih, Nat.testBit_shiftLeft]
    change ((decide (8 * L ≤ p) && (patByte E.positions L).getLsbD (p - 8 * L)) ^^ _) = _
    obtain hp | hp := Nat.lt_or_ge p (8 * L)
    · have hp' : p < 8 * (L + 1) := by omega
      simp [hp, hp', Nat.not_le.2 hp]
    · obtain ht | ht := Nat.lt_or_ge (p - 8 * L) 8
      · have hp' : p < 8 * (L + 1) := by omega
        rw [getLsbD_patByte _ _ _ ht, Nat.add_sub_cancel' hp]
        simp [hp, hp', Nat.not_lt.2 hp]
      · have hp' : ¬ p < 8 * (L + 1) := by omega
        rw [BitVec.getLsbD_of_ge _ _ ht]
        simp [hp', Nat.not_lt.2 hp]

theorem testBit_patPoly {ps : List Nat} (h : ps.Nodup) (p : Nat) : (patPoly ps).testBit p = decide (p ∈ ps) := by
  induction ps with
  | nil => simp [patPoly]
  | cons i ps ih =>
    obtain ⟨hi, hps⟩ := List.nodup_cons.1 h
    change ((1 <<< i) ^^^ patPoly ps).testBit p = _
    rw [Nat.testBit_xor, ih hps, Nat.one_shiftLeft, Nat.testBit_two_pow]
    by_cases hp : p = i
    · subst p; simp [hi]
    · simp [hp, Ne.symm hp]

/-- The byte form of a pattern stands for the pattern's polynomial (R79, R85). -/
theorem bufPoly_patBytes {L : Nat} {E : ErrPattern} (h : PatternOf L E) :
    bufPoly (patBytes L E) = patPoly E.positions := by
  obtain ⟨hasc, hlt⟩ := h
  refine Nat.eq_of_testBit_eq fun p => ?_
  rw [testBit_bufPoly_patBytes, testBit_patPoly (hasc.imp Nat.ne_of_lt)]
  exact decide_eq_decide.2 ⟨And.right, fun hp => ⟨hlt p hp, hp⟩⟩

/-- The byte form of a pattern has its syndrome as residue (R85). -/
theorem residue_patBytes (g : Nat) {L : Nat} {E : ErrPattern} (h : PatternOf L E) :
    residue g (patBytes L E) = BitVec.ofNat 16 (patSyn g E) := by rw [residue, bufPoly_patBytes h, patSyn]

/-! ### A lookup answers a pattern of the syndrome (R86 to R89) -/

/-- The syndrome of a pattern is the sum of those of its positions (R82, R85). -/
theorem patSyn_eq (g : Nat) (E : ErrPattern) :
    patSyn g E = E.positions.foldr (fun i acc => red g (1 <<< i) ^^^ acc) 0 := by
  have h (ps : List Nat) : red g (patPoly ps) = ps.foldr (fun i acc => red g (1 <<< i) ^^^ acc) 0 := by
    induction ps with
    | nil => exact red_zero g
    | cons i ps ih => rw [List.foldr_cons, ← ih]; exact red_xor ..
  exact h _

/-- Positions chosen in order with their syndromes are a pattern, and its syndrome is their sum. -/
theorem pattern_of_sublist {g L : Nat} {E : ErrPattern} {l : List (Nat × Nat)} (hl : l.Sublist (singles g L))
    (hE : E.positions = l.map Prod.fst) :
    PatternOf L E ∧ patSyn g E = l.foldr (fun x acc => x.2 ^^^ acc) 0 := by
  have hmem : ∀ x ∈ l, x.1 < 8 * L ∧ x.2 = red g (1 <<< x.1) := fun x hx =>
    (mem_singles g L x.1 x.2).1 (hl.subset hx)
  rw [PatternOf, patSyn_eq, hE]
  refine ⟨⟨List.pairwise_map.2 (sublist_singles_pairwise g L l hl), fun i hi => ?_⟩, ?_⟩
  · obtain ⟨x, hx, rfl⟩ := List.mem_map.1 hi
    exact (hmem x hx).1
  · rw [List.foldr_map]
    exact List.foldr_ext _ _ _ fun x hx acc => by rw [(hmem x hx).2]

/-- A lookup answers a pattern of the frame with the syndrome looked up, whatever the generator. -/
theorem tableLookup_sound {g : Nat} {ecen : Bool} {L : Nat} {syn : BitVec 16} {E : ErrPattern}
    (h : tableLookup g ecen L syn = some E) : PatternOf L E ∧ patSyn g E = syn.toNat := by
  obtain ⟨-, ⟨i, rfl, hi⟩ | ⟨i, j, p, q, rfl, hsub, hs⟩ | ⟨i, j, k, p, q, r, rfl, -, hsub, hs⟩⟩ :=
    tableLookup_cases _ _ _ _ _ h
  · simpa [ErrPattern.positions] using pattern_of_sublist (E := .one i) (List.singleton_sublist.2 hi) rfl
  · simpa [hs] using pattern_of_sublist (E := .two i j) hsub rfl
  · simpa [← Nat.xor_assoc, hs] using pattern_of_sublist (E := .three i j k) hsub rfl

/-! ### No search is inconsistent (R98) -/

/-- A repaired slice has residue 0, so no repair fails its verification, whatever the generator. -/
theorem State.tryFrame_ne_inconsistent (s : State) (L : Nat) : s.tryFrame L ≠ .inconsistent := by
  rw [State.tryFrame]
  obtain ⟨-, he⟩ | ⟨-, -, he⟩ | ⟨E, -, -, -, he⟩ | ⟨E, -, hE, hr, -⟩ :=
    judgeFrame_cases s.g s.ecen L (s.trySlice L) (s.trySyn L)
  · rw [he]; exact FrameResult.noConfusion
  · rw [he]; exact FrameResult.noConfusion
  · rw [he]; exact FrameResult.noConfusion
  · obtain ⟨hpat, hsyn⟩ := tableLookup_sound hE
    refine absurd ?_ hr
    rw [residue_xorBytes _ (by simp [State.trySlice]), residue_patBytes _ hpat, hsyn, BitVec.ofNat_toNat,
      BitVec.setWidth_eq]
    exact BitVec.xor_self

/-- The phase, the pending command and the error state are as before. -/
structure ControlFrame (s t : State) : Prop where
  phase : t.phase = s.phase
  pending : t.pending = s.pending
  err : t.err = s.err
  errCode : t.errCode = s.errCode
  errInfo : t.errInfo = s.errInfo

theorem searchLength_controlFrame (L : Nat) (s : State) : ControlFrame s (searchLength L s) := by
  rw [searchLength]
  cases hr : s.tryFrame L with
  | candidate payload n => constructor <;> rfl
  | noCandidate => constructor <;> rfl
  | inconsistent => exact absurd hr (s.tryFrame_ne_inconsistent L)

theorem ControlFrame.trans {s t u : State} (h : ControlFrame s t) (h' : ControlFrame t u) : ControlFrame s u where
  phase := h'.phase.trans h.phase
  pending := h'.pending.trans h.pending
  err := h'.err.trans h.err
  errCode := h'.errCode.trans h.errCode
  errInfo := h'.errInfo.trans h.errInfo

theorem searchLengths_controlFrame (Ls : List Nat) (s : State) : ControlFrame s (searchLengths Ls s) := by
  induction Ls generalizing s with
  | nil => constructor <;> rfl
  | cons L rest ih =>
    rw [searchLengths, if_neg (s.tryFrame_ne_inconsistent L)]
    exact (searchLength_controlFrame L s).trans (ih _)

/-- A frame search records no error (R100). -/
theorem frameSearch_controlFrame (s : State) : ControlFrame s (frameSearch s) :=
  ControlFrame.trans (t := clearResults s) (by constructor <;> rfl) (searchLengths_controlFrame _ _)

/-- No command changes the phase or makes a command pending. -/
theorem exec_phase_pending {i : Instr} {s t : State} (h : exec i s = .next t) :
    t.phase = s.phase ∧ t.pending = s.pending := by
  obtain hr | ⟨-, rfl⟩ | ⟨-, rfl⟩ | ⟨-, rfl⟩ := exec_cases h
  · exact ⟨hr.phase, hr.pending⟩
  · exact ⟨rfl, rfl⟩
  · exact ⟨(frameSearch_controlFrame s).phase, (frameSearch_controlFrame s).pending⟩
  · exact ⟨(frameSearch_controlFrame (demodulate s)).phase, (frameSearch_controlFrame (demodulate s)).pending⟩

end Sys2Proof.Machine
end

section
/-! PROOFS. The frame of a command: its "Writes" line is complete (30_encoding.md R68). -/

namespace Sys2Proof.Machine
open Sys2Proof.Spec

/-- Settles O46: what the commands that store nothing leave alone. -/
theorem registerCommandsLeaveTheBuffers : Obligations.RegisterCommandsLeaveTheBuffers := by
  intro i s t h hd hf hp
  obtain hr | ⟨rfl, -⟩ | ⟨rfl, -⟩ | ⟨rfl, -⟩ := exec_cases h
  · exact ⟨fun a => by rw [hr.mem], hr.cinfo, hr.cmask, hr.ccount, hr.phase, hr.pending⟩
  · exact absurd rfl hd
  · exact absurd rfl hf
  · exact absurd rfl hp

section
variable {s t : State} {r : Reg}

/-! ### What every other register holds after an update -/

theorem held_writeY {v : Word} (h : r ≠ .y) : held { s with y := v } r = held s r := by
  cases r with
  | y => exact absurd rfl h
  | _ => rfl

theorem held_writeSyn {v : BitVec 16} {n : Nat} (h : r ≠ .syn) :
    held ({ s with syn := v }.skipDraws n) r = held s r := by
  cases r with
  | syn => exact absurd rfl h
  | _ => rfl

theorem held_writeLkr {v : Word} (h : r ≠ .lkr) : held { s with lkr := v } r = held s r := by
  cases r with
  | lkr => exact absurd rfl h
  | _ => rfl

/-- A change of the error state is seen in `STATUS`, `ERRCODE` and `ERRINFO` only (R17, R19, R20). -/
theorem held_writeError {e : Bool} {c : BitVec 8} {info : Word} (h : r.errorState = false) :
    held { s with err := e, errCode := c, errInfo := info } r = held s r := by
  cases r with
  | status => cases h
  | errcode => cases h
  | errinfo => cases h
  | _ => rfl

theorem held_recordError {c : ErrorCode} {info : Word} (h : r.errorState = false) :
    held (recordError c info s) r = held s r := by
  cases he : s.err with
  | true => rw [recordError_of_err c info s he]
  | false => rw [recordError_of_clear c info s he]; exact held_writeError h

/-- A demodulation writes the first bytes of the byte buffer, and no other entry (R96). -/
theorem demodulate_read {a : Nat} (h : ∀ k, k < s.groupCount → a ≠ bytebufAddr k) :
    (demodulate s).mem.read a = s.mem.read a := by
  rw [demodulate_mem, Memory.read_writeList, if_neg]
  rintro ⟨hlo, hhi⟩
  rw [List.length_map, List.length_range] at hhi
  unfold bytebufAddr at *
  exact h (a - 0x200) (by omega) (by omega)

theorem held_demodulate (hr : r.inRange = true) (h : s.demodWrites r = false) :
    held (demodulate s) r = held s r := by
  have hn : s.groupCount ≤ 21 := Nat.min_le_left ..
  cases r with
  | status => cases h
  | bytelen => cases h
  | inbuf k =>
    rw [Reg.inRange_inbuf] at hr
    exact congrArg (Option.map _) (demodulate_read fun j hj => by unfold bytebufAddr; omega)
  | bytebuf k =>
    have hk : ¬ k < s.groupCount := of_decide_eq_false h
    exact congrArg (Option.map _) (demodulate_read fun j hj => by unfold bytebufAddr; omega)
  | cpay L k => exact congrArg (Option.map _) (demodulate_read fun j hj => by unfold bytebufAddr; omega)
  | _ => rfl

/-- `STATUS` depends on the control state, the strap latch and the flag of a short input (R17). -/
theorem status_congr (hc : ControlFrame s t) (he : t.ecen = s.ecen) (hs : t.short = s.short) : t.status = s.status := by
  simp only [State.status, State.ready, State.busy, State.fatal, hc.phase, hc.pending, hc.err, he, hs]

/-- A search changes its result registers only (R100): below `0x400` no entry, and no error is recorded. -/
theorem held_frameSearch (hr : r.inRange = true) (h : r.searchResult = false) :
    held (frameSearch s) r = held s r := by
  have hf := frameSearch_frame s
  have hc := frameSearch_controlFrame s
  cases r with
  | id => rfl
  | status => exact congrArg some (status_congr hc hf.ecen hf.short)
  | cmd => exact congrArg some hf.lastCmd
  | errcode => exact congrArg (fun c : BitVec 8 => some (c.setWidth 32)) hc.errCode
  | errinfo => exact congrArg some hc.errInfo
  | genr => exact congrArg (fun g : BitVec 17 => some (g.setWidth 32)) hf.gen
  | a => exact congrArg some hf.a
  | b => exact congrArg some hf.b
  | y => exact congrArg some hf.y
  | syn => exact congrArg (fun v : BitVec 16 => some (v.setWidth 32)) hf.syn
  | lkr => exact congrArg some hf.lkr
  | inlen => exact congrArg (fun n : BitVec 8 => some (n.setWidth 32)) hf.inlen
  | bytelen => exact congrArg (fun n : BitVec 5 => some (n.setWidth 32)) hf.bytelen
  | inbuf k => rw [Reg.inRange_inbuf] at hr; exact congrArg (Option.map _) (hf.buffers _ (by omega))
  | bytebuf k => rw [Reg.inRange_bytebuf] at hr; exact congrArg (Option.map _) (hf.buffers _ (by omega))
  | cmask => cases h
  | ccount => cases h
  | cinfo L => cases h
  | cpay L k => cases h

/-! ### The "Writes" lines -/

/-- A well-formed command changes no register outside its "Writes" line (R68). -/
theorem held_exec {i : Instr} (hw : i.wf = true) (hr : r.inRange = true) (h : s.commandWrites r i = false)
    (he : exec i s = .next t) : held t r = held s r := by
  cases i with
  | nop => cases he; rfl
  | padd => cases he; exact held_writeY (beq_eq_false_iff_ne.1 h)
  | pmulm => cases he; exact held_writeY (beq_eq_false_iff_ne.1 h)
  | ppowm => cases he; exact held_writeY (beq_eq_false_iff_ne.1 h)
  | prem => cases he; exact held_writeY (beq_eq_false_iff_ne.1 h)
  | synd len inv =>
    rw [Instr.wf] at hw
    rw [exec, execSynd, if_pos hw] at he
    cases he; exact held_writeSyn (beq_eq_false_iff_ne.1 h)
  | tlookup len x =>
    rw [Instr.wf] at hw
    rw [exec, execTlookup, if_pos hw] at he
    cases he; exact held_writeLkr (beq_eq_false_iff_ne.1 h)
  | demod => cases he; exact held_demodulate hr h
  | fsearch => cases he; exact held_frameSearch hr h
  | process =>
    obtain ⟨hd, hs⟩ := Bool.or_eq_false_iff.1 h
    cases he; exact (held_frameSearch hr hs).trans (held_demodulate hr hd)
  | clrerr => cases he; exact held_writeError h

end

/-- Settles O44: a word records an error, or executes a well-formed command. -/
theorem writesLinesAreComplete : Obligations.WritesLinesAreComplete := by
  intro s w t _ _ he r hr h
  unfold State.wordWrites at h
  cases hd : decode w with
  | error e =>
    rw [hd] at h
    rw [execute_of_decodeError hd] at he
    cases he; exact held_recordError h
  | ok i =>
    rw [hd] at h
    rw [execute_of_decode hd] at he
    cases hw : i.wf with
    | true => exact held_exec hw hr (by simpa [hw] using h) he
    | false =>
      rw [exec_of_not_wf hw] at he
      cases he; exact held_recordError (by simpa [hw] using h)

end Sys2Proof.Machine
end

section
/-! PROOFS. The engine's step (30_encoding.md R66) and the pseudo-instructions (R70): a poll that is met, a poll that
waits for the engine, and a load. -/

namespace Sys2Proof.Machine
open Sys2Proof.Spec

section
variable {s t : State} {w : Word} {i : Instr} {op : HostOp} {rest : List HostOp}

/-! ### The engine's step -/

theorem step_of_engine (hg : s.genOk = true) (ha : s.nextAgent = .engine) : step s = engineMove s.takeTurn := by
  rw [step, if_pos hg, ha]

theorem engineMove_of_pending (hp : s.phase = .run) (hq : s.pending = some w) (hd : decode w = .ok i) :
    engineMove s = exec i { s with pending := none } := by
  simp only [engineMove, hp, hq, execute, hd]

theorem step_of_pending (hg : s.genOk = true) (ha : s.nextAgent = .engine) (hp : s.phase = .run)
    (hq : s.pending = some w) (hd : decode w = .ok i) :
    step s = exec i { s with pending := none, turns := s.turns.tail } := by
  rw [step_of_engine hg ha, engineMove_of_pending (s := s.takeTurn) hp hq hd]; rfl

theorem decode_of_decodeTableWord {nbits n : Nat} (h : decodeTableWord nbits n = some i) :
    decode (BitVec.ofNat 32 (n % 2 ^ nbits)) = .ok i := by
  unfold decodeTableWord at h
  split at h
  · next hd => rw [hd, Option.some.inj h]
  · cases h

/-! ### Steps with no interleaving prescribed (log 6) -/

theorem takeTurn_of_noTurns (ht : s.turns = []) : s.takeTurn = s := by
  have htail : s.turns.tail = s.turns := by rw [ht]; rfl
  rw [State.takeTurn, htail]

theorem afterAction_of_noTurns (ht : s.turns = []) (rest : List HostOp) :
    afterAction s rest = { s with hostProgram := rest } :=
  congrArg (fun u : State => { u with hostProgram := rest }) (takeTurn_of_noTurns ht)

/-- An accepted write to an idle engine is performed (R49). -/
theorem step_performWrite_of_idle {a : Addr} {r : Reg} {v : Word} (hs : Idle s)
    (hp : s.hostProgram = .write a v :: rest) (hr : regAt a = some r) :
    step s = .next (performWrite r v { s with hostProgram := rest }) := by
  rw [step_write_of_idle hs hp hr]
  obtain ⟨-, -, -, ht⟩ := hs
  rw [afterAction_of_noTurns ht]

/-- While a poll is unmet the engine moves. -/
theorem nextAgent_of_unmet (ht : s.turns = []) (hp : s.hostProgram = op :: rest) (hd : s.pollDone op = false) :
    s.nextAgent = .engine := by
  simp only [State.nextAgent, ht, hp, hd]; rfl

/-- A poll that is met ends with a read of `STATUS` (R70). -/
theorem step_of_poll (hg : s.genOk = true) (ht : s.turns = []) (hop : op = .wait ∨ op = .boot)
    (hp : s.hostProgram = op :: rest) (hd : s.pollDone op = true) :
    ∃ t, step s = .next t ∧ t.hostProgram = rest ∧ t.readData = s.status := by
  have hact : hostAct op rest s.takeTurn = hostRead statusAddr (afterAction s rest) := by
    obtain rfl | rfl := hop <;> exact congrArg (hostRead statusAddr) (if_pos hd)
  refine ⟨_, step_of_host (hostDoes_of_noTurns hg ht hp hd), ?_⟩
  rw [hact]
  exact ⟨rfl, hostReadValue_of_alwaysExact (s := afterAction s rest) (a := statusAddr) (r := .status) rfl rfl⟩

end

/-- Settles O5: the engine's move, and `withFetchWord` as one state that meets its conditions. -/
theorem stepRunsThePendingCommand : Obligations.StepRunsThePendingCommand :=
  ⟨fun _ _ _ => step_of_pending, fun s nbits w _ hg hd =>
    step_of_pending (s := s.withFetchWord nbits w) hg rfl rfl rfl (decode_of_decodeTableWord hd)⟩

section
variable {s t : State} {i : Instr} {op : HostOp} {rest : List HostOp}

/-! ### `DO` (R70) -/

/-- The word `w` is accepted by a `CMD` write (R18), with `rest` the host's program after it. -/
def State.accepted (s : State) (w : Word) (rest : List HostOp) : State :=
  { s with hostProgram := rest, pending := some w, lastCmd := w }

/-- The `CMD` write of `DO` to an idle engine. -/
theorem step_writeCmd_of_idle {w : Word} (hs : Idle s) (hp : s.hostProgram = .write cmdAddr w :: rest) :
    step s = .next (s.accepted w rest) :=
  step_performWrite_of_idle (r := .cmd) hs hp rfl

/-- A pending command in `RUN` keeps a `WAIT` waiting, and the engine performs it. -/
theorem step_wait_of_pending (hg : s.genOk = true) (ht : s.turns = []) (hp : s.hostProgram = .wait :: rest)
    (hrun : s.phase = .run) {w : Word} (hq : s.pending = some w) (hd : decode w = .ok i) :
    step s = exec i { s with pending := none } := by
  have hbusy : s.busy = true := by simp [State.busy, hq]
  rw [step_of_engine hg (nextAgent_of_unmet ht hp (by simp [State.pollDone, hbusy])), takeTurn_of_noTurns ht,
    engineMove_of_pending hrun hq hd]

end

/-- Settles O49: the write, the command, and a poll of an engine that is idle again. -/
theorem doPerformsTheCommand : Obligations.DoPerformsTheCommand := by
  intro s i rest hs hp
  have h1 : step s = .next (s.accepted (encode i) (.wait :: rest)) := step_writeCmd_of_idle hs hp
  obtain ⟨hg, hrun, -, ht⟩ := hs
  have h2 := step_wait_of_pending (s := s.accepted (encode i) (.wait :: rest)) hg ht rfl hrun rfl (decode_encode i)
  obtain ⟨s₂, he⟩ := exec_next i { s.accepted (encode i) (.wait :: rest) with pending := none }
  obtain ⟨hphase, hpending⟩ := exec_phase_pending he
  have hin := exec_inputFrame he
  have hidle : s₂.busy = false := by rw [State.busy, hphase, hpending, State.accepted, hrun]; rfl
  obtain ⟨s₃, h3, hprog, hread⟩ := step_of_poll (s := s₂) (op := .wait) (rest := rest)
    (by rw [State.genOk, hin.gen]; exact hg) (hin.turns.trans ht) (.inl rfl) hin.hostProgram
    (by simp [State.pollDone, hidle])
  refine ⟨_, s₂, s₃, h1, rfl, h2, h2.trans he, h3, hprog, hread, ?_⟩
  rw [hread, getLsbD_status, hidle]
  simp

section
variable {s t : State} {op : HostOp} {rest : List HostOp}

/-! ### The polls (R70) -/

theorem run_succ_of_step (M : Host.Core) {u v : M.State} (h : M.step u = .next v) (k : Nat) :
    M.run (k + 1) u = M.run k v := by
  rw [Host.Core.run, h]

theorem run_succ (h : step s = .next t) (k : Nat) : core.run (k + 1) s = core.run k t := run_succ_of_step core h k

/-- The engine's turn does not touch the inputs, the host agent among them (R9). -/
theorem engineMove_inputFrame (h : engineMove s = .next t) : InputFrame s t := by
  obtain ⟨-, he⟩ | ⟨-, he⟩ | ⟨-, -, he⟩ | ⟨w, i, -, -, -, he⟩ | ⟨w, e, -, -, -, he⟩ := engineMove_cases s
  all_goals rw [he] at h
  · cases h
    obtain ⟨-, hb⟩ | ⟨tier, L, syn, -, -, hb⟩ := buildStep_cases s
    all_goals rw [hb]
    · constructor <;> intros <;> rfl
    · constructor <;> intros <;> rfl
  · cases h; exact (RegisterFrame.refl _).inputFrame
  · cases h; exact (RegisterFrame.refl _).inputFrame
  · exact { exec_inputFrame h with }
  · cases h; exact { (recordError_registerFrame ..).inputFrame with }

/-- A command is pending only in `RUN` (R35, R49). -/
theorem State.Inv.pending_of_not_run (hs : s.Inv) (hp : s.phase ≠ .run) : s.pending = none :=
  Option.not_isSome_iff_eq_none.1 (mt hs.pendingRuns hp)

/-- After the engine's turn nothing is pending and the construction is done (R66, R124). -/
theorem engineMove_idle (hs : s.Inv) : ∃ t, engineMove s = .next t ∧ t.phase ≠ .building ∧ t.pending = none := by
  obtain ⟨hp, he⟩ | ⟨hp, he⟩ | ⟨hp, hq, he⟩ | ⟨w, i, hp, -, -, he⟩ | ⟨w, e, hp, -, -, he⟩ := engineMove_cases s
  all_goals rw [he]
  · have hq := hs.pending_of_not_run (by rw [hp]; decide)
    refine ⟨_, rfl, ?_⟩
    obtain ⟨-, hb⟩ | ⟨tier, L, syn, -, -, hb⟩ := buildStep_cases s
    all_goals rw [hb]
    · exact ⟨Phase.noConfusion, hq⟩
    · exact ⟨Phase.noConfusion, rfl⟩
  · exact ⟨s, rfl, by rw [hp]; decide, hs.pending_of_not_run (by rw [hp]; decide)⟩
  · exact ⟨s, rfl, by rw [hp]; decide, hq⟩
  · obtain ⟨t, ht⟩ := exec_next i { s with pending := none }
    obtain ⟨hphase, hpending⟩ := exec_phase_pending ht
    exact ⟨t, ht, by rw [hphase, hp]; decide, hpending⟩
  · exact ⟨_, rfl, by rw [recordError_phase, hp]; decide, recordError_pending ..⟩

/-- A met poll of an engine that is not building and has nothing pending. -/
theorem pollDone_of_idle (hop : op = .wait ∨ op = .boot) (hp : s.phase ≠ .building) (hq : s.pending = none) :
    s.pollDone op = true := by
  obtain rfl | rfl := hop
  · simp [State.pollDone, State.busy_eq, hp, hq]
  · cases h : s.phase with
    | building => exact absurd h hp
    | run => simp [State.pollDone, State.ready_eq, h]
    | halted => simp [State.pollDone, State.fatal_eq, h]

end

/-- Settles O50: a poll is met at once, or after one turn of the engine. -/
theorem pollsTerminate : Obligations.PollsTerminate := by
  intro s op rest hs hg ht hop hp
  cases hd : s.pollDone op with
  | true =>
    obtain ⟨t, h, hprog, -⟩ := step_of_poll hg ht hop hp hd
    exact ⟨1, t, by decide, run_succ h 0, hprog⟩
  | false =>
    have hmove := step_of_engine hg (nextAgent_of_unmet ht hp hd)
    obtain ⟨t, he, hphase, hpending⟩ := engineMove_idle hs.takeTurn
    have hin := engineMove_inputFrame he
    obtain ⟨u, h, hprog, -⟩ := step_of_poll (s := t) (by rw [State.genOk, hin.gen]; exact hg)
      (hin.turns.trans (by rw [State.takeTurn_turns, ht]; rfl)) hop (hin.hostProgram.trans hp)
      (pollDone_of_idle hop hphase hpending)
    exact ⟨2, u, by decide, (run_succ (hmove.trans he) 1).trans (run_succ h 0), hprog⟩

/-! ### The loads (R70) -/

/-- `reg` names the entries of a buffer of `cap` entries, from the address `base` up. -/
structure BufferAt (reg : Nat → Reg) (base cap : Nat) : Prop where
  inRange : ∀ k, k < cap → (reg k).inRange = true
  write : ∀ k v (s : State), performWrite (reg k) v s = { s with mem := s.mem.write (base + k) (v.setWidth 8) }

theorem inbuf_bufferAt : BufferAt .inbuf 0x100 189 := ⟨fun k => (Reg.inRange_inbuf k).2, fun _ _ _ => rfl⟩

theorem bytebuf_bufferAt : BufferAt .bytebuf 0x200 21 := ⟨fun k => (Reg.inRange_bytebuf k).2, fun _ _ _ => rfl⟩

/-- The bytes that the words store: each its low byte (R31, R32). -/
def lowBytes (vs : List Word) : List Byte := vs.map fun v => v.setWidth 8

/-- The state with these entries stored, and `rest` the host's program. -/
def State.loaded (s : State) (m : Memory) (rest : List HostOp) : State := { s with mem := m, hostProgram := rest }

section
variable {s : State} {rest : List HostOp} {reg : Nat → Reg} {base cap : Nat} {vs : List Word}

theorem loaded_idle (hs : Idle s) (m : Memory) (rest : List HostOp) : Idle (s.loaded m rest) := hs

theorem step_writeEntry_of_idle (hreg : BufferAt reg base cap) {k : Nat} {v : Word} (hs : Idle s) (hk : k < cap)
    (hp : s.hostProgram = wr (reg k) v :: rest) :
    step s = .next (s.loaded (s.mem.write (base + k) (v.setWidth 8)) rest) := by
  rw [step_performWrite_of_idle hs hp (regAt_addr (hreg.inRange k hk)), hreg.write]; rfl

/-- The writes of a load are steps in a row of an idle engine, and store consecutive entries. -/
theorem run_writeArray (hreg : BufferAt reg base cap) (n : Nat) {k : Nat} (hs : Idle s) (hk : k + vs.length ≤ cap)
    (hp : s.hostProgram = writeArray reg k vs ++ rest) :
    core.run (vs.length + n) s = core.run n (s.loaded (s.mem.writeList (base + k) (lowBytes vs)) rest) := by
  induction vs generalizing k s with
  | nil =>
    obtain rfl : s.hostProgram = rest := hp
    rw [List.length_nil, Nat.zero_add]; rfl
  | cons v vs ih =>
    rw [List.length_cons] at hk ⊢
    have hstep := step_writeEntry_of_idle (rest := writeArray reg (k + 1) vs ++ rest) hreg hs (by omega) hp
    rw [Nat.add_right_comm, run_succ hstep]
    exact ih (loaded_idle hs ..) (by omega) rfl

/-- A load: the entries in order, then the write of the length register. -/
theorem run_load (hreg : BufferAt reg base cap) {lenReg : Reg} (hlen : lenReg.inRange = true) {v : Word} (hs : Idle s)
    (hk : vs.length ≤ cap) (hp : s.hostProgram = (writeArray reg 0 vs ++ [wr lenReg v]) ++ rest) :
    core.run (vs.length + 1) s =
      .next (performWrite lenReg v (s.loaded (s.mem.writeList base (lowBytes vs)) rest)) := by
  rw [List.append_assoc] at hp
  rw [run_writeArray hreg 1 hs (by omega) hp]
  exact run_succ (step_performWrite_of_idle (loaded_idle hs ..) rfl (regAt_addr hlen)) 0

/-- The entries after a load: the values in order, and the others as before. -/
theorem read_load (m : Memory) (base : Nat) (vs : List Word) :
    (∀ k v, vs[k]? = some v → (m.writeList base (lowBytes vs)).read (base + k) = some (v.setWidth 8)) ∧
    (∀ a, (∀ k, k < vs.length → a ≠ base + k) → (m.writeList base (lowBytes vs)).read a = m.read a) := by
  refine ⟨fun k v hv => ?_, fun a ha => ?_⟩
  · obtain ⟨hk, -⟩ := List.getElem?_eq_some_iff.1 hv
    rw [Memory.read_writeList, if_pos (by simpa [lowBytes] using hk), Nat.add_sub_cancel_left]
    simp [lowBytes, hv]
  · rw [Memory.read_writeList, if_neg]
    rintro ⟨hlo, hhi⟩
    rw [lowBytes, List.length_map] at hhi
    exact ha (a - base) (by omega) (by omega)

/-- The count of a load fits its register, so its clamp leaves it as it is (R27, R28). -/
theorem min_count {n cap : Nat} (hn : n ≤ cap) (hcap : cap < 2 ^ 32) : min (BitVec.ofNat 32 n).toNat cap = n := by
  rw [BitVec.toNat_ofNat, Nat.mod_eq_of_lt (Nat.lt_of_le_of_lt hn hcap), Nat.min_eq_left hn]

end

/-- Settles O51: the writes of the values and of their number, one step each. -/
theorem loadsStoreTheirValues : Obligations.LoadsStoreTheirValues := by
  refine ⟨fun s vs rest hs hn hp => ⟨s.mem.writeList 0x200 (lowBytes vs), ?_, read_load ..⟩,
    fun s vs rest hs hn hp => ⟨s.mem.writeList 0x100 (lowBytes vs), ?_, read_load ..⟩⟩
  · rw [run_load bytebuf_bufferAt (lenReg := .bytelen) rfl hs hn hp, performWrite, Config.maxBytes,
      min_count hn (by decide)]
    rfl
  · rw [run_load inbuf_bufferAt (lenReg := .inlen) rfl hs hn hp, performWrite, Config.inCap, min_count hn (by decide)]
    rfl

end Sys2Proof.Machine
end

section
/-! PROOFS. The polynomials that the model's numbers stand for (00_scope.md R13, 40_poly.md R72, R73, R76): sum,
product, remainder and power in GF(2)[x] modulo the generator, and the range of the reduction. -/

namespace Sys2Proof.Machine
open Sys2Proof.Spec

/-! ### The polynomial of a number (R13) -/

theorem coeff_polyOf (n i : Nat) : (polyOf n).coeff i = if n.testBit i then 1 else 0 := by
  have hterm (j : Nat) : (if n.testBit j then Polynomial.X ^ j else 0 : Polynomial (ZMod 2)).coeff i =
      if i = j then (if n.testBit i then 1 else 0) else 0 := by
    obtain rfl | hij := eq_or_ne i j
    · rw [if_pos rfl]; split <;> simp
    · rw [if_neg hij]; split <;> simp [Polynomial.coeff_X_pow, hij]
  rw [polyOf, Polynomial.finsetSum_coeff, Finset.sum_congr rfl fun j _ => hterm j, Finset.sum_ite_eq]
  by_cases hi : i ∈ Finset.range (n.log2 + 1)
  · rw [if_pos hi]
  · rw [if_neg hi, Nat.testBit_lt_two_pow (Nat.lt_of_lt_of_le Nat.lt_log2_self
      (Nat.pow_le_pow_right (by decide) (Nat.not_lt.1 (mt Finset.mem_range.2 hi))))]
    rfl

theorem testBit_eq_coeff_polyOf (n i : Nat) : n.testBit i = decide ((polyOf n).coeff i = 1) := by
  rw [coeff_polyOf]
  cases n.testBit i <;> decide

theorem polyOf_injective : Function.Injective polyOf := fun a b h => Nat.eq_of_testBit_eq fun i => by
  rw [testBit_eq_coeff_polyOf, testBit_eq_coeff_polyOf, h]

theorem polyOf_zero : polyOf 0 = 0 := Polynomial.ext fun i => by simp [coeff_polyOf]

theorem polyOf_one : polyOf 1 = 1 := by
  rw [polyOf, show Nat.log2 1 = 0 from rfl, zero_add, Finset.sum_range_one]; exact pow_zero _

theorem polyOf_xor (a b : Nat) : polyOf (a ^^^ b) = polyOf a + polyOf b := Polynomial.ext fun i => by
  rw [Polynomial.coeff_add, coeff_polyOf, coeff_polyOf, coeff_polyOf, Nat.testBit_xor]
  cases a.testBit i <;> cases b.testBit i <;> decide

theorem polyOf_shiftLeft (a n : Nat) : polyOf (a <<< n) = polyOf a * Polynomial.X ^ n := Polynomial.ext fun i => by
  rw [coeff_polyOf, Nat.testBit_shiftLeft, Polynomial.coeff_mul_X_pow', coeff_polyOf]
  by_cases h : n ≤ i <;> simp [h]

/-- The carry-less product is the product of the polynomials. -/
theorem polyOf_clmul (a b : Nat) : polyOf (clmul a b) = polyOf a * polyOf b := by
  have hbits (n : Nat) : polyOf (clmulBits a b n) =
      polyOf a * ∑ i ∈ Finset.range n, if b.testBit i then Polynomial.X ^ i else 0 := by
    induction n with
    | zero => rw [Finset.sum_range_zero, mul_zero]; exact polyOf_zero
    | succ n ih =>
      rw [clmulBits, polyOf_xor, ih, Finset.sum_range_succ, mul_add]
      split
      · rw [polyOf_shiftLeft]
      · rw [polyOf_zero, mul_zero]
  exact hbits _

theorem degree_polyOf_lt {n k : Nat} (h : n < 2 ^ k) : (polyOf n).degree < k :=
  (Polynomial.degree_lt_iff_coeff_zero _ _).2 fun i hi => by
    rw [coeff_polyOf, Nat.testBit_lt_two_pow (Nat.lt_of_lt_of_le h (Nat.pow_le_pow_right (by decide) hi))]; rfl

/-! ### The class of a number modulo the generator -/

/-- The class modulo the generator of the polynomial that a number stands for. -/
noncomputable def residueClass (g n : Nat) : AdjoinRoot (polyOf g) := AdjoinRoot.mk (polyOf g) (polyOf n)

theorem residueClass_one (g : Nat) : residueClass g 1 = 1 := by rw [residueClass, polyOf_one, map_one]

theorem residueClass_xor (g a b : Nat) : residueClass g (a ^^^ b) = residueClass g a + residueClass g b := by
  rw [residueClass, polyOf_xor, map_add]; rfl

theorem residueClass_clmul (g a b : Nat) : residueClass g (clmul a b) = residueClass g a * residueClass g b := by
  rw [residueClass, polyOf_clmul, map_mul]; rfl

/-- A multiple of the generator is 0 modulo the generator. -/
theorem residueClass_shiftLeft_generator (g k : Nat) : residueClass g (g <<< k) = 0 := by
  rw [residueClass, polyOf_shiftLeft, map_mul, AdjoinRoot.mk_self, zero_mul]

/-- A turn of the bit-serial loop keeps the class (R73). -/
theorem residueClass_xor_generator (g a k : Nat) : residueClass g (a ^^^ (g <<< k)) = residueClass g a := by
  rw [residueClass_xor, residueClass_shiftLeft_generator, add_zero]

theorem residueClass_red (g a : Nat) : residueClass g (red g a) = residueClass g a := by
  have hsteps (k a : Nat) : residueClass g (redSteps g k a) = residueClass g a := by
    induction k generalizing a with
    | zero => rfl
    | succ k ih =>
      rw [redSteps, ih]
      split
      · exact residueClass_xor_generator g a k
      · rfl
  exact hsteps _ a

/-- Square and multiply: the loop ends with the product of `r` and the power (R76). -/
theorem residueClass_powLoop (g fuel r base e : Nat) (h : e < 2 ^ fuel) :
    residueClass g (powLoop g fuel r base e) = residueClass g r * residueClass g base ^ e := by
  induction fuel generalizing r base e with
  | zero =>
    obtain rfl : e = 0 := Nat.lt_one_iff.1 h
    rw [pow_zero, mul_one]; rfl
  | succ fuel ih =>
    rw [powLoop]
    split
    · next he => rw [he, pow_zero, mul_one]
    · have hhalf : e >>> 1 = e / 2 := Nat.shiftRight_one e
      rw [ih _ _ _ (by omega), residueClass_red, residueClass_clmul, ← pow_two, ← pow_mul, hhalf]
      simp only [Nat.testBit_zero, decide_eq_true_eq]
      split
      · have he : 2 * (e / 2) + 1 = e := by omega
        rw [residueClass_red, residueClass_clmul, mul_assoc, ← pow_succ', he]
      · have he : 2 * (e / 2) = e := by omega
        rw [he]

theorem residueClass_powMod (g a e : Nat) : residueClass g (powMod g a e) = residueClass g a ^ e := by
  rw [powMod, residueClass_powLoop _ _ _ _ _ Nat.lt_log2_self, residueClass_one, residueClass_red, one_mul]

/-! ### Generators of degree 16 (R6) -/

/-- The number of a generator of degree 16. -/
structure Degree16 (g : Nat) : Prop where
  lt : g < 2 ^ 17
  top : g.testBit 16 = true

theorem degree16_of_getLsbD {gen : BitVec 17} (h : gen.getLsbD 16 = true) : Degree16 gen.toNat := ⟨gen.isLt, h⟩

section
variable {g a b n : Nat} {p : Polynomial (ZMod 2)}

theorem Degree16.degree_polyOf (hg : Degree16 g) : (polyOf g).degree = (16 : Nat) :=
  Polynomial.degree_eq_of_le_of_coeff_ne_zero (Order.lt_succ_iff.1 (degree_polyOf_lt hg.lt))
    (by rw [coeff_polyOf, hg.top]; decide)

theorem Degree16.monic_polyOf (hg : Degree16 g) : (polyOf g).Monic :=
  Polynomial.monic_of_degree_le 16 hg.degree_polyOf.le (by rw [coeff_polyOf, hg.top]; rfl)

/-- A 16-bit value is its own remainder (R72). -/
theorem polyOf_modByMonic_of_lt (hg : Degree16 g) (hn : n < 2 ^ 16) : polyOf n %ₘ polyOf g = polyOf n :=
  (Polynomial.modByMonic_eq_self_iff hg.monic_polyOf).2 (hg.degree_polyOf ▸ degree_polyOf_lt hn)

/-- A 16-bit value in the class of a polynomial stands for its remainder. -/
theorem polyOf_eq_modByMonic (hg : Degree16 g) (hn : n < 2 ^ 16)
    (h : residueClass g n = AdjoinRoot.mk (polyOf g) p) : polyOf n = p %ₘ polyOf g :=
  (polyOf_modByMonic_of_lt hg hn).symm.trans
    (Polynomial.modByMonic_eq_of_dvd_sub hg.monic_polyOf (AdjoinRoot.mk_eq_mk.1 h))

/-- The 16-bit values are in different classes (R72). -/
theorem eq_of_residueClass_eq (hg : Degree16 g) (ha : a < 2 ^ 16) (hb : b < 2 ^ 16)
    (h : residueClass g a = residueClass g b) : a = b :=
  polyOf_injective ((polyOf_eq_modByMonic hg ha h).trans (polyOf_modByMonic_of_lt hg hb))

/-! ### The range of the reduction (R72) -/

theorem red_lt (hg : Degree16 g) (a : Nat) : red g a < 2 ^ 16 := by
  have ha : a < 2 ^ (a + Config.deg) := Nat.lt_of_le_of_lt (Nat.le_add_right ..) Nat.lt_two_pow_self
  rw [red_eq_redSteps g a a ha]
  exact redSteps_lt g a a hg.lt hg.top ha

theorem red_of_lt (g : Nat) (h : a < 2 ^ 16) : red g a = a := red_eq_redSteps g 0 a h

theorem polyOf_red (hg : Degree16 g) (a : Nat) : polyOf (red g a) = polyOf a %ₘ polyOf g :=
  polyOf_eq_modByMonic hg (red_lt hg a) (residueClass_red g a)

/-- Equal classes have equal reductions. -/
theorem red_congr (hg : Degree16 g) (h : residueClass g a = residueClass g b) : red g a = red g b :=
  eq_of_residueClass_eq hg (red_lt hg a) (red_lt hg b) (by rw [residueClass_red, residueClass_red, h])

theorem red_generator (hg : Degree16 g) : red g g = 0 := by
  have h := red_congr hg (residueClass_xor_generator g g 0)
  rwa [Nat.shiftLeft_zero, Nat.xor_self, red_zero, eq_comm] at h

theorem powMod_lt (hg : Degree16 g) (a e : Nat) : powMod g a e < 2 ^ 16 := by
  have hloop (fuel r base e : Nat) (hr : r < 2 ^ 16) : powLoop g fuel r base e < 2 ^ 16 := by
    induction fuel generalizing r base e with
    | zero => exact hr
    | succ fuel ih =>
      rw [powLoop]
      split
      · exact hr
      · refine ih _ _ _ ?_
        split
        · exact red_lt hg _
        · exact hr
  exact hloop _ _ _ _ (by decide)

/-! ### The bit-serial loop (R73) -/

/-- A sum of two polynomials of one degree has a lower degree. -/
theorem xor_lt_of_testBit {k : Nat} (ha : a < 2 ^ (k + 1)) (hb : b < 2 ^ (k + 1)) (hak : a.testBit k = true)
    (hbk : b.testBit k = true) : a ^^^ b < 2 ^ k :=
  Nat.lt_pow_two_of_testBit _ fun i hi => by
    obtain rfl | hi := hi.eq_or_lt
    · rw [Nat.testBit_xor, hak, hbk]; rfl
    · exact Nat.testBit_lt_two_pow
        (Nat.lt_of_lt_of_le (Nat.xor_lt_two_pow ha hb) (Nat.pow_le_pow_right (by decide) hi))

/-- A turn of the bit-serial loop clears the highest set bit. -/
theorem xor_generator_lt (hg : Degree16 g) (h : 16 ≤ a.log2) (h0 : a ≠ 0) :
    a ^^^ (g <<< (a.log2 - 16)) < 2 ^ a.log2 := by
  have hlt : g <<< (a.log2 - 16) < 2 ^ (a.log2 + 1) := by
    rw [show a.log2 + 1 = 17 + (a.log2 - 16) by omega, pow_add, Nat.shiftLeft_eq]
    exact Nat.mul_lt_mul_of_pos_right hg.lt (Nat.two_pow_pos _)
  have htop : (g <<< (a.log2 - 16)).testBit a.log2 = true := by
    rw [Nat.testBit_shiftLeft, Nat.sub_sub_self h, hg.top]; simp
  exact xor_lt_of_testBit Nat.lt_log2_self hlt (Nat.testBit_log2 h0) htop

end

/-- Settles O15: the reduction stays in its class, and is the one 16-bit value there. -/
theorem reductionRange : Obligations.ReductionRange := by
  intro gen h16
  have hg := degree16_of_getLsbD h16
  have hrange (r : Nat) : (∃ a, red gen.toNat a = r) ↔ r < 2 ^ 16 :=
    ⟨fun ⟨a, ha⟩ => ha ▸ red_lt hg a, fun hr => ⟨r, red_of_lt _ hr⟩⟩
  exact ⟨polyOf_red hg, red_lt hg, fun a => red_of_lt _, red_generator hg, hrange⟩

/-- Settles O16: a turn of the loop clears the highest set bit and keeps the class. -/
theorem bitSerialReduction : Obligations.BitSerialReduction := by
  intro gen h16 a
  have hg := degree16_of_getLsbD h16
  refine ⟨fun h h0 => ⟨xor_generator_lt hg h h0, red_congr hg (residueClass_xor_generator ..).symm⟩, ?_⟩
  rintro (rfl | h)
  · exact red_zero _
  · exact red_of_lt _ (Nat.lt_of_lt_of_le Nat.lt_log2_self (Nat.pow_le_pow_right (by decide) h))

end Sys2Proof.Machine
end

section
/-! PROOFS. The polynomial commands (40_poly.md R74 to R78): each leaves in `Y` the 16-bit value of a class modulo the
generator (`PADD` the plain sum), so their laws are the laws of the ring of classes. -/

namespace Sys2Proof.Machine
open Sys2Proof.Spec

/-- The word `y` is the 16-bit value of the class `c` modulo the generator `g`. -/
structure IsResidueOf (g : Nat) (y : Word) (c : AdjoinRoot (polyOf g)) : Prop where
  lt : y.toNat < 2 ^ 16
  residueClass_eq : residueClass g y.toNat = c

section
variable {g n : Nat} {u v : Word} {c d : AdjoinRoot (polyOf g)}

/-- A residue fits its register (R72). -/
theorem toNat_ofNat_residue (hn : n < 2 ^ 16) : (BitVec.ofNat 32 n).toNat = n :=
  (BitVec.toNat_ofNat ..).trans (Nat.mod_eq_of_lt (Nat.lt_trans hn (by decide)))

theorem isResidueOf_ofNat (hn : n < 2 ^ 16) (hc : residueClass g n = c) : IsResidueOf g (BitVec.ofNat 32 n) c where
  lt := by rwa [toNat_ofNat_residue hn]
  residueClass_eq := by rwa [toNat_ofNat_residue hn]

/-- A class has one 16-bit value. -/
theorem IsResidueOf.unique (hg : Degree16 g) (hu : IsResidueOf g u c) (hv : IsResidueOf g v d) (h : c = d) : u = v :=
  BitVec.eq_of_toNat_eq (eq_of_residueClass_eq hg hu.lt hv.lt (by rw [hu.residueClass_eq, h, hv.residueClass_eq]))

theorem IsResidueOf.xor (hu : IsResidueOf g u c) (hv : IsResidueOf g v d) : IsResidueOf g (u ^^^ v) (c + d) where
  lt := by rw [BitVec.toNat_xor]; exact Nat.xor_lt_two_pow hu.lt hv.lt
  residueClass_eq := by rw [BitVec.toNat_xor, residueClass_xor, hu.residueClass_eq, hv.residueClass_eq]

/-- The 16-bit value of a polynomial's class stands for the polynomial's remainder. -/
theorem IsResidueOf.polyOf_eq (hg : Degree16 g) {p : Polynomial (ZMod 2)}
    (hu : IsResidueOf g u (AdjoinRoot.mk (polyOf g) p)) : polyOf u.toNat = p %ₘ polyOf g :=
  polyOf_eq_modByMonic hg hu.lt hu.residueClass_eq

end

/-! ### What each command leaves in `Y` (R75 to R77) -/

section
variable {s : State}

theorem State.degree16_g (hs : s.genOk = true) : Degree16 s.g := degree16_of_getLsbD hs

theorem yOf_pmulm (hs : s.genOk = true) (a b : Word) :
    IsResidueOf s.g (yOf .pmulm s a b) (residueClass s.g a.toNat * residueClass s.g b.toNat) :=
  isResidueOf_ofNat (red_lt (State.degree16_g hs) _) ((residueClass_red ..).trans (residueClass_clmul ..))

theorem yOf_ppowm (hs : s.genOk = true) (a e : Word) :
    IsResidueOf s.g (yOf .ppowm s a e) (residueClass s.g a.toNat ^ e.toNat) :=
  isResidueOf_ofNat (powMod_lt (State.degree16_g hs) ..) (residueClass_powMod ..)

theorem yOf_prem (hs : s.genOk = true) (a b : Word) : IsResidueOf s.g (yOf .prem s a b) (residueClass s.g a.toNat) :=
  isResidueOf_ofNat (red_lt (State.degree16_g hs) _) (residueClass_red ..)

end

/-! ### The exponents of x modulo the default generator (R76, R90) -/

theorem powMod_two_255 : powMod 0x16F63 2 255 = 1 := by decide +kernel

theorem powMod_two_mod_255 (e : Nat) : powMod 0x16F63 2 e = powMod 0x16F63 2 (e % 255) := by
  have hg : Degree16 0x16F63 := ⟨by decide, by decide⟩
  have hone : residueClass 0x16F63 2 ^ 255 = 1 := by rw [← residueClass_powMod, powMod_two_255, residueClass_one]
  refine eq_of_residueClass_eq hg (powMod_lt hg ..) (powMod_lt hg ..) ?_
  rw [residueClass_powMod, residueClass_powMod]
  exact pow_eq_pow_mod e hone

/-- Settles O11: the sum of polynomials over GF(2) is exclusive or. -/
theorem paddAddsPolynomials : Obligations.PaddAddsPolynomials :=
  ⟨rfl, fun s => ⟨rfl, by rw [BitVec.toNat_xor, polyOf_xor]⟩⟩

/-- Settles O12: `Y` is the 16-bit value of the class of the product. -/
theorem pmulmMultipliesModuloTheGenerator : Obligations.PmulmMultipliesModuloTheGenerator := by
  refine ⟨rfl, fun s hs => ?_⟩
  have hy := yOf_pmulm hs s.a s.b
  rw [residueClass, residueClass, ← map_mul] at hy
  exact ⟨_, rfl, hy.lt, hy.polyOf_eq (State.degree16_g hs)⟩

/-- Settles O13: `Y` is the 16-bit value of the class of the power. -/
theorem ppowmRaisesToThePower : Obligations.PpowmRaisesToThePower := by
  refine ⟨rfl, fun s hs => ?_⟩
  have hy := yOf_ppowm hs s.a s.b
  rw [residueClass, ← map_pow] at hy
  refine ⟨_, rfl, hy.lt, hy.polyOf_eq (State.degree16_g hs), fun hgen ha => ?_⟩
  rw [toNat_ofNat_residue (powMod_lt (State.degree16_g hs) ..), State.g, hgen, ha]
  exact powMod_two_mod_255 _

/-- Settles O14: `Y` is the 16-bit value of the class of `A`. -/
theorem premIsThePolynomialRemainder : Obligations.PremIsThePolynomialRemainder := by
  refine ⟨rfl, fun s hs => ?_⟩
  have hy := yOf_prem hs s.a s.b
  exact ⟨_, rfl, hy.lt, hy.polyOf_eq (State.degree16_g hs), fun _ => rfl⟩

/-- Settles O17: each law holds in the ring of classes, where a 16-bit value is known by its class. -/
theorem polynomialCommandLaws : Obligations.PolynomialCommandLaws := by
  intro s hs
  have hg := State.degree16_g hs
  have hmul := yOf_pmulm hs
  have hrem := yOf_prem hs
  have hpow := yOf_ppowm hs
  refine ⟨fun a b => BitVec.xor_comm a b, fun a b c => BitVec.xor_assoc a b c, fun a => BitVec.xor_zero,
    fun a => BitVec.xor_self, fun a b => ?mulComm, fun a b c _ _ _ => ?mulAssoc, fun a b => ?mulReduced,
    fun a b c => ?mulXor, fun a b => ?remXor, fun a m n hmn => ?powAdd⟩
  case mulComm => exact (hmul a b).unique hg (hmul b a) (mul_comm ..)
  case mulAssoc =>
    refine (hmul ..).unique hg (hmul ..) ?_
    rw [(hmul a b).residueClass_eq, (hmul b c).residueClass_eq, mul_assoc]
  case mulReduced =>
    refine (hmul ..).unique hg (hmul ..) ?_
    rw [(hrem a 0).residueClass_eq, (hrem b 0).residueClass_eq]
  case mulXor =>
    refine (hmul ..).unique hg ((hmul a b).xor (hmul a c)) ?_
    rw [BitVec.toNat_xor, residueClass_xor, mul_add]
  case remXor =>
    refine (hrem ..).unique hg ((hrem a 0).xor (hrem b 0)) ?_
    rw [BitVec.toNat_xor, residueClass_xor]
  case powAdd =>
    refine (hpow ..).unique hg (hmul ..) ?_
    rw [(hpow a m).residueClass_eq, (hpow a n).residueClass_eq, BitVec.toNat_add_of_lt hmn, pow_add]

end Sys2Proof.Machine
end

section
/-! PROOFS. The residue of a byte buffer (41_syndrome_table.md R79 to R84): it is the sum of the powers of x at the set
positions, it is what shifting the bytes in leaves, and the last two bytes of a buffer enter it as they are. -/

namespace Sys2Proof.Machine
open Sys2Proof.Spec

/-! ### The polynomial of a buffer (R79, R80) -/

theorem patPoly_append (ps qs : List Nat) : patPoly (ps ++ qs) = patPoly ps ^^^ patPoly qs := by
  induction ps with
  | nil => exact (Nat.zero_xor _).symm
  | cons p ps ih => exact (congrArg ((1 <<< p) ^^^ ·) ih).trans (Nat.xor_assoc ..).symm

/-- The positions of the set bits of a byte that `n` bytes follow (R79). -/
def bytePositions (n : Nat) (c : Byte) : List Nat :=
  (List.range 8).filterMap fun j => if c.getLsbD j then some (8 * n + j) else none

theorem mem_bytePositions (n : Nat) (c : Byte) (p : Nat) :
    p ∈ bytePositions n c ↔ 8 * n ≤ p ∧ c.getLsbD (p - 8 * n) = true := by
  simp only [bytePositions, List.mem_filterMap, List.mem_range, Option.ite_none_right_eq_some, Option.some.injEq]
  constructor
  · rintro ⟨j, -, hc, rfl⟩
    exact ⟨Nat.le_add_right .., by rwa [Nat.add_sub_cancel_left]⟩
  · rintro ⟨hp, hc⟩
    exact ⟨p - 8 * n, BitVec.lt_of_getLsbD hc, hc, Nat.add_sub_cancel' hp⟩

theorem nodup_bytePositions (n : Nat) (c : Byte) : (bytePositions n c).Nodup :=
  List.nodup_range.filterMap fun i j p hi hj => by
    simp only [Option.mem_def, Option.ite_none_right_eq_some, Option.some.injEq] at hi hj
    omega

/-- The head byte of a buffer lies above the positions of the bytes that follow it. -/
theorem setPositions_cons (c : Byte) (buf : List Byte) :
    setPositions (c :: buf) = bytePositions buf.length c ++ setPositions buf := by
  rw [setPositions, List.length_cons, List.range_succ_eq_map (n := buf.length), List.flatMap_cons, List.flatMap_map]
  refine congrArg₂ (· ++ ·) rfl (List.flatMap_congr fun b _ => ?_)
  rw [List.getD_cons_succ, show buf.length + 1 - 1 - b.succ = buf.length - 1 - b by omega]

theorem patPoly_bytePositions (n : Nat) (c : Byte) : patPoly (bytePositions n c) = c.toNat <<< (8 * n) :=
  Nat.eq_of_testBit_eq fun p => by
    rw [testBit_patPoly (nodup_bytePositions n c), Nat.testBit_shiftLeft, Bool.eq_iff_iff, decide_eq_true_iff,
      mem_bytePositions, Bool.and_eq_true, decide_eq_true_iff]
    rfl

/-- A buffer stands for the sum of the powers of x at its set positions. -/
theorem bufPoly_eq_patPoly (buf : List Byte) : bufPoly buf = patPoly (setPositions buf) := by
  induction buf with
  | nil => rfl
  | cons c buf ih => rw [setPositions_cons, patPoly_append, patPoly_bytePositions, bufPoly, ih]

theorem bufPoly_replicate_zero (n : Nat) : bufPoly (List.replicate n 0) = 0 := by
  induction n with
  | zero => rfl
  | succ n ih => rw [List.replicate_succ, bufPoly, ih, Nat.xor_zero]; exact Nat.zero_shiftLeft _

theorem bufPoly_append (P Q : List Byte) : bufPoly (P ++ Q) = (bufPoly P <<< (8 * Q.length)) ^^^ bufPoly Q := by
  induction P with
  | nil => rw [bufPoly, Nat.zero_shiftLeft, Nat.zero_xor, List.nil_append]
  | cons c P ih =>
    rw [List.cons_append, bufPoly, bufPoly, ih, Nat.shiftLeft_xor_distrib, ← Nat.shiftLeft_add, ← Nat.mul_add,
      ← List.length_append, Nat.xor_assoc]

/-! ### Sums of powers of x (R80) -/

theorem xorAll_map (f : Nat → Nat) (ps : List Nat) :
    xorAll (ps.map f) = ps.foldr (fun p acc => f p ^^^ acc) 0 := by
  rw [xorAll, List.foldl_eq_foldr, List.foldr_map]

theorem red_patPoly (g : Nat) (ps : List Nat) : red g (patPoly ps) = xorAll (ps.map fun p => red g (1 <<< p)) := by
  rw [xorAll_map]
  induction ps with
  | nil => exact red_zero g
  | cons p ps ih => rw [List.foldr_cons, ← ih]; exact red_xor ..

theorem polyOf_two : polyOf 2 = Polynomial.X := by
  have h := polyOf_shiftLeft 1 1
  rwa [polyOf_one, one_mul, pow_one] at h

theorem residueClass_shiftLeft (g a n : Nat) : residueClass g (a <<< n) = residueClass g a * residueClass g 2 ^ n := by
  rw [residueClass, residueClass, residueClass, polyOf_shiftLeft, map_mul, map_pow, polyOf_two]

/-- The reduced power of x is the power of x modulo the generator (R80). -/
theorem red_one_shiftLeft {g : Nat} (hg : Degree16 g) (p : Nat) : red g (1 <<< p) = powMod g 2 p := by
  refine eq_of_residueClass_eq hg (red_lt hg _) (powMod_lt hg ..) ?_
  rw [residueClass_red, residueClass_shiftLeft, residueClass_powMod, residueClass_one, one_mul]

theorem toNat_residue {g : Nat} (hg : Degree16 g) (buf : List Byte) : (residue g buf).toNat = red g (bufPoly buf) :=
  (BitVec.toNat_ofNat ..).trans (Nat.mod_eq_of_lt (red_lt hg _))

/-- Settles O18: a buffer is the sum of its positions' powers, and the reduction is linear. -/
theorem residueSumsPowersOfX : Obligations.ResidueSumsPowersOfX := by
  intro gen h16
  have hg := degree16_of_getLsbD h16
  refine ⟨fun buf => ?_, fun n => ?_⟩
  · rw [toNat_residue hg, bufPoly_eq_patPoly]
    refine ⟨congrArg _ (xorAll_map ..).symm, (red_patPoly ..).trans (congrArg xorAll ?_)⟩
    exact List.map_congr_left fun p _ => red_one_shiftLeft hg p
  · rw [residue, bufPoly_replicate_zero, red_zero]; rfl

/-! ### Shifting bytes in (R81) -/

/-- Below the bits of a shifted number, exclusive or is addition. -/
theorem shiftLeft_xor_of_lt (a : Nat) {b n : Nat} (h : b < 2 ^ n) : (a <<< n) ^^^ b = (a <<< n) + b := by
  rw [Nat.shiftLeft_add_eq_or_of_lt h]
  refine Nat.eq_of_testBit_eq fun i => ?_
  rw [Nat.testBit_xor, Nat.testBit_or, Nat.testBit_shiftLeft]
  obtain hi | hi := Nat.lt_or_ge i n
  · simp [Nat.not_le.2 hi]
  · have hb : b.testBit i = false :=
      Nat.testBit_lt_two_pow (Nat.lt_of_lt_of_le h (Nat.pow_le_pow_right (by decide) hi))
    rw [hb, Bool.xor_false, Bool.or_false]

/-- A function that shifts one byte into a number, up to its class modulo the generator. -/
def ShiftsIn (g : Nat) (f : Nat → Byte → Nat) : Prop :=
  ∀ r c, residueClass g (f r c) = residueClass g ((r <<< 8) ^^^ c.toNat)

section
variable {g : Nat} {f : Nat → Byte → Nat}

theorem residueClass_foldl (hf : ShiftsIn g f) (r : Nat) (buf : List Byte) :
    residueClass g (buf.foldl f r) = residueClass g ((r <<< (8 * buf.length)) ^^^ bufPoly buf) := by
  induction buf generalizing r with
  | nil => rw [List.length_nil, Nat.mul_zero, Nat.shiftLeft_zero, bufPoly, Nat.xor_zero]; rfl
  | cons c buf ih =>
    have hlen : 8 * (buf.length + 1) = 8 + 8 * buf.length := by omega
    rw [List.foldl_cons, ih, residueClass_xor, residueClass_shiftLeft, hf, ← residueClass_shiftLeft, ← residueClass_xor,
      Nat.shiftLeft_xor_distrib, Nat.xor_assoc, ← Nat.shiftLeft_add, List.length_cons, hlen, bufPoly]

/-- Shifting a buffer's bytes into 0 leaves the buffer's polynomial. -/
theorem residueClass_foldl_zero (hf : ShiftsIn g f) (buf : List Byte) :
    residueClass g (buf.foldl f 0) = residueClass g (bufPoly buf) := by
  rw [residueClass_foldl hf, Nat.zero_shiftLeft, Nat.zero_xor]

/-- A loop that shifts bytes in and stays below degree 16 ends with the residue. -/
theorem toNat_residue_eq_foldl (hg : Degree16 g) (hf : ShiftsIn g f) (hlt : ∀ r c, f r c < 2 ^ 16) (buf : List Byte) :
    (residue g buf).toNat = buf.foldl f 0 := by
  have hfold : buf.foldl f 0 < 2 ^ 16 :=
    List.foldlRecOn buf f (motive := (· < 2 ^ 16)) (by decide) fun r _ c _ => hlt r c
  rw [toNat_residue hg]
  exact eq_of_residueClass_eq hg (red_lt hg _) hfold (by rw [residueClass_red, residueClass_foldl_zero hf])

theorem shiftsIn_integer (g : Nat) : ShiftsIn g fun N c => N * 256 + c.toNat := fun N c => by
  rw [shiftLeft_xor_of_lt N c.isLt, Nat.shiftLeft_eq]

theorem shiftsIn_horner (g : Nat) : ShiftsIn g fun r c => red g ((r <<< 8) ^^^ c.toNat) :=
  fun _ _ => residueClass_red ..

end

/-! ### The bit-serial form (R81) -/

/-- One turn of the bit-serial loop: shift bit `j` of the byte in and reduce. -/
def shiftInBit (g : Nat) (c : Byte) (r j : Nat) : Nat := red g ((r <<< 1) ^^^ (if c.getLsbD j then 1 else 0))

theorem mod_two_pow_succ_xor (n k : Nat) :
    n % 2 ^ (k + 1) = ((if n.testBit k then 1 else 0) <<< k) ^^^ (n % 2 ^ k) := by
  rw [shiftLeft_xor_of_lt _ (Nat.mod_lt _ (Nat.two_pow_pos k)), Nat.mod_pow_succ, Nat.shiftLeft_eq, Nat.add_comm,
    Nat.mul_comm, Nat.testBit_eq_decide_div_mod_eq]
  obtain h | h := Nat.mod_two_eq_zero_or_one (n / 2 ^ k) <;> rw [h] <;> rfl

/-- The turns for the bits below `n`, from bit `n − 1` down, shift the low `n` bits in. -/
theorem residueClass_shiftInBits (g : Nat) (c : Byte) (n r : Nat) :
    residueClass g ((List.range n).reverse.foldl (shiftInBit g c) r) =
      residueClass g ((r <<< n) ^^^ (c.toNat % 2 ^ n)) := by
  induction n generalizing r with
  | zero => rw [pow_zero, Nat.mod_one, Nat.shiftLeft_zero, Nat.xor_zero]; rfl
  | succ n ih =>
    rw [List.range_succ, List.reverse_append, List.reverse_singleton, List.singleton_append, List.foldl_cons, ih,
      residueClass_xor, residueClass_shiftLeft, shiftInBit, residueClass_red, ← residueClass_shiftLeft,
      ← residueClass_xor, Nat.shiftLeft_xor_distrib, ← Nat.shiftLeft_add, Nat.add_comm 1 n, Nat.xor_assoc,
      mod_two_pow_succ_xor]
    rfl

theorem shiftsIn_bitSerial (g : Nat) : ShiftsIn g (shiftInByte g) := fun r c => by
  have h := residueClass_shiftInBits g c 8 r
  rwa [Nat.mod_eq_of_lt c.isLt] at h

/-- Settles O19: each form shifts the bytes in, so it ends in the buffer's class. -/
theorem residueEquivalentForms : Obligations.ResidueEquivalentForms := by
  intro gen h16 buf
  have hg := degree16_of_getLsbD h16
  refine ⟨?_, toNat_residue_eq_foldl hg (shiftsIn_horner _) (fun r c => red_lt hg _) buf,
    toNat_residue_eq_foldl hg (shiftsIn_bitSerial _) (fun r c => red_lt hg _) buf⟩
  rw [toNat_residue hg]
  exact red_congr hg (residueClass_foldl_zero (shiftsIn_integer _) buf).symm

/-- Settles O20: the reduction and the polynomial of a buffer are linear. -/
theorem residueIsLinear : Obligations.ResidueIsLinear := fun gen _ _ _ h => residue_xorBytes gen.toNat h

/-! ### The wire convention (R83, R84) -/

theorem uninvert_append_pair (P : List Byte) (c d : Byte) :
    uninvert (P ++ [c, d]) = P ++ [c ^^^ 0xFF, d ^^^ 0xFF] := by
  have hlen : (P ++ [c, d]).length - Config.crcBytes = P.length := by simp [Config.crcBytes]
  rw [uninvert, hlen, List.take_left, List.drop_left]; rfl

theorem frameValid_iff (g : Nat) (F : List Byte) : frameValid g F = true ↔ residue g (uninvert F) = 0 := beq_iff_eq

theorem bufPoly_pair (c d : Byte) : bufPoly [c, d] = (c ++ d).toNat := by
  rw [BitVec.toNat_append, ← Nat.shiftLeft_add_eq_or_of_lt d.isLt, ← shiftLeft_xor_of_lt _ d.isLt]
  exact congrArg (c.toNat <<< 8 ^^^ ·) (Nat.xor_zero _)

/-- The last two bytes lie below degree 16, so they enter the residue as they are. -/
theorem residue_append_pair (g : Nat) (P : List Byte) (c d : Byte) :
    residue g (P ++ [c, d]) = residue g (P ++ [0, 0]) ^^^ (c ++ d) := by
  have hzero : bufPoly [0, 0] = 0 := rfl
  rw [residue, residue, bufPoly_append, bufPoly_append, red_xor, red_xor, hzero, red_zero, Nat.xor_zero,
    BitVec.ofNat_xor, bufPoly_pair, red_of_lt g (c ++ d).isLt, BitVec.ofNat_toNat, BitVec.setWidth_eq]
  rfl

theorem append_eq_iff (c d : Byte) (r : BitVec 16) : c ++ d = r ↔ c = r.extractLsb' 8 8 ∧ d = r.extractLsb' 0 8 := by
  constructor
  · rintro rfl
    exact ⟨BitVec.extractLsb'_append_eq_left.symm, BitVec.extractLsb'_append_eq_right.symm⟩
  · rintro ⟨rfl, rfl⟩
    exact BitVec.extractLsb'_append_extractLsb'

theorem xor_crcInv (c : Byte) : c ^^^ 0xFF = ~~~c := BitVec.xor_allOnes

/-- Settles O21: the bytes that clear the residue are its two halves, and complementing them adds `0xFFFF`. -/
theorem wireConvention : Obligations.WireConvention := by
  intro gen _ P c d
  have hvalid : frameValid gen.toNat (P ++ [c, d]) = true ↔ residue gen.toNat (P ++ [c ^^^ 0xFF, d ^^^ 0xFF]) = 0 := by
    rw [frameValid_iff, uninvert_append_pair]
  have hclear : residue gen.toNat (P ++ [c ^^^ 0xFF, d ^^^ 0xFF]) = 0 ↔
      ~~~(c ++ d) = residue gen.toNat (P ++ [0, 0]) := by
    rw [residue_append_pair, xor_crcInv, xor_crcInv, ← BitVec.not_append, eq_comm (a := ~~~(c ++ d))]
    exact BitVec.xor_eq_zero_iff
  refine ⟨uninvert_append_pair P c d, hvalid, ?_, fun h => ?_⟩
  · rw [hvalid, hclear, BitVec.not_append, append_eq_iff, BitVec.not_eq_comm, BitVec.not_eq_comm]
  · rw [residue_append_pair, ← hclear.1 (hvalid.1 h), ← BitVec.not_xor_left, BitVec.xor_self]; rfl

end Sys2Proof.Machine
end

section
/-! PROOFS. The byte form of an error pattern (41_syndrome_table.md R85): its set bits are the pattern's positions. -/

namespace Sys2Proof.Machine
open Sys2Proof.Spec

theorem getD_patBytes {L b : Nat} (hb : b < L) (E : ErrPattern) :
    (patBytes L E).getD b 0 = patByte E.positions (L - 1 - b) := by
  rw [patBytes, List.getD_eq_getElem _ _ (by simpa using hb), List.getElem_map, List.getElem_range]

theorem popcount_patByte (ps : List Nat) (q : Nat) :
    popcount (patByte ps q) = (List.range 8).countP fun t => decide (8 * q + t ∈ ps) :=
  List.countP_congr fun t ht => by rw [getLsbD_patByte ps q t (List.mem_range.1 ht)]

/-- The bytes of a pattern count its positions among those of the frame. -/
theorem sum_popcount_patBytes (L : Nat) (E : ErrPattern) :
    ((patBytes L E).map popcount).sum = (List.range (8 * L)).countP fun p => decide (p ∈ E.positions) := by
  induction L with
  | zero => rfl
  | succ L ih =>
    rw [patBytes_succ, List.map_cons, List.sum_cons, ih, popcount_patByte, Nat.mul_succ, List.range_add,
      List.countP_append, List.countP_map, Nat.add_comm]
    rfl

theorem countP_range_mem {ps : List Nat} (hps : ps.Nodup) {n : Nat} (hlt : ∀ p ∈ ps, p < n) :
    ((List.range n).countP fun p => decide (p ∈ ps)) = ps.length := by
  rw [List.countP_eq_length_filter]
  refine ((List.perm_ext_iff_of_nodup (List.nodup_range.filter _) hps).2 fun p => ?_).length_eq
  rw [List.mem_filter, List.mem_range, decide_eq_true_iff]
  exact ⟨And.right, fun hp => ⟨hlt p hp, hp⟩⟩

/-- Settles O24: each byte holds the positions of its eight bits, and each position is one bit. -/
theorem patternBytesHaveThePatternSyndrome : Obligations.PatternBytesHaveThePatternSyndrome := by
  intro gen h16 L E hE
  refine ⟨length_patBytes L E, fun b j hb hj => ?_, ?_, ?_⟩
  · rw [getD_patBytes hb, getLsbD_patByte _ _ _ hj]
  · rw [toNat_residue (degree16_of_getLsbD h16), bufPoly_patBytes hE, patSyn]
  · obtain ⟨hasc, hlt⟩ := hE
    exact (sum_popcount_patBytes L E).trans (countP_range_mem (hasc.imp Nat.ne_of_lt) hlt)

end Sys2Proof.Machine
end

section
/-! PROOFS. `SYND` (41_syndrome_table.md R92): its word, the slice it reads, and its errors. -/

namespace Sys2Proof.Machine
open Sys2Proof.Spec

/-- The word of a command with fields, as its shifted fields (R61). -/
theorem mkWord_eq_or (opc len : BitVec 8) (imm : BitVec 16) :
    mkWord opc len imm = (opc.setWidth 32 <<< 24) ||| (len.setWidth 32 <<< 16) ||| imm.setWidth 32 := by
  have h := BitVec.setWidth_append_append_eq_shiftLeft_setWidth_or (w''' := 32) (b := opc) (b' := len) (b'' := imm)
  rwa [BitVec.setWidth_eq] at h

/-- The two descriptions of un-inversion agree (R83). -/
theorem uninvert_eq_invertLastTwo (F : List Byte) : uninvert F = invertLastTwo F := by
  refine List.ext_getElem? fun k => ?_
  rw [invertLastTwo, List.getElem?_mapIdx, uninvert, List.getElem?_append, List.length_take, Config.crcBytes]
  by_cases hk : k + 2 < F.length
  · have hk' : k < F.length - 2 := by omega
    rw [if_pos (by omega), List.getElem?_take_of_lt hk']
    simp [hk]
  · have hk' : F.length - 2 + (k - min (F.length - 2) F.length) = k := by omega
    rw [if_neg (by omega), List.getElem?_map, List.getElem?_drop, hk']
    simp [hk, Config.crcInv]

theorem bytes_sliceOf (s : State) (n : Nat) : SliceOf s n (s.bytes n) :=
  ⟨s.length_bytes n, fun k v hk hv => by
    rw [s.getElem?_bytes n k hk, s.readEntry_of_written (bytebufAddr k) k v hv]⟩

theorem execSynd_of_lenOk {len : BitVec 8} {inv : Bool} (h : syndLenOk len inv = true) (s : State) :
    exec (.synd len inv) s = .next { s with
      syn := residue s.gen.toNat (if inv then invertLastTwo (s.bytes len.toNat) else s.bytes len.toNat)
      drawCount := s.drawCount + len.toNat } := by
  rw [← uninvert_eq_invertLastTwo]
  exact if_pos h

/-- The empty buffer has residue 0 (R80). -/
theorem residue_nil (g : Nat) : residue g [] = 0 := by rw [residue, bufPoly, red_zero]; rfl

/-- Settles O22: in range the slice that `SYND` reads is its answer; else the length or the field check fails. -/
theorem syndGivesTheResidue : Obligations.SyndGivesTheResidue := by
  refine ⟨fun len inv => ?word, fun s len inv h21 hinv => ?inRange, fun s => ?empty, fun s len inv hL => ?badLen,
    fun s w ho hm => raises_of_decodeError (decode_synd_badField ho hm) s⟩
  case word =>
    have himm : (if inv then 1 else 0 : BitVec 16).setWidth 32 = if inv then 1 else 0 := by cases inv <;> rfl
    have hopc : (0x10 : BitVec 8).setWidth 32 <<< 24 = ((0x10000000 : Nat) : Word) := by decide
    rw [encode, Instr.opcode, mkWord_eq_or, himm, hopc]
  case inRange =>
    exact ⟨s.bytes len.toNat, _, bytes_sliceOf s _, execSynd_of_lenOk ((syndLenOk_iff len inv).2 ⟨h21, hinv⟩) s⟩
  case empty =>
    refine ⟨s.drawCount, (execSynd_of_lenOk rfl s).trans ?_⟩
    rw [← residue_nil s.gen.toNat]; rfl
  case badLen =>
    have hw : (Instr.synd len inv).wf = false := by
      rw [Bool.eq_false_iff, Ne, Instr.wf, syndLenOk_iff]
      rintro ⟨h21, h2⟩
      obtain hgt | ⟨hinv, hlt⟩ := hL
      · omega
      · exact absurd (h2 hinv) (Nat.not_le.2 hlt)
    exact ⟨_, exec_of_not_wf hw s, recordError_recorded ..⟩

end Sys2Proof.Machine
end

section
/-! PROOFS. Construction of the tables (41_syndrome_table.md R86, R87, R91): the scan of the syndromes finds a repeat
exactly where two patterns of the lower tiers share one. -/

namespace Sys2Proof.Machine
open Sys2Proof.Spec

/-! ### Pairs in ascending lexicographic order (R91) -/

/-- Pairs that begin with `x` before pairs that do not are distinct where each part's are. -/
theorem nodup_map_mk_append {α β : Type} {x : α} {l : List β} {m : List (α × β)} (hl : l.Nodup) (hm : m.Nodup)
    (hx : ∀ q ∈ m, q.1 ≠ x) : (l.map (Prod.mk x) ++ m).Nodup := by
  refine List.nodup_append.2 ⟨hl.map (Prod.mk_right_injective x), hm, fun q hq r hr hqr => ?_⟩
  obtain ⟨y, -, rfl⟩ := List.mem_map.1 hq
  exact hx r hr (congrArg Prod.fst hqr.symm)

/-- The pairs of an entry of the list with a later one. -/
def orderedPairs : List Nat → List (Nat × Nat)
  | [] => []
  | x :: rest => rest.map (Prod.mk x) ++ orderedPairs rest

theorem mem_orderedPairs {l : List Nat} (hl : l.Pairwise (· < ·)) (i j : Nat) :
    (i, j) ∈ orderedPairs l ↔ i ∈ l ∧ j ∈ l ∧ i < j := by
  induction l with
  | nil => simp [orderedPairs]
  | cons x rest ih =>
    obtain ⟨hx, hrest⟩ := List.pairwise_cons.1 hl
    simp only [orderedPairs, List.mem_append, List.mem_map, Prod.mk.injEq, ih hrest, List.mem_cons]
    constructor
    · rintro (⟨j', hj, rfl, rfl⟩ | ⟨hi, hj, hij⟩)
      · exact ⟨Or.inl rfl, Or.inr hj, hx _ hj⟩
      · exact ⟨Or.inr hi, Or.inr hj, hij⟩
    · rintro ⟨rfl | hi, rfl | hj, hij⟩
      · exact absurd hij (Nat.lt_irrefl _)
      · exact Or.inl ⟨j, hj, rfl, rfl⟩
      · exact absurd hij (Nat.lt_asymm (hx i hi))
      · exact Or.inr ⟨hi, hj, hij⟩

theorem nodup_orderedPairs {l : List Nat} (hl : l.Pairwise (· < ·)) : (orderedPairs l).Nodup := by
  induction l with
  | nil => exact List.nodup_nil
  | cons x rest ih =>
    obtain ⟨hx, hrest⟩ := List.pairwise_cons.1 hl
    exact nodup_map_mk_append (hrest.imp Nat.ne_of_lt) (ih hrest)
      fun q hq => Nat.ne_of_gt (hx _ ((mem_orderedPairs hrest q.1 q.2).1 hq).1)

/-- The pairs of positions of an `L`-byte frame. -/
def framePairs (L : Nat) : List (Nat × Nat) := orderedPairs (List.range (8 * L))

theorem mem_framePairs (L i j : Nat) : (i, j) ∈ framePairs L ↔ i < j ∧ j < 8 * L := by
  rw [framePairs, mem_orderedPairs List.pairwise_lt_range, List.mem_range, List.mem_range]
  omega

/-! ### What the scans go through (R86, R87) -/

theorem singles_map_snd (g L : Nat) : (singles g L).map Prod.snd = (List.range (8 * L)).map (syn1 g) := by
  rw [singles, List.map_map]; rfl

theorem syn2_eq (g i j : Nat) : syn2 g i j = syn1 g i ^^^ syn1 g j := red_xor ..

theorem syn3_eq (g i j k : Nat) : syn3 g i j k = syn1 g i ^^^ syn1 g j ^^^ syn1 g k :=
  (red_xor ..).trans (congrArg (· ^^^ _) (red_xor ..))

theorem pairSyns_singles (g L : Nat) : pairSyns (singles g L) = (framePairs L).map fun q => syn2 g q.1 q.2 := by
  have hpairs (l : List Nat) :
      pairSyns (l.map fun i => (i, syn1 g i)) = (orderedPairs l).map fun q => syn2 g q.1 q.2 := by
    induction l with
    | nil => rfl
    | cons x rest ih =>
      rw [List.map_cons, pairSyns, ih, orderedPairs, List.map_append, List.map_map, List.map_map]
      exact congrArg (· ++ _) (List.map_congr_left fun j _ => (syn2_eq g x j).symm)
  exact hpairs _

theorem testBit_synSet_singles (g L s : Nat) :
    (synSet ((singles g L).map Prod.snd)).testBit s = true ↔ ∃ k, k < 8 * L ∧ syn1 g k = s := by
  rw [synSet_testBit, singles_map_snd, List.mem_map]
  simp only [List.mem_range]

/-! ### No collision (R86, R87) -/

theorem tier1Collision_eq_none_iff (g L : Nat) : tier1Collision g L = none ↔ Tier1Distinct g L := by
  rw [tier1Collision, firstRepeat_eq_none, singles_map_snd, List.nodup_iff_pairwise_ne, List.pairwise_map,
    List.pairwise_iff_getElem]
  simp only [List.getElem_range, List.length_range]
  exact ⟨fun h i j hij hj => h.1 i j (hij.trans hj) hj hij,
    fun h => ⟨fun i j _ hj hij => h i j hij hj, fun s _ => Nat.zero_testBit s⟩⟩

theorem tier2Collision_eq_none_iff (g L : Nat) : tier2Collision g L = none ↔ Tier2Distinct g L := by
  have hnodup : (framePairs L).Nodup := nodup_orderedPairs List.pairwise_lt_range
  rw [tier2Collision, firstRepeat_eq_none, pairSyns_singles, List.nodup_map_iff_inj_on hnodup]
  simp only [List.forall_mem_map, Prod.forall, mem_framePairs, ← Bool.not_eq_true, testBit_synSet_singles]
  constructor
  · rintro ⟨hpair, hsingle⟩
    refine ⟨fun i j k hij hj hk h => hsingle i j ⟨hij, hj⟩ ⟨k, hk, h.symm⟩,
      fun i j i' j' hij hj hij' hj' hne h => hne (hpair i j ⟨hij, hj⟩ i' j' ⟨hij', hj'⟩ h)⟩
  · rintro ⟨hsingle, hpair⟩
    refine ⟨fun i j ⟨hij, hj⟩ i' j' ⟨hij', hj'⟩ h => ?_,
      fun i j ⟨hij, hj⟩ ⟨k, hk, h⟩ => hsingle i j k hij hj hk h.symm⟩
    exact Classical.byContradiction fun hne => hpair i j i' j' hij hj hij' hj' hne h

theorem lengthCollision_eq_none_iff (g L : Nat) : lengthCollision g L = none ↔ NoCollision g L := by
  rw [NoCollision, ← tier1Collision_eq_none_iff, ← tier2Collision_eq_none_iff, lengthCollision]
  cases tier1Collision g L with
  | none => simp
  | some s => simp

/-- Settles O7: each scan meets the syndromes of one tier, each once. -/
theorem collisionIffRepeatedSyndrome : Obligations.CollisionIffRepeatedSyndrome := lengthCollision_eq_none_iff

/-- The positions of a frame are positions of every longer frame, so a longer length without collision is enough (R91). -/
theorem noCollision_mono {g L L' : Nat} (h : NoCollision g L') (hL : L ≤ L') : NoCollision g L := by
  obtain ⟨hsingle, hpairSingle, hpair⟩ := h
  have hle {p : Nat} (hp : p < 8 * L) : p < 8 * L' := by omega
  exact ⟨fun i j hij hj => hsingle i j hij (hle hj), fun i j k hij hj hk => hpairSingle i j k hij (hle hj) (hle hk),
    fun i j i' j' hij hj hij' hj' => hpair i j i' j' hij (hle hj) hij' (hle hj')⟩

/-- Where no pattern of the lower tiers repeats a syndrome, no pattern has syndrome 0 (R90). -/
theorem not_inTable_zero {g L : Nat} (h : NoCollision g L) (hL : 0 < L) (E : ErrPattern) :
    ¬ InTable g L 0 E := by
  obtain ⟨hsingle, hpairSingle, -⟩ := h
  cases E with
  | one i =>
    rintro ⟨hi, h0⟩
    obtain rfl | hpos := Nat.eq_zero_or_pos i
    · exact hpairSingle 0 1 1 (by decide) (by omega) (by omega) (by rw [syn2_eq, h0, Nat.zero_xor])
    · exact hpairSingle 0 i 0 hpos hi (by omega) (by rw [syn2_eq, h0, Nat.xor_zero])
  | two i j =>
    rintro ⟨hij, hj, h0⟩
    exact hsingle i j hij hj (Nat.xor_eq_zero_iff.1 ((syn2_eq g i j).symm.trans h0))
  | three i j k =>
    rintro ⟨-, ⟨hij, hjk, hk, h0⟩, -⟩
    refine hpairSingle i j k hij (hjk.trans hk) hk (Nat.xor_eq_zero_iff.1 ?_)
    rw [syn2_eq, ← syn3_eq, h0]

theorem firstCollision_eq_none {g : Nat} {Ls : List Nat} (h : ∀ L ∈ Ls, NoCollision g L) :
    firstCollision g Ls = none := by
  induction Ls with
  | nil => rfl
  | cons L rest ih =>
    obtain ⟨hL, hrest⟩ := List.forall_mem_cons.1 h
    rw [firstCollision, (lengthCollision_eq_none_iff g L).2 hL]
    exact ih hrest

end Sys2Proof.Machine
end

section
/-! PROOFS. A lookup is the union of the three tiers (41_syndrome_table.md R86 to R89). -/

namespace Sys2Proof.Machine
open Sys2Proof.Spec

/-! ### The searches list each pair and triple once -/

section
variable {keys s : Nat} {ps : List (Nat × Nat)}

theorem nodup_onesWith (hps : ps.Nodup) : (onesWith s ps).Nodup :=
  hps.filterMap fun x y i hx hy => by
    simp only [Option.mem_def, Option.ite_none_right_eq_some, Option.some.injEq] at hx hy
    exact Prod.ext (hx.2.trans hy.2.symm) (hx.1.trans hy.1.symm)

theorem nodup_pairsWith (hk : ∀ x ∈ ps, keys.testBit x.2 = true) (hps : (ps.map Prod.fst).Nodup) :
    (pairsWith keys s ps).Nodup := by
  induction ps with
  | nil => exact List.nodup_nil
  | cons x rest ih =>
    obtain ⟨-, hk'⟩ := List.forall_mem_cons.1 hk
    obtain ⟨hx, hrest⟩ := List.nodup_cons.1 hps
    have hfst : ∀ q ∈ pairsWith keys s rest, q.1 ≠ x.1 := by
      rintro ⟨i, j⟩ hq hi
      obtain ⟨p, q, hsub, -⟩ := (mem_pairsWith keys s i j rest hk').1 hq
      exact hx (hi ▸ (hsub.map Prod.fst).subset List.mem_cons_self)
    rw [pairsWith]
    split
    · exact nodup_map_mk_append (nodup_onesWith (hrest.of_map _)) (ih hk' hrest) hfst
    · exact ih hk' hrest

theorem nodup_triplesWith (hk : ∀ x ∈ ps, keys.testBit x.2 = true) (hps : (ps.map Prod.fst).Nodup) :
    (triplesWith keys s ps).Nodup := by
  induction ps with
  | nil => exact List.nodup_nil
  | cons x rest ih =>
    obtain ⟨-, hk'⟩ := List.forall_mem_cons.1 hk
    obtain ⟨hx, hrest⟩ := List.nodup_cons.1 hps
    refine nodup_map_mk_append (nodup_pairsWith hk' hrest) (ih hk' hrest) ?_
    rintro ⟨i, j, k⟩ hq hi
    obtain ⟨p, q, r, hsub, -⟩ := (mem_triplesWith keys s i j k rest hk').1 hq
    exact hx (hi ▸ (hsub.map Prod.fst).subset List.mem_cons_self)

end

/-! ### What the searches find in the singles of a frame -/

section
variable {g L s : Nat}

/-- The set of the syndromes of the single positions (R86). -/
def singleKeys (g L : Nat) : Nat := synSet ((singles g L).map Prod.snd)

theorem testBit_singleKeys (g L : Nat) : ∀ x ∈ singles g L, (singleKeys g L).testBit x.2 = true := singles_keys g L

theorem nodup_singles_map_fst (g L : Nat) : ((singles g L).map Prod.fst).Nodup := by
  rw [singles, List.map_map]
  exact (List.map_id _).symm ▸ List.nodup_range

/-- A choice from the singles in order is a choice of ascending positions, each with its syndrome. -/
theorem sublist_singles_iff (l : List (Nat × Nat)) : l.Sublist (singles g L) ↔
    (l.map Prod.fst).Pairwise (· < ·) ∧ ∀ x ∈ l, x.1 < 8 * L ∧ x.2 = syn1 g x.1 := by
  constructor
  · exact fun h => ⟨List.pairwise_map.2 (sublist_singles_pairwise g L l h),
      fun x hx => (mem_singles ..).1 (h.subset hx)⟩
  · rintro ⟨hasc, hmem⟩
    have hsub : (l.map Prod.fst).Sublist (List.range (8 * L)) := by
      refine List.sublist_of_subperm_of_pairwise (List.subperm_of_subset (hasc.imp Nat.ne_of_lt) fun i hi => ?_) hasc
        List.pairwise_lt_range
      obtain ⟨x, hx, rfl⟩ := List.mem_map.1 hi
      exact List.mem_range.2 (hmem x hx).1
    have hl : (l.map Prod.fst).map (fun i => (i, syn1 g i)) = l := by
      rw [List.map_map]
      refine (List.map_congr_left fun x hx => ?_).trans (List.map_id l)
      exact Prod.ext rfl (hmem x hx).2.symm
    exact hl ▸ hsub.map fun i => (i, syn1 g i)

theorem mem_onesWith_singles (i : Nat) : i ∈ onesWith s (singles g L) ↔ InTable g L s (.one i) := by
  rw [mem_onesWith, mem_singles, eq_comm]; rfl

theorem mem_pairsWith_singles (i j : Nat) :
    (i, j) ∈ pairsWith (singleKeys g L) s (singles g L) ↔ InTable g L s (.two i j) := by
  rw [mem_pairsWith _ _ _ _ _ (testBit_singleKeys g L), InTable, syn2_eq]
  simp only [sublist_singles_iff, List.map_cons, List.map_nil, List.pairwise_cons, List.mem_cons,
    List.not_mem_nil, or_false, forall_eq_or_imp, forall_eq, IsEmpty.forall_iff, implies_true, List.Pairwise.nil,
    and_self, and_true, ↓existsAndEq]
  omega

theorem mem_triplesWith_singles (i j k : Nat) :
    (i, j, k) ∈ triplesWith (singleKeys g L) s (singles g L) ↔ i < j ∧ j < k ∧ k < 8 * L ∧ syn3 g i j k = s := by
  rw [mem_triplesWith _ _ _ _ _ _ (testBit_singleKeys g L), syn3_eq]
  simp only [sublist_singles_iff, List.map_cons, List.map_nil, List.pairwise_cons, List.mem_cons,
    List.not_mem_nil, or_false, forall_eq_or_imp, forall_eq, IsEmpty.forall_iff, implies_true, List.Pairwise.nil,
    and_self, and_true, ↓existsAndEq]
  omega

end

/-! ### The tiers (R86 to R88) -/

/-- The lower tier that has the syndrome, else the 3-bit tier (R86 to R88). -/
theorem lookupTiers_cases (L keys s : Nat) (ps : List (Nat × Nat)) :
    (∃ i ∈ onesWith s ps, lookupTiers L keys s ps = some (.one i)) ∨
    (∃ q ∈ pairsWith keys s ps, lookupTiers L keys s ps = some (.two q.1 q.2)) ∨
    (onesWith s ps = [] ∧ pairsWith keys s ps = [] ∧ lookupTiers L keys s ps = tier3 L keys s ps) := by
  rw [lookupTiers]
  cases onesWith s ps with
  | cons i _ => exact Or.inl ⟨i, List.mem_cons_self, rfl⟩
  | nil =>
    cases pairsWith keys s ps with
    | cons q _ => exact Or.inr (Or.inl ⟨q, List.mem_cons_self, rfl⟩)
    | nil => exact Or.inr (Or.inr ⟨rfl, rfl, rfl⟩)

theorem tier3_eq_some_iff (L keys s : Nat) (ps : List (Nat × Nat)) (E : ErrPattern) : tier3 L keys s ps = some E ↔
    ∃ i j k, E = .three i j k ∧ L < 14 ∧ triplesWith keys s ps = [(i, j, k)] := by
  rw [tier3, Config.l3lim]
  split
  · next hL =>
    split
    · next i j k ht => simp [ht, hL, eq_comm]
    · next hne =>
      refine ⟨fun h => (nomatch h), ?_⟩
      rintro ⟨i, j, k, -, -, ht⟩
      exact (hne i j k ht).elim
  · next hL => simp [hL]

/-- A list without repeats is the one entry that it has. -/
theorem eq_singleton_iff_of_nodup {α : Type} {l : List α} (hl : l.Nodup) (a : α) : l = [a] ↔ ∀ x, x ∈ l ↔ x = a := by
  rw [← List.perm_singleton, List.perm_ext_iff_of_nodup hl (List.nodup_singleton a)]
  simp only [List.mem_singleton]

theorem triplesWith_eq_singleton_iff (g L s i j k : Nat) :
    triplesWith (singleKeys g L) s (singles g L) = [(i, j, k)] ↔
      (i < j ∧ j < k ∧ k < 8 * L ∧ syn3 g i j k = s) ∧
      ∀ a b c, a < b → b < c → c < 8 * L → syn3 g a b c = s → (a, b, c) = (i, j, k) := by
  rw [eq_singleton_iff_of_nodup (nodup_triplesWith (testBit_singleKeys g L) (nodup_singles_map_fst g L)),
    ← mem_triplesWith_singles]
  constructor
  · exact fun h => ⟨(h _).2 rfl,
      fun a b c hab hbc hc hs => (h _).1 ((mem_triplesWith_singles a b c).2 ⟨hab, hbc, hc, hs⟩)⟩
  · rintro ⟨hmem, hall⟩ ⟨a, b, c⟩
    refine ⟨fun h => ?_, fun h => h ▸ hmem⟩
    obtain ⟨hab, hbc, hc, hs⟩ := (mem_triplesWith_singles a b c).1 h
    exact hall a b c hab hbc hc hs

/-- A table never maps two patterns to one syndrome (R89). -/
theorem inTable_unique {g L s : Nat} (h : NoCollision g L) {E E' : ErrPattern} (hE : InTable g L s E)
    (hE' : InTable g L s E') : E = E' := by
  obtain ⟨hsingle, hpairSingle, hpair⟩ := h
  match E, E', hE, hE' with
  | .one i, .one i', ⟨hi, hs⟩, ⟨hi', hs'⟩ =>
    obtain hlt | rfl | hgt := Nat.lt_trichotomy i i'
    · exact absurd (hs.trans hs'.symm) (hsingle i i' hlt hi')
    · rfl
    · exact absurd (hs'.trans hs.symm) (hsingle i' i hgt hi)
  | .one i, .two i' j', ⟨hi, hs⟩, ⟨hij', hj', hs'⟩ => exact absurd (hs'.trans hs.symm) (hpairSingle i' j' i hij' hj' hi)
  | .one i, .three .., ⟨hi, hs⟩, ⟨_, _, hno, _⟩ => exact absurd hs (hno i hi)
  | .two i j, .one i', ⟨hij, hj, hs⟩, ⟨hi', hs'⟩ => exact absurd (hs.trans hs'.symm) (hpairSingle i j i' hij hj hi')
  | .two i j, .two i' j', ⟨hij, hj, hs⟩, ⟨hij', hj', hs'⟩ =>
    have heq : (i, j) = (i', j') :=
      Classical.byContradiction fun hne => hpair i j i' j' hij hj hij' hj' hne (hs.trans hs'.symm)
    exact congrArg (fun q : Nat × Nat => ErrPattern.two q.1 q.2) heq
  | .two i j, .three .., ⟨hij, hj, hs⟩, ⟨_, _, _, hno, _⟩ => exact absurd hs (hno i j hij hj)
  | .three .., .one i', ⟨_, _, hno, _⟩, ⟨hi', hs'⟩ => exact absurd hs' (hno i' hi')
  | .three .., .two i' j', ⟨_, _, _, hno, _⟩, ⟨hij', hj', hs'⟩ => exact absurd hs' (hno i' j' hij' hj')
  | .three i j k, .three i' j' k', ⟨_, _, _, _, hall⟩, ⟨_, ⟨hij', hjk', hk', hs'⟩, _⟩ =>
    exact congrArg (fun t : Nat × Nat × Nat => ErrPattern.three t.1 t.2.1 t.2.2) (hall i' j' k' hij' hjk' hk' hs').symm

theorem tableLookup_eq_some_iff {g L : Nat} (h : NoCollision g L) (syn : BitVec 16) (E : ErrPattern) :
    tableLookup g true L syn = some E ↔ InTable g L syn.toNat E := by
  have hhit {E' : ErrPattern} (hE' : InTable g L syn.toNat E') : some E' = some E ↔ InTable g L syn.toNat E := by
    rw [Option.some.injEq]
    exact ⟨fun he => he ▸ hE', inTable_unique h hE'⟩
  change lookupTiers L (singleKeys g L) syn.toNat (singles g L) = some E ↔ _
  obtain ⟨i, hi, he⟩ | ⟨⟨i, j⟩, hq, he⟩ | ⟨hone, htwo, he⟩ :=
    lookupTiers_cases L (singleKeys g L) syn.toNat (singles g L)
  · rw [he, hhit ((mem_onesWith_singles i).1 hi)]
  · rw [he, hhit ((mem_pairsWith_singles i j).1 hq)]
  · have hno1 (i : Nat) : ¬ InTable g L syn.toNat (.one i) := fun hi => by
      simpa [hone] using (mem_onesWith_singles i).2 hi
    have hno2 (i j : Nat) : ¬ InTable g L syn.toNat (.two i j) := fun hij => by
      simpa [htwo] using (mem_pairsWith_singles i j).2 hij
    rw [he, tier3_eq_some_iff]
    cases E with
    | one i => simp [hno1 i]
    | two i j => simp [hno2 i j]
    | three i j k =>
      simp only [ErrPattern.three.injEq]
      constructor
      · rintro ⟨_, _, _, ⟨rfl, rfl, rfl⟩, hL, ht⟩
        obtain ⟨hmem, hall⟩ := (triplesWith_eq_singleton_iff ..).1 ht
        exact ⟨hL, hmem, fun a ha hs => hno1 a ⟨ha, hs⟩, fun a b hab hb hs => hno2 a b ⟨hab, hb, hs⟩, hall⟩
      · rintro ⟨hL, hmem, -, -, hall⟩
        exact ⟨i, j, k, ⟨rfl, rfl, rfl⟩, hL, (triplesWith_eq_singleton_iff ..).2 ⟨hmem, hall⟩⟩

/-- Settles O23: a length whose scan meets no collision has no two patterns of one syndrome. -/
theorem lookupIsTheUnionOfTheTiers : Obligations.LookupIsTheUnionOfTheTiers := fun gen _ L syn =>
  ⟨fun h => tableLookup_eq_some_iff ((lengthCollision_eq_none_iff gen.toNat L).1 h) syn, rfl⟩

end Sys2Proof.Machine
end

section
/-! PROOFS. The default generator (41_syndrome_table.md R90): the order of x. -/

namespace Sys2Proof.Machine
open Sys2Proof.Spec

theorem degree16_default : Degree16 0x16F63 := ⟨by decide, by decide⟩

/-- A reduced power is 1 exactly where the power of the class is. -/
theorem powMod_eq_one_iff {g : Nat} (hg : Degree16 g) (e : Nat) : powMod g 2 e = 1 ↔ residueClass g 2 ^ e = 1 := by
  rw [← residueClass_powMod]
  refine ⟨fun h => by rw [h, residueClass_one], fun h => eq_of_residueClass_eq hg (powMod_lt hg ..) (by decide) ?_⟩
  rw [h, residueClass_one]

/-- The prime divisors of 255 are 3, 5 and 17, and no power of x by 255 over one of them is 1. -/
theorem orderOf_x_default : orderOf (residueClass 0x16F63 2) = 255 := by
  refine orderOf_eq_of_pow_and_pow_div_prime (by decide) ((powMod_eq_one_iff degree16_default _).1 powMod_two_255)
    fun p hp hdvd => ?_
  have hp' : p ∈ Nat.primeFactorsList 255 := (Nat.mem_primeFactorsList (by decide)).2 ⟨hp, hdvd⟩
  rw [show Nat.primeFactorsList 255 = [3, 5, 17] by simp] at hp'
  rw [Ne, ← powMod_eq_one_iff degree16_default]
  have hne : ∀ p ∈ [3, 5, 17], powMod 0x16F63 2 (255 / p) ≠ 1 := by decide +kernel
  exact hne p hp'

/-- Settles O10: 255 is the order of the class of x. -/
theorem defaultOrderOfXIs255 : Obligations.DefaultOrderOfXIs255 := by
  refine ⟨powMod_two_255, fun e hpos hlt h => ?_⟩
  refine pow_ne_one_of_lt_orderOf hpos.ne' ?_ ((powMod_eq_one_iff degree16_default e).1 h)
  rwa [orderOf_x_default]

end Sys2Proof.Machine
end

section
/-! PROOFS. No two patterns of the lower tiers share a syndrome under the default generator (41_syndrome_table.md R90).
The generator is that of the double-error-correcting BCH code of length 255: it vanishes at α and at α³, where α is a
root of its factor x^8 + x^4 + x^3 + x^2 + 1. So patterns of one syndrome agree in the sums of α^p and of α^(3p) over
their positions p, and two powers of α are known by their sum and the sum of their cubes. -/

namespace Sys2Proof.Machine
open Sys2Proof.Spec Polynomial

/-! ### Two numbers by their sum and the sum of their cubes -/

section
variable {K : Type} [CommRing K] {X Y Z W : K}

theorem mul_eq_mul_of_sums (h2 : (2 : K) = 0) (h1 : X + Y = Z + W) (h3 : X ^ 3 + Y ^ 3 = Z ^ 3 + W ^ 3)
    (hu : IsUnit (X - Y)) : X * Y = Z * W :=
  hu.mul_left_cancel (by
    linear_combination ((X + Y) ^ 2 + (X + Y) * (Z + W) + (Z + W) ^ 2 - Z * W) * h1 - h3 -
      (X * Y * (X + 2 * Y) - Z * W * (Z + W + Y)) * h2)

theorem eq_of_sums (h1 : X + Y = Z + W) (hm : X * Y = Z * W) (hu : IsUnit (X - Z)) : X = W := by
  have h : (X - Z) * (X - W) = 0 := by linear_combination X * h1 - hm
  exact sub_eq_zero.1 (hu.mul_right_eq_zero.1 h)

end

/-! ### Evaluation at a zero of the generator -/

section
variable {g : Nat} {K : Type} [CommRing K] [Algebra (ZMod 2) K] {β : K}

theorem aeval_one_shiftLeft (p : Nat) : aeval β (polyOf (1 <<< p)) = β ^ p := by
  rw [polyOf_shiftLeft, polyOf_one, one_mul, map_pow, aeval_X]

theorem aeval_patPoly (ps : List Nat) : aeval β (polyOf (patPoly ps)) = (ps.map (β ^ ·)).sum := by
  induction ps with
  | nil => rw [patPoly, List.foldr_nil, polyOf_zero, map_zero]; rfl
  | cons p ps ih =>
    change aeval β (polyOf ((1 <<< p) ^^^ patPoly ps)) = _
    rw [polyOf_xor, map_add, aeval_one_shiftLeft, ih, List.map_cons, List.sum_cons]

/-- Equal reductions have equal values at a zero of the generator. -/
theorem aeval_eq_of_red_eq (hβ : aeval β (polyOf g) = 0) {a b : Nat} (h : red g a = red g b) :
    aeval β (polyOf a) = aeval β (polyOf b) := by
  have hclass : residueClass g a = residueClass g b := by rw [← residueClass_red, h, residueClass_red]
  obtain ⟨q, hq⟩ := AdjoinRoot.mk_eq_mk.1 hclass
  rw [← sub_eq_zero, ← map_sub, hq, map_mul, hβ, zero_mul]

end

/-! ### The root α -/

/-- The class of x modulo the factor x^8 + x^4 + x^3 + x^2 + 1. -/
noncomputable def bchRoot : AdjoinRoot (polyOf 0x11D) := residueClass 0x11D 2

theorem aeval_bchRoot (n : Nat) : aeval bchRoot (polyOf n) = residueClass 0x11D n := by
  rw [bchRoot, residueClass, polyOf_two, AdjoinRoot.mk_X, AdjoinRoot.aeval_eq]; rfl

theorem residueClass_clmul_self (g q : Nat) : residueClass g (clmul g q) = 0 := by
  rw [residueClass_clmul, residueClass, AdjoinRoot.mk_self, zero_mul]

theorem aeval_bchRoot_generator : aeval bchRoot (polyOf 0x16F63) = 0 := by
  rw [aeval_bchRoot, show 0x16F63 = clmul 0x11D 0x177 by decide +kernel, residueClass_clmul_self]

/-- The exponents of the default generator (R5). -/
def defaultExponents : List Nat := [0, 1, 5, 6, 8, 9, 10, 11, 13, 14, 16]

theorem aeval_bchRoot_cube_generator : aeval (bchRoot ^ 3) (polyOf 0x16F63) = 0 := by
  have hgen : 0x16F63 = patPoly defaultExponents := by decide +kernel
  have hcube : patPoly (defaultExponents.map (3 * ·)) = clmul 0x11D 0x118B6FC2BE5 := by decide +kernel
  have h := aeval_bchRoot (patPoly (defaultExponents.map (3 * ·)))
  rw [hcube, residueClass_clmul_self, ← hcube, aeval_patPoly, List.map_map] at h
  rw [hgen, aeval_patPoly, ← h]
  exact congrArg List.sum (List.map_congr_left fun p _ => (pow_mul ..).symm)

theorem bchRoot_pow_255 : bchRoot ^ 255 = 1 := by
  have hred : red 0x16F63 (1 <<< 255) = red 0x16F63 1 :=
    (red_one_shiftLeft degree16_default 255).trans (powMod_two_255.trans (red_of_lt _ (by decide)).symm)
  rw [← aeval_one_shiftLeft, aeval_eq_of_red_eq aeval_bchRoot_generator hred, polyOf_one, map_one]

theorem two_eq_zero_residue (g : Nat) : (2 : AdjoinRoot (polyOf g)) = 0 := by
  have h : residueClass g (1 ^^^ 1) = 0 := by rw [Nat.xor_self, residueClass, polyOf_zero, map_zero]
  rwa [residueClass_xor, residueClass_one, one_add_one_eq_two] at h

theorem bchRing_nontrivial : Nontrivial (AdjoinRoot (polyOf 0x11D)) := by
  refine AdjoinRoot.nontrivial _ fun hdeg => ?_
  have hle : (8 : Nat) ≤ (polyOf 0x11D).degree := le_degree_of_ne_zero (by rw [coeff_polyOf]; decide)
  rw [hdeg] at hle
  exact absurd hle (by decide)

/-! ### Differences of powers of α are units -/

theorem isUnit_bchRoot_pow_sub_one_of_clmul {e v q : Nat} (h : clmul (1 ^^^ (1 <<< e)) v = clmul 0x11D q ^^^ 1) :
    IsUnit (bchRoot ^ e - 1) := by
  have hsum : bchRoot ^ e - (1 : AdjoinRoot (polyOf 0x11D)) = residueClass 0x11D (1 ^^^ (1 <<< e)) := by
    rw [residueClass_xor, ← aeval_bchRoot, ← aeval_bchRoot, aeval_one_shiftLeft, polyOf_one, map_one]
    linear_combination (-1 : AdjoinRoot (polyOf 0x11D)) * two_eq_zero_residue 0x11D
  refine IsUnit.of_mul_eq_one (residueClass 0x11D v) ?_
  rw [hsum, ← residueClass_clmul, h, residueClass_xor, residueClass_clmul_self, zero_add, residueClass_one]

/-- An exponent that `p` does not divide has a multiple that is `q` modulo `p * q`. -/
theorem isUnit_bchRoot_pow_sub_one_of_not_dvd {e p q : Nat} (hpq : p * q = 255) (hp : p.Prime) (he : ¬ p ∣ e)
    (hq : IsUnit (bchRoot ^ q - 1)) : IsUnit (bchRoot ^ e - 1) := by
  obtain ⟨k, -, hk⟩ := Nat.exists_mul_mod_eq_one_of_coprime ((hp.coprime_iff_not_dvd.2 he).symm) hp.one_lt
  have hmul : e * (k * q) = p * q * (e * k / p) + q := by
    conv_lhs => rw [← mul_assoc, ← Nat.div_add_mod (e * k) p, hk]
    ring
  have hdvd : bchRoot ^ e - 1 ∣ bchRoot ^ (e * (k * q)) - 1 := by
    simpa [pow_mul] using sub_dvd_pow_sub_pow (bchRoot ^ e) 1 (k * q)
  refine isUnit_of_dvd_unit ?_ hq
  rwa [hmul, hpq, pow_add, pow_mul, bchRoot_pow_255, one_pow, one_mul] at hdvd

/-- 255 is 3 · 5 · 17, so one of the three does not divide the exponent. -/
theorem isUnit_bchRoot_pow_sub_one {e : Nat} (h0 : 0 < e) (h : e < 255) : IsUnit (bchRoot ^ e - 1) := by
  have h85 : IsUnit (bchRoot ^ 85 - 1) :=
    isUnit_bchRoot_pow_sub_one_of_clmul (v := 0xD6) (q := 0x1BD744363CE62D22953BB3) (by decide +kernel)
  have h51 : IsUnit (bchRoot ^ 51 - 1) :=
    isUnit_bchRoot_pow_sub_one_of_clmul (v := 0x98) (q := 0x4B81926E415B5) (by decide +kernel)
  have h15 : IsUnit (bchRoot ^ 15 - 1) :=
    isUnit_bchRoot_pow_sub_one_of_clmul (v := 0x8A) (q := 0x427F) (by decide +kernel)
  obtain h3 | h5 | h17 : ¬ 3 ∣ e ∨ ¬ 5 ∣ e ∨ ¬ 17 ∣ e := by omega
  · exact isUnit_bchRoot_pow_sub_one_of_not_dvd rfl (by decide) h3 h85
  · exact isUnit_bchRoot_pow_sub_one_of_not_dvd rfl (by decide) h5 h51
  · exact isUnit_bchRoot_pow_sub_one_of_not_dvd rfl (by decide) h17 h15

theorem isUnit_bchRoot_pow (i : Nat) : IsUnit (bchRoot ^ i) :=
  (IsUnit.of_pow_eq_one bchRoot_pow_255 (by decide)).pow i

theorem isUnit_bchRoot_pow_sub_pow {i j : Nat} (hi : i < 255) (hj : j < 255) (hij : i ≠ j) :
    IsUnit (bchRoot ^ i - bchRoot ^ j) := by
  wlog hlt : j < i generalizing i j
  · rw [IsUnit.sub_iff]
    exact this hj hi hij.symm (by omega)
  have hfactor : bchRoot ^ i - bchRoot ^ j = bchRoot ^ j * (bchRoot ^ (i - j) - 1) := by
    rw [mul_sub, ← pow_add, Nat.add_sub_cancel' hlt.le, mul_one]
  rw [hfactor]
  exact (isUnit_bchRoot_pow j).mul (isUnit_bchRoot_pow_sub_one (by omega) (by omega))

theorem eq_of_bchRoot_pow_eq {i j : Nat} (hi : i < 255) (hj : j < 255) (h : bchRoot ^ i = bchRoot ^ j) : i = j := by
  have hnontrivial := bchRing_nontrivial
  exact Classical.byContradiction fun hij => (isUnit_bchRoot_pow_sub_pow hi hj hij).ne_zero (sub_eq_zero.2 h)

/-! ### The lower tiers (R86, R87) -/

/-- Patterns of one syndrome agree in the sum of their powers of α and in the sum of the cubes. -/
theorem sums_of_syn2_eq {i j b : Nat} (h : syn2 0x16F63 i j = red 0x16F63 b) :
    bchRoot ^ i + bchRoot ^ j = aeval bchRoot (polyOf b) ∧
    (bchRoot ^ i) ^ 3 + (bchRoot ^ j) ^ 3 = aeval (bchRoot ^ 3) (polyOf b) := by
  rw [← aeval_eq_of_red_eq aeval_bchRoot_generator h, ← aeval_eq_of_red_eq aeval_bchRoot_cube_generator h, polyOf_xor,
    map_add, map_add]
  simp only [aeval_one_shiftLeft, pow_right_comm _ 3, and_self]

theorem tier1Distinct_default : Tier1Distinct 0x16F63 21 := fun i j hij hj h => by
  have hpow := aeval_eq_of_red_eq aeval_bchRoot_generator h
  rw [aeval_one_shiftLeft, aeval_one_shiftLeft] at hpow
  exact hij.ne (eq_of_bchRoot_pow_eq (by omega) (by omega) hpow)

theorem tier2Distinct_default : Tier2Distinct 0x16F63 21 := by
  have hnontrivial := bchRing_nontrivial
  have hunit {p q : Nat} (hpq : p ≠ q) (hp : p < 8 * 21) (hq : q < 8 * 21) : IsUnit (bchRoot ^ p - bchRoot ^ q) :=
    isUnit_bchRoot_pow_sub_pow (by omega) (by omega) hpq
  have heq {p q : Nat} (hp : p < 8 * 21) (hq : q < 8 * 21) (h : bchRoot ^ p = bchRoot ^ q) : p = q :=
    eq_of_bchRoot_pow_eq (by omega) (by omega) h
  refine ⟨fun i j k hij hj _ h => ?single, fun i j i' j' hij hj hij' hj' hne h => ?pair⟩
  case single =>
    obtain ⟨h1, h3⟩ := sums_of_syn2_eq h
    rw [aeval_one_shiftLeft] at h1 h3
    have hprod : bchRoot ^ i * bchRoot ^ j = bchRoot ^ k * 0 := by
      refine mul_eq_mul_of_sums (two_eq_zero_residue _) ?_ ?_ (hunit hij.ne (hij.trans hj) hj)
      · rw [h1, add_zero]
      · rw [h3, pow_right_comm, zero_pow (by decide), add_zero]
    exact ((isUnit_bchRoot_pow i).mul (isUnit_bchRoot_pow j)).ne_zero (hprod.trans (mul_zero _))
  case pair =>
    obtain ⟨h1, h3⟩ := sums_of_syn2_eq h
    simp only [polyOf_xor, map_add, aeval_one_shiftLeft, pow_right_comm _ 3] at h1 h3
    have hprod := mul_eq_mul_of_sums (two_eq_zero_residue _) h1 h3 (hunit hij.ne (hij.trans hj) hj)
    obtain rfl | hi := eq_or_ne i i'
    · exact hne (congrArg (i, ·) (heq hj hj' (add_left_cancel h1)))
    · obtain rfl := heq (hij.trans hj) hj' (eq_of_sums h1 hprod (hunit hi (hij.trans hj) (hij'.trans hj')))
      have hji : j = i' := heq hj (hij'.trans hj') (add_left_cancel (h1.trans (add_comm ..)))
      omega

end Sys2Proof.Machine
end

section
/-! PROOFS. The construction step under the default generator (41_syndrome_table.md R90,
70_reset_and_hazards.md R124). -/

namespace Sys2Proof.Machine
open Sys2Proof.Spec

theorem noCollision_default {L : Nat} (h21 : L ≤ 21) : NoCollision 0x16F63 L :=
  noCollision_mono ⟨tier1Distinct_default, tier2Distinct_default⟩ h21

theorem buildStep_of_noCollision {s : State} (h : ∀ L, 5 ≤ L → L ≤ 21 → NoCollision s.gen.toNat L) :
    buildStep s = { s with phase := .run } := by
  have hnone : firstCollision s.g tableLengths = none := firstCollision_eq_none fun L hL => by
    obtain ⟨h5, h21⟩ := (mem_tableLengths L).1 hL
    exact h L h5 h21
  obtain ⟨-, he⟩ | ⟨tier, L, syn, -, hsome, -⟩ := buildStep_cases s
  · exact he
  · rw [hnone] at hsome; cases hsome

theorem engineMove_of_building {s : State} (h : s.phase = .building) : engineMove s = .next (buildStep s) := by
  rw [engineMove, h]

/-- Settles O9: no length has a collision because the longest has none. -/
theorem defaultGeneratorHasNoCollision : Obligations.DefaultGeneratorHasNoCollision := by
  refine ⟨fun L _ h21 => noCollision_default h21, fun s hgen hphase hagent => ?_⟩
  have hok : s.genOk = true := by rw [State.genOk, hgen]; decide
  have hnone : ∀ L, 5 ≤ L → L ≤ 21 → NoCollision s.takeTurn.gen.toNat L := fun L _ h21 => by
    rw [State.takeTurn_gen, hgen]
    exact noCollision_default h21
  rw [step_of_engine hok hagent, engineMove_of_building (s := s.takeTurn) hphase, buildStep_of_noCollision hnone]
  rfl

end Sys2Proof.Machine
end

section
/-! PROOFS. `TLOOKUP` (41_syndrome_table.md R93): its word, the fields of `LKR` and its error. -/

namespace Sys2Proof.Machine
open Sys2Proof.Spec

theorem or_eq_add_of_dvd {a b k : Nat} (ha : 2 ^ k ∣ a) (hb : b < 2 ^ k) : a ||| b = a + b := by
  obtain ⟨m, rfl⟩ := ha
  exact (Nat.two_pow_add_eq_or_of_lt hb m).symm

theorem toNat_field {w : Word} {k n : Nat} (h : w.toNat < 2 ^ k) (hk : k + n ≤ 32) :
    (w <<< n).toNat = w.toNat * 2 ^ n := by
  have hlt : w.toNat * 2 ^ n < 2 ^ 32 := calc
    w.toNat * 2 ^ n < 2 ^ k * 2 ^ n := Nat.mul_lt_mul_of_pos_right h (Nat.two_pow_pos n)
    _ = 2 ^ (k + n) := (Nat.pow_add ..).symm
    _ ≤ 2 ^ 32 := Nat.pow_le_pow_right (by decide) hk
  rw [BitVec.toNat_shiftLeft, Nat.shiftLeft_eq, Nat.mod_eq_of_lt hlt]

/-- The fields of `LKR` do not overlap (R26). -/
theorem toNat_lkrFields {n : Nat} (hn : n < 4) (p2 p1 p0 : BitVec 8) : (lkrFields n p2 p1 p0).toNat =
    2 ^ 31 + n * 2 ^ 24 + p2.toNat * 2 ^ 16 + p1.toNat * 2 ^ 8 + p0.toNat := by
  have hbyte (p : BitVec 8) : (p.setWidth 32).toNat = p.toNat := BitVec.toNat_setWidth_of_le (by decide)
  have hcount : (BitVec.ofNat 32 n).toNat = n := by rw [BitVec.toNat_ofNat]; omega
  have hone : (1 : Word).toNat = 1 := rfl
  rw [lkrFields, BitVec.toNat_or, BitVec.toNat_or, BitVec.toNat_or, BitVec.toNat_or,
    toNat_field (k := 1) (by decide) (by decide), toNat_field (k := 2) (by omega) (by decide),
    toNat_field (k := 8) (by rw [hbyte]; exact p2.isLt) (by decide),
    toNat_field (k := 8) (by rw [hbyte]; exact p1.isLt) (by decide), hbyte, hbyte, hbyte, hcount, hone]
  have h2 := p2.isLt
  have h1 := p1.isLt
  have h0 := p0.isLt
  rw [or_eq_add_of_dvd (b := n * 2 ^ 24) (k := 31), or_eq_add_of_dvd (b := p2.toNat * 2 ^ 16) (k := 24),
    or_eq_add_of_dvd (b := p1.toNat * 2 ^ 8) (k := 16), or_eq_add_of_dvd (b := p0.toNat) (k := 8)]
  all_goals omega

theorem execTlookup_of_lenOk {len : BitVec 8} (h : tlookupLenOk len = true) (x : BitVec 16) (s : State) :
    exec (.tlookup len x) s = .next { s with lkr := lkrWord (tableLookup s.gen.toNat s.ecen len.toNat x) } := if_pos h

theorem tableLookup_zero_default (ecen : Bool) {L : Nat} (hL : 0 < L) (h21 : L ≤ 21) :
    tableLookup 0x16F63 ecen L 0 = none := by
  cases ecen with
  | false => rfl
  | true =>
    refine Option.eq_none_iff_forall_ne_some.2 fun E hE => ?_
    exact not_inTable_zero (noCollision_default h21) hL E ((tableLookup_eq_some_iff (noCollision_default h21) 0 E).1 hE)

/-- A pattern that a lookup answers ascends within the longest frame (R93). -/
theorem tableLookup_positions {g : Nat} {ecen : Bool} {L : Nat} {syn : BitVec 16} {E : ErrPattern} (hL : L ≤ 21)
    (h : tableLookup g ecen L syn = some E) : E.positions.Pairwise (· < ·) ∧ ∀ p ∈ E.positions, p < 168 := by
  obtain ⟨⟨hasc, hlt⟩, -⟩ := tableLookup_sound h
  exact ⟨hasc, fun p hp => Nat.lt_of_lt_of_le (hlt p hp) (by omega)⟩

theorem toNat_position {p : Nat} (hp : p < 168) : (BitVec.ofNat 8 p).toNat = p :=
  (BitVec.toNat_ofNat ..).trans (Nat.mod_eq_of_lt (by omega))

/-- Settles O25: a hit is a pattern of the frame, so its positions fit their fields; syndrome 0 is no pattern's. -/
theorem tlookupReportsTheEntry : Obligations.TlookupReportsTheEntry := by
  refine ⟨fun len x => ?word, fun s len x h5 h21 => ?inRange, fun s len x hL => ?badLen⟩
  case word =>
    have hopc : (0x11 : BitVec 8).setWidth 32 <<< 24 = ((0x11000000 : Nat) : Word) := by decide
    rw [encode, Instr.opcode, mkWord_eq_or, hopc]
  case inRange =>
    refine ⟨_, execTlookup_of_lenOk ((tlookupLenOk_iff len).2 ⟨h5, h21⟩) x s, fun he => ?disabled, fun hg hx => ?zero,
      fun hm => ?miss, fun i hE => ?one, fun i j hE => ?two, fun i j k hE => ?three⟩
    case disabled => rw [he]; rfl
    case zero =>
      rw [hg, hx, show (0x16F63 : BitVec 17).toNat = 0x16F63 from rfl, tableLookup_zero_default _ (by omega) h21]; rfl
    case miss => rw [hm]; rfl
    case one =>
      have hi : i < 168 := by simpa [ErrPattern.positions] using tableLookup_positions h21 hE
      refine ⟨hi, ?_⟩
      rw [hE, lkrWord, lkrHit, toNat_lkrFields (ErrPattern.size_lt _), toNat_position hi]; rfl
    case two =>
      obtain ⟨hij, hi, hj⟩ : i < j ∧ i < 168 ∧ j < 168 := by
        simpa [ErrPattern.positions] using tableLookup_positions h21 hE
      refine ⟨hij, hj, ?_⟩
      rw [hE, lkrWord, lkrHit, toNat_lkrFields (ErrPattern.size_lt _), toNat_position hi, toNat_position hj]; rfl
    case three =>
      obtain ⟨⟨⟨hij, -⟩, hjk⟩, hi, hj, hk⟩ : ((i < j ∧ i < k) ∧ j < k) ∧ i < 168 ∧ j < 168 ∧ k < 168 := by
        simpa [ErrPattern.positions] using tableLookup_positions h21 hE
      refine ⟨hij, hjk, hk, ?_⟩
      rw [hE, lkrWord, lkrHit, toNat_lkrFields (ErrPattern.size_lt _), toNat_position hi, toNat_position hj,
        toNat_position hk]; rfl
  case badLen =>
    have hw : (Instr.tlookup len x).wf = false := by
      rw [Bool.eq_false_iff, Ne, Instr.wf, tlookupLenOk_iff]
      omega
    exact ⟨_, exec_of_not_wf hw s, recordError_recorded ..⟩

end Sys2Proof.Machine
end

section
/-! PROOFS. No step records `INCONSISTENCY` (42_demod_frame.md R98): a search leaves `ERRCODE` alone, and every other
error has another code (60_exceptions.md R108). -/

namespace Sys2Proof.Machine

/-- `ERRCODE` is not that of a failed repair (R98, R108). -/
def State.Consistent (s : State) : Prop := s.errCode ≠ FatalCode.inconsistency.code

section
variable {s t : State}

theorem State.Consistent.of_errCode_eq (hs : s.Consistent) (h : t.errCode = s.errCode) : t.Consistent := by
  rwa [State.Consistent, h]

/-- The code of a non-fatal error is not that of a fatal one (R108). -/
theorem State.Consistent.recordError (hs : s.Consistent) (c : ErrorCode) (info : Word) :
    (recordError c info s).Consistent := by
  cases he : s.err with
  | true => rwa [recordError_of_err c info s he]
  | false =>
    rw [recordError_of_clear c info s he]
    exact fun h => c.code_not_isFatal (Or.inl h)

/-- A search records no error, whatever the generator (R98). -/
theorem State.Consistent.frameSearch (hs : s.Consistent) : (frameSearch s).Consistent :=
  hs.of_errCode_eq (frameSearch_controlFrame s).errCode

theorem State.Consistent.exec (hs : s.Consistent) {i : Instr} (h : exec i s = .next t) : t.Consistent := by
  cases i with
  | nop => cases h; exact hs
  | padd => cases h; exact hs
  | pmulm => cases h; exact hs
  | ppowm => cases h; exact hs
  | prem => cases h; exact hs
  | synd len inv =>
    simp only [Machine.exec, execSynd] at h
    split at h
    · cases h; exact hs
    · cases h; exact hs.recordError _ _
  | tlookup len x =>
    simp only [Machine.exec, execTlookup] at h
    split at h
    · cases h; exact hs
    · cases h; exact hs.recordError _ _
  | demod => cases h; exact hs
  | fsearch => cases h; exact hs.frameSearch
  | process => cases h; exact State.Consistent.frameSearch (s := demodulate s) hs
  | clrerr => cases h; exact fun h0 => zero_not_isFatal (Or.inl h0)

/-- The construction step records `TABLE_COLLISION`, if an error at all (R91, R124). -/
theorem State.Consistent.buildStep (hs : s.Consistent) : (buildStep s).Consistent := by
  obtain ⟨-, hb⟩ | ⟨tier, L, syn, -, -, hb⟩ := buildStep_cases s
  all_goals rw [hb]
  · exact hs
  · exact fun h => absurd ((recordFatal_errCode ..).symm.trans h) (by decide)

theorem State.Consistent.engineMove (hs : s.Consistent) (h : engineMove s = .next t) : t.Consistent := by
  obtain ⟨-, he⟩ | ⟨-, he⟩ | ⟨-, -, he⟩ | ⟨w, i, -, -, -, he⟩ | ⟨w, e, -, -, -, he⟩ := engineMove_cases s
  all_goals rw [he] at h
  · cases h; exact hs.buildStep
  · cases h; exact hs
  · cases h; exact hs
  · exact State.Consistent.exec (s := { s with pending := none }) hs h
  · cases h; exact State.Consistent.recordError (s := { s with pending := none }) hs _ _

theorem performWrite_errCode (r : Reg) (v : Word) (s : State) : (performWrite r v s).errCode = s.errCode := by
  cases r <;> rfl

theorem State.Consistent.hostWrite (hs : s.Consistent) (a : Addr) (v : Word) : (hostWrite a v s).Consistent := by
  obtain ⟨-, he⟩ | ⟨-, he⟩ | ⟨r, -, -, he⟩ | ⟨r, -, -, -, he⟩ := hostWrite_cases a v s
  all_goals rw [he]
  · exact hs
  · exact hs
  · exact hs.recordError _ _
  · exact hs.of_errCode_eq (performWrite_errCode ..)

theorem State.Consistent.hostAct (hs : s.Consistent) (op : HostOp) (rest : List HostOp) :
    (hostAct op rest s).Consistent := by
  cases op with
  | write a v => exact State.Consistent.hostWrite (s := { s with hostProgram := rest }) hs a v
  | read a => exact hs
  | wait => exact hs.of_errCode_eq (by simp only [Machine.hostAct, hostRead_errCode]; split <;> rfl)
  | boot => exact hs.of_errCode_eq (by simp only [Machine.hostAct, hostRead_errCode]; split <;> rfl)
  | reset ec => exact fun h0 => zero_not_isFatal (Or.inl h0)

theorem State.Consistent.hostMove (hs : s.Consistent) : (hostMove s).Consistent := by
  obtain ⟨-, he⟩ | ⟨op, rest, -, he⟩ := hostMove_cases s
  all_goals rw [he]
  · exact hs
  · exact hs.hostAct op rest

end

/-- Settles O30: no agent's move records the code. -/
theorem noStepRecordsInconsistency : Obligations.NoStepRecordsInconsistency := by
  intro s t hs h
  have hturn : s.takeTurn.Consistent := hs
  obtain ⟨-, ⟨-, rfl⟩ | ⟨-, he⟩⟩ := step_cases s t h
  · exact hturn.hostMove
  · exact hturn.engineMove he

end Sys2Proof.Machine
end

section
/-! PROOFS. Demodulation (42_demod_frame.md R94 to R97, R101): the bytes that `DEMOD` writes, and a `PROCESS` of too few
of them. -/

namespace Sys2Proof.Machine

/-- Byte `k` of a demodulation is that of group `k` (R96). -/
theorem demodulate_read_group {s : State} {k : Nat} (hk : k < s.groupCount) :
    (demodulate s).mem.read (0x200 + k) = some (s.groupByte k) := by
  rw [demodulate_mem, Memory.read_writeList, if_pos (by simpa [bytebufAddr] using hk)]
  simp [bytebufAddr, hk]

/-- Bit `t` of a group's byte is set where entry `t` of the group is not 0 (R94). -/
theorem getLsbD_groupByte {s : State} {k t : Nat} {e : Byte} (ht : t < 8)
    (he : s.mem.read (0x100 + (9 * k + t)) = some e) : (s.groupByte k).getLsbD t = (e != 0) := by
  rw [State.groupByte, getLsbD_byteOfBits _ t ht]
  exact congrArg (· != 0) (s.readEntry_of_written _ _ e he)

/-- Settles O26: the bytes written are those of the complete groups, and they are the first of the byte buffer. -/
theorem demodPacksGroups : Obligations.DemodPacksGroups :=
  ⟨rfl, fun s => ⟨(demodulate s).mem, (demodulate s).drawCount, rfl,
    fun k hk => ⟨s.groupByte k, demodulate_read_group hk, fun _ _ ht he => getLsbD_groupByte ht he⟩,
    fun _ ha => demodulate_read ha⟩⟩

/-- Settles O28: by definition. -/
theorem processDemodulatesThenSearches : Obligations.ProcessDemodulatesThenSearches :=
  ⟨rfl, fun _ => ⟨_, _, rfl, rfl, rfl⟩⟩

/-- A buffer of at most 5 bytes leaves no length to try, so a search only clears its results (R99). -/
theorem frameSearch_of_le_five {s : State} (h : s.bytelen.toNat ≤ 5) : frameSearch s = clearResults s := by
  have hnone : triedLengths s.bytelen.toNat = [] := by
    rw [triedLengths, Config.lmin, Nat.sub_eq_zero_of_le h]; rfl
  rw [frameSearch, hnone]; rfl

/-- Settles O29: at most 5 bytes result, so the search after the demodulation only clears its results. -/
theorem shortInputGivesNoCandidate : Obligations.ShortInputGivesNoCandidate := by
  intro s hlen
  have hcount : s.groupCount = s.inlen.toNat / 9 := by
    rw [State.groupCount, Config.maxBytes, Config.group]; omega
  have hbytes : (demodulate s).bytelen.toNat = s.inlen.toNat / 9 := by
    rw [demodulate_bytelen, BitVec.toNat_ofNat, hcount]; omega
  have hsearch : exec .process s = .next (clearResults (demodulate s)) := by
    rw [← frameSearch_of_le_five (s := demodulate s) (by omega)]; rfl
  refine ⟨clearResults (demodulate s), demodulate s, rfl, hsearch, ?short, rfl, hbytes, rfl, fun k hk => ?bytes, rfl,
    rfl, fun L _ _ => State.cinfoAt_of_cleared rfl L, rfl, rfl, rfl, rfl⟩
  case short =>
    rw [clearResults_short, demodulate_short, hcount, Config.minBytes]
    exact decide_eq_decide.2 (by omega)
  case bytes =>
    have hread := demodulate_read_group (hcount ▸ hk)
    exact ⟨_, hread, (clearResults_buffers _ _ (by omega)).trans hread⟩

end Sys2Proof.Machine
end

section
/-! PROOFS. The frame search (42_demod_frame.md R98 to R100): what trying a length leaves for it, and that it leaves the
results of the other lengths alone. So a search leaves for every length the result of trying it, or a cleared one. -/

namespace Sys2Proof.Machine
open Sys2Proof.Spec

/-! ### The payload registers (R34, R44) -/

section
variable {m : Memory} {vs : List Byte} {L L' k : Nat}

theorem read_writeList_cpay_same (hk : k < vs.length) :
    (m.writeList (cpayAddr L 0) vs).read (0x400 + 32 * L + k) = vs[k]? := by
  rw [Memory.read_writeList, cpayAddr, Nat.add_zero, if_pos ⟨Nat.le_add_right .., Nat.add_lt_add_left hk _⟩,
    Nat.add_sub_cancel_left]

/-- The payload registers of two lengths lie apart. -/
theorem read_writeList_cpay_other (hvs : vs.length ≤ 32) (hne : L' ≠ L) (hk : k < 32) :
    (m.writeList (cpayAddr L 0) vs).read (0x400 + 32 * L' + k) = m.read (0x400 + 32 * L' + k) := by
  rw [Memory.read_writeList, cpayAddr, if_neg (by omega)]

theorem read_clearPayloads {Ls : List Nat} (hk : k < L - 2)
    (h : L ∈ Ls ∨ m.read (0x400 + 32 * L + k) = some 0) :
    (clearPayloads m Ls).read (0x400 + 32 * L + k) = some 0 := by
  induction Ls generalizing m with
  | nil => exact h.resolve_left List.not_mem_nil
  | cons L' rest ih =>
    rw [clearPayloads]
    refine ih ?_
    obtain hmem | hread := h
    · obtain rfl | hmem := List.mem_cons.1 hmem
      · right
        rw [read_writeList_cpay_same (by rwa [List.length_replicate])]
        exact List.getElem?_replicate_of_lt hk
      · exact Or.inl hmem
    · right
      rw [Memory.read_writeList]
      split
      · next hin =>
        rw [List.length_replicate] at hin
        exact List.getElem?_replicate_of_lt (by omega)
      · exact hread

end

/-- A search first clears the payload of every length (R100). -/
theorem clearResults_payloadIs (s : State) {L : Nat} (h5 : 5 ≤ L) (h21 : L ≤ 21) :
    PayloadIs (clearResults s) L (List.replicate L 0) := by
  intro k hk
  rw [clearResults_mem, read_clearPayloads hk (Or.inl ((mem_tableLengths L).2 ⟨h5, h21⟩)),
    List.getElem?_replicate_of_lt (by omega)]

/-! ### The result of one length -/

/-- The result registers of length `L` are as before. -/
structure SameResult (L : Nat) (s t : State) : Prop where
  info : t.cinfoAt L = s.cinfoAt L
  payload : ∀ k, k < L - 2 → t.mem.read (0x400 + 32 * L + k) = s.mem.read (0x400 + 32 * L + k)

section
variable {L L' : Nat} {s s' t t' : State}

theorem SameResult.refl (L : Nat) (s : State) : SameResult L s s := ⟨rfl, fun _ _ => rfl⟩

theorem SameResult.trans {u : State} (h : SameResult L s t) (h' : SameResult L t u) : SameResult L s u where
  info := h'.info.trans h.info
  payload k hk := (h'.payload k hk).trans (h.payload k hk)

theorem SameResult.payloadIs_iff (h : SameResult L t t') (bytes : List Byte) :
    PayloadIs t' L bytes ↔ PayloadIs t L bytes :=
  forall₂_congr fun k hk => by rw [h.payload k hk]

/-- The outcome of a length depends on the generator, the strap latch and the length's result registers. -/
theorem triedOutcome_congr {F : List Byte} (hgen : s'.gen = s.gen) (hecen : s'.ecen = s.ecen) (h : SameResult L t t')
    (ht : TriedOutcome s t L F) : TriedOutcome s' t' L F := by
  unfold TriedOutcome at ht ⊢
  simpa only [hgen, hecen, h.info, h.payloadIs_iff] using ht

/-- A read of the slice sees the byte buffer only (R44). -/
theorem sliceOf_congr {F : List Byte} (hL : L ≤ 21) (h : SearchFrame s t) (hF : SliceOf t L F) : SliceOf s L F := by
  obtain ⟨hlen, hread⟩ := hF
  exact ⟨hlen, fun k v hk hv => hread k v hk ((h.buffers _ (by omega)).trans hv)⟩

/-! ### What trying a length gives (R98) -/

theorem State.length_trySlice (s : State) (L : Nat) : (s.trySlice L).length = L := by simp [State.trySlice]

theorem State.tryFrame_of_match (h : s.trySyn L = 0) :
    s.tryFrame L = .candidate (payloadOf (s.trySlice L)) 0 := if_pos h

theorem State.tryFrame_of_miss (h : s.trySyn L ≠ 0) (hnone : tableLookup s.g s.ecen L (s.trySyn L) = none) :
    s.tryFrame L = .noCandidate := by
  rw [State.tryFrame, judgeFrame, if_neg h, hnone]

/-- A repair by the table's pattern passes its verification. -/
theorem State.tryFrame_of_hit {E : ErrPattern} (h : s.trySyn L ≠ 0)
    (hE : tableLookup s.g s.ecen L (s.trySyn L) = some E) :
    residue s.g (xorBytes (s.trySlice L) (patBytes L E)) = 0 ∧
      s.tryFrame L = .candidate (payloadOf (xorBytes (s.trySlice L) (patBytes L E))) E.size := by
  have hgood := s.tryFrame_ne_inconsistent L
  rw [State.tryFrame, judgeFrame, if_neg h, hE] at hgood ⊢
  have hres : residue s.g (xorBytes (s.trySlice L) (patBytes L E)) = 0 :=
    Classical.byContradiction fun hne => hgood (if_neg hne)
  exact ⟨hres, if_pos hres⟩

/-! ### What the search leaves for a length (R100) -/

theorem searchLength_of_candidate {payload : List Byte} {n : Nat} (h : s.tryFrame L = .candidate payload n) :
    searchLength L s = (storeCandidate L (s.trySyn L) payload n s).skipDraws L := by rw [searchLength, h]; rfl

theorem searchLength_of_noCandidate (h : s.tryFrame L = .noCandidate) :
    searchLength L s = (s.setCinfo L (triedInfo (s.trySyn L))).skipDraws L := by rw [searchLength, h]; rfl

/-- A candidate leaves its record and its payload (R33, R34, R102). -/
theorem searchLength_result_of_candidate (h5 : 5 ≤ L) (h21 : L ≤ 21) {W : List Byte} (hW : W.length = L) {n : Nat}
    (h : s.tryFrame L = .candidate (payloadOf W) n) :
    (searchLength L s).cinfoAt L = candidateInfo (s.trySyn L) n ∧ PayloadIs (searchLength L s) L W := by
  rw [searchLength_of_candidate h]
  refine ⟨(State.cinfoAt_setCinfo _ L L _ h5 h21).trans (if_pos rfl), fun k hk => ?_⟩
  rw [State.skipDraws_mem, storeCandidate_mem, read_writeList_cpay_same (by rwa [length_payloadOf, hW]), payloadOf, hW,
    Config.crcBytes, List.getElem?_take_of_lt hk]

/-- Trying a length whose payload is clear leaves for it the result of R98 on the slice read. -/
theorem searchLength_triedOutcome (h5 : 5 ≤ L) (h21 : L ≤ 21) (hclear : PayloadIs s L (List.replicate L 0)) :
    TriedOutcome s (searchLength L s) L (s.bytes L) := by
  have hlen := s.length_trySlice L
  rw [TriedOutcome, ← uninvert_eq_invertLastTwo]
  change (s.trySyn L = 0 → _) ∧ (s.trySyn L ≠ 0 → _) ∧ (s.trySyn L ≠ 0 → _)
  refine ⟨fun h0 => ?direct, fun h0 E hE => ?repaired, fun h0 hnone => ?miss⟩
  case direct =>
    obtain ⟨hinfo, hpay⟩ := searchLength_result_of_candidate h5 h21 hlen (State.tryFrame_of_match h0)
    exact ⟨by rw [hinfo, h0]; rfl, hpay⟩
  case repaired =>
    obtain ⟨hres, htry⟩ := State.tryFrame_of_hit h0 hE
    obtain ⟨hinfo, hpay⟩ := searchLength_result_of_candidate h5 h21 (by simp [hlen]) htry
    exact ⟨hinfo, hpay, hres⟩
  case miss =>
    rw [searchLength_of_noCandidate (State.tryFrame_of_miss h0 hnone)]
    exact ⟨(State.cinfoAt_setCinfo s L L _ h5 h21).trans (if_pos rfl), hclear⟩

/-- Trying a length leaves the results of the others alone. -/
theorem searchLength_sameResult (h5 : 5 ≤ L) (h21 : L ≤ 21) (h21' : L' ≤ 21) (hne : L' ≠ L) :
    SameResult L' s (searchLength L s) := by
  have hinfo (u : State) (c : CInfo) : (u.setCinfo L c).cinfoAt L' = u.cinfoAt L' :=
    (State.cinfoAt_setCinfo u L L' c h5 h21).trans (if_neg hne)
  cases hr : s.tryFrame L with
  | candidate payload n =>
    obtain ⟨hlen, -⟩ := State.tryFrame_candidate hr
    rw [searchLength_of_candidate hr]
    exact ⟨hinfo .., fun k hk => read_writeList_cpay_other (by omega) hne (by omega)⟩
  | noCandidate =>
    rw [searchLength_of_noCandidate hr]
    exact ⟨hinfo .., fun k hk => rfl⟩
  | inconsistent => exact absurd hr (s.tryFrame_ne_inconsistent L)

/-! ### The lengths in turn (R99) -/

theorem searchLengths_cons (L : Nat) (rest : List Nat) (s : State) :
    searchLengths (L :: rest) s = searchLengths rest (searchLength L s) := if_neg (s.tryFrame_ne_inconsistent L)

section
variable {Ls : List Nat}

theorem searchLengths_sameResult (hLs : ∀ L ∈ Ls, 5 ≤ L ∧ L ≤ 21) (h21 : L' ≤ 21) (hnot : L' ∉ Ls) :
    SameResult L' s (searchLengths Ls s) := by
  induction Ls generalizing s with
  | nil => exact .refl L' s
  | cons L rest ih =>
    obtain ⟨⟨h5, hL⟩, hrest⟩ := List.forall_mem_cons.1 hLs
    obtain ⟨hne, hnot⟩ := not_or.1 (mt List.mem_cons.2 hnot)
    rw [searchLengths_cons]
    exact (searchLength_sameResult h5 hL h21 hne).trans (ih hrest hnot)

/-- Each length of the list is tried on a read of its slice, and no other length touches its result. -/
theorem searchLengths_triedOutcome (hLs : ∀ L ∈ Ls, 5 ≤ L ∧ L ≤ 21) (hnodup : Ls.Nodup) (hmem : L ∈ Ls)
    (hclear : PayloadIs s L (List.replicate L 0)) :
    ∃ F, SliceOf s L F ∧ TriedOutcome s (searchLengths Ls s) L F := by
  induction Ls generalizing s with
  | nil => cases hmem
  | cons L' rest ih =>
    obtain ⟨⟨h5', h21'⟩, hrest⟩ := List.forall_mem_cons.1 hLs
    obtain ⟨hnot, hnodup⟩ := List.nodup_cons.1 hnodup
    obtain ⟨h5, h21⟩ := hLs L hmem
    rw [searchLengths_cons]
    obtain rfl | hmem := List.mem_cons.1 hmem
    · exact ⟨s.bytes L, bytes_sliceOf s L, triedOutcome_congr rfl rfl (searchLengths_sameResult hrest h21 hnot)
        (searchLength_triedOutcome h5 h21 hclear)⟩
    · have hsame : SameResult L s (searchLength L' s) :=
        searchLength_sameResult h5' h21' h21 (ne_of_mem_of_not_mem hmem hnot)
      have hframe := searchLength_frame L' s
      obtain ⟨F, hF, hout⟩ := ih hrest hnodup hmem ((hsame.payloadIs_iff _).2 hclear)
      exact ⟨F, sliceOf_congr h21 hframe hF, triedOutcome_congr hframe.gen.symm hframe.ecen.symm (.refl L _) hout⟩

end

/-! ### The summary of the valid lengths (R29, R30) -/

/-- `CMASK` has the bits of the valid lengths, and `CCOUNT` counts them. -/
structure State.Summarized (s : State) : Prop where
  mask : ∀ L, L < 22 → s.cmask.getLsbD L = (decide (5 ≤ L) && (s.cinfoAt L).valid)
  count : s.ccount.toNat = popcount s.cmask

theorem clearResults_summarized (s : State) : (clearResults s).Summarized where
  mask L _ := by rw [State.cinfoAt_of_cleared rfl]; simp
  count := by rw [clearResults_ccount, clearResults_cmask]; decide

/-- Setting a clear bit of the mask is counted, and the count of 22 bits fits its register. -/
theorem toNat_ccount_succ {cmask : BitVec 22} {ccount : BitVec 5} (hcount : ccount.toNat = popcount cmask)
    (hL : L < 22) (hfree : cmask.getLsbD L = false) :
    (ccount + 1).toNat = popcount (cmask ||| ((1 : BitVec 22) <<< L)) := by
  have hset := popcount_setBit cmask L hL hfree
  have hle := popcount_le (cmask ||| ((1 : BitVec 22) <<< L))
  rw [BitVec.toNat_add, hcount, hset]
  exact Nat.mod_eq_of_lt (Nat.lt_of_le_of_lt (hset ▸ hle) (by decide))

/-- A length's record is summarised where the mask has its bit and those of the others. -/
theorem summarized_setCinfo (h5 : 5 ≤ L) (h21 : L ≤ 21) {c : CInfo}
    (hmask : ∀ L', L' < 22 →
      s.cmask.getLsbD L' = if L' = L then c.valid else decide (5 ≤ L') && (s.cinfoAt L').valid)
    (hcount : s.ccount.toNat = popcount s.cmask) : (s.setCinfo L c).Summarized where
  mask L' hL' := by
    rw [State.cinfoAt_setCinfo s L L' c h5 h21, State.setCinfo_cmask, hmask L' hL']
    split
    · subst L'; simp [h5]
    · rfl
  count := hcount

/-- The mask bit of a candidate is set and counted, as it was clear; that of a miss stays clear (R100). -/
theorem State.Summarized.searchLength (hs : s.Summarized) (h5 : 5 ≤ L) (h21 : L ≤ 21)
    (hfree : s.cmask.getLsbD L = false) : (searchLength L s).Summarized := by
  have hL : L < 22 := Nat.lt_succ_of_le h21
  cases hr : s.tryFrame L with
  | candidate payload n =>
    have hstored : (storeCandidate L (s.trySyn L) payload n s).Summarized := by
      refine summarized_setCinfo h5 h21 (fun L' hL' => ?_) (toNat_ccount_succ hs.count hL hfree)
      rw [getLsbD_setBit]
      split
      · subst L'; simp [hL, candidateInfo]
      · next hne =>
        rw [decide_eq_false fun h => hne h.1, Bool.or_false]
        exact hs.mask L' hL'
    rw [searchLength_of_candidate hr]
    exact { hstored with }
  | noCandidate =>
    have hstored : (s.setCinfo L (triedInfo (s.trySyn L))).Summarized := by
      refine summarized_setCinfo h5 h21 (fun L' hL' => ?_) hs.count
      split
      · subst L'; exact hfree
      · exact hs.mask L' hL'
    rw [searchLength_of_noCandidate hr]
    exact { hstored with }
  | inconsistent => exact absurd hr (s.tryFrame_ne_inconsistent L)

/-- Each length is tried once, so each finds its mask bit clear (R99). -/
theorem State.Summarized.searchLengths {Ls : List Nat} (hs : s.Summarized) (hnodup : Ls.Nodup)
    (hLs : ∀ L ∈ Ls, 5 ≤ L ∧ L ≤ 21) (hfree : ∀ L ∈ Ls, s.cmask.getLsbD L = false) :
    (searchLengths Ls s).Summarized := by
  induction Ls generalizing s with
  | nil => exact hs
  | cons L rest ih =>
    obtain ⟨hnot, hnodup⟩ := List.nodup_cons.1 hnodup
    obtain ⟨⟨h5, h21⟩, hLs⟩ := List.forall_mem_cons.1 hLs
    obtain ⟨hL, hfree⟩ := List.forall_mem_cons.1 hfree
    rw [searchLengths_cons]
    refine ih (hs.searchLength h5 h21 hL) hnodup hLs fun L' hmem => ?_
    rw [searchLength_cmask (ne_of_mem_of_not_mem hmem hnot), hfree L' hmem]

/-! ### The whole search -/

/-- A search with no error changes its results, the buffer memory and the draw counter only (R100). -/
theorem eq_of_searchFrame (h : SearchFrame s t) (hc : ControlFrame s t) :
    t = { s with
      cinfo := t.cinfo, cmask := t.cmask, ccount := t.ccount, mem := t.mem, drawCount := t.drawCount } := by
  obtain ⟨hgen, hecen, hcmd, hshort, ha, hb, hy, hsyn, hlkr, hinlen, hbytelen, hprog, hturns, hread, -⟩ := h
  obtain ⟨hphase, hpending, herr, hcode, hinfo⟩ := hc
  cases t
  simp_all

theorem triedLengths_bounds {n : Nat} (h21 : n ≤ 21) : ∀ L ∈ triedLengths n, 5 ≤ L ∧ L ≤ 21 := fun L hmem => by
  obtain ⟨h5, hlt⟩ := (mem_triedLengths n L).1 hmem
  exact ⟨h5, hlt.le.trans h21⟩

/-- A tried length holds its result (R100). -/
theorem frameSearch_triedOutcome (h21 : s.bytelen.toNat ≤ 21) (h5 : 5 ≤ L) (hL : L + 1 ≤ s.bytelen.toNat) :
    ∃ F, SliceOf s L F ∧ TriedOutcome s (frameSearch s) L F := by
  have hL21 : L ≤ 21 := by omega
  obtain ⟨F, hF, hout⟩ := searchLengths_triedOutcome (triedLengths_bounds h21) (nodup_triedLengths _)
    ((mem_triedLengths _ L).2 ⟨h5, hL⟩) (clearResults_payloadIs s h5 hL21)
  exact ⟨F, sliceOf_congr hL21 (clearResults_frame s) hF, triedOutcome_congr rfl rfl (.refl L _) hout⟩

/-- An untried length is cleared (R100). -/
theorem frameSearch_untried (h21 : s.bytelen.toNat ≤ 21) (h5 : 5 ≤ L) (hL21 : L ≤ 21)
    (hL : s.bytelen.toNat < L + 1) :
    (frameSearch s).cinfoAt L = {} ∧ PayloadIs (frameSearch s) L (List.replicate L 0) := by
  have hsame : SameResult L (clearResults s) (frameSearch s) :=
    searchLengths_sameResult (triedLengths_bounds h21) hL21 fun hmem => by
      have hlt := ((mem_triedLengths _ L).1 hmem).2
      omega
  exact ⟨hsame.info.trans (State.cinfoAt_of_cleared rfl L),
    (hsame.payloadIs_iff _).2 (clearResults_payloadIs s h5 hL21)⟩

theorem frameSearch_summarized (h21 : s.bytelen.toNat ≤ 21) : (frameSearch s).Summarized :=
  (clearResults_summarized s).searchLengths (nodup_triedLengths _) (triedLengths_bounds h21) fun L _ => by simp

end

/-- Settles O27: a search leaves a tried length its result, an untried one cleared, and no length is inconsistent. -/
theorem fsearchTriesEveryLength : Obligations.FsearchTriesEveryLength := by
  refine ⟨rfl, fun s _ h21 => ?_⟩
  obtain ⟨hmask, hcount⟩ := frameSearch_summarized h21
  have hframe := frameSearch_frame s
  exact ⟨frameSearch s, rfl, fun L => frameSearch_triedOutcome h21, fun L => frameSearch_untried h21, hmask, hcount,
    hframe.buffers, eq_of_searchFrame hframe (frameSearch_controlFrame s)⟩

end Sys2Proof.Machine
end

section
/-! PROOFS. A valid frame received with errors (42_demod_frame.md R104): the syndrome of its slice is that of the error
pattern, so the search repairs it by what the table has for that syndrome. -/

namespace Sys2Proof.Machine
open Sys2Proof.Spec

/-! ### Buffers and their sums -/

section
variable {u v : List Byte}

theorem xorBytes_cancel_right (h : v.length = u.length) : xorBytes (xorBytes u v) v = u :=
  List.ext_getElem (by simp [h]) fun k h1 h2 => by simp [xorBytes]

/-- Un-inverting a sum is un-inverting one term (R83). -/
theorem invertLastTwo_xorBytes (h : v.length = u.length) :
    invertLastTwo (xorBytes u v) = xorBytes (invertLastTwo u) v := by
  refine List.ext_getElem (by simp [invertLastTwo, xorBytes]) fun k _ _ => ?_
  simp only [invertLastTwo, xorBytes, List.getElem_mapIdx, List.getElem_zipWith, List.length_zipWith, h, Nat.min_self]
  split
  · rfl
  · ac_rfl

theorem length_invertLastTwo (F : List Byte) : (invertLastTwo F).length = F.length := List.length_mapIdx

/-- Un-inversion leaves the payload alone (R83). -/
theorem getElem?_invertLastTwo {F : List Byte} {k : Nat} (hk : k < F.length - 2) : (invertLastTwo F)[k]? = F[k]? := by
  rw [invertLastTwo, List.getElem?_mapIdx, List.getElem?_eq_getElem (by omega), Option.map_some, if_pos (by omega)]

theorem payloadIs_invertLastTwo {t : State} {L : Nat} {F : List Byte} (hF : F.length = L) :
    PayloadIs t L (invertLastTwo F) ↔ PayloadIs t L F :=
  forall₂_congr fun k hk => by rw [getElem?_invertLastTwo (by rwa [hF])]

theorem exists_append_pair (h : 2 ≤ u.length) : ∃ P c d, u = P ++ [c, d] := by
  obtain ⟨c, d, hcd⟩ := List.length_eq_two.1 (by rw [List.length_drop]; omega : (u.drop (u.length - 2)).length = 2)
  exact ⟨u.take (u.length - 2), c, d, by rw [← hcd, List.take_append_drop]⟩

/-- Buffers of one residue that differ at most in the last two bytes are equal: those enter the residue as they are. -/
theorem eq_of_residue_eq {g : Nat} (hlen : u.length = v.length) (h2 : 2 ≤ u.length)
    (hpay : ∀ k, k < u.length - 2 → u[k]? = v[k]?) (hres : residue g u = residue g v) : u = v := by
  obtain ⟨P, c, d, rfl⟩ := exists_append_pair h2
  obtain ⟨Q, c', d', rfl⟩ := exists_append_pair (hlen ▸ h2)
  have hPQ : P.length = Q.length := by simpa using hlen
  obtain rfl : P = Q := List.ext_getElem hPQ fun k hP hQ => by
    simpa [List.getElem?_append, hP, hQ] using hpay k (by simpa using hP)
  rw [residue_append_pair g P c d, residue_append_pair g P c' d', BitVec.xor_right_inj, append_eq_iff] at hres
  obtain ⟨rfl, rfl⟩ := hres
  rw [BitVec.extractLsb'_append_eq_left, BitVec.extractLsb'_append_eq_right]

end

/-! ### The syndromes of patterns (R85 to R90) -/

section
variable {g L : Nat} {E E' : ErrPattern}

theorem patSyn_one (g i : Nat) : patSyn g (.one i) = syn1 g i := by
  simp [patSyn, patPoly, ErrPattern.positions, syn1]

theorem patSyn_two (g i j : Nat) : patSyn g (.two i j) = syn2 g i j := by
  simp [patSyn, patPoly, ErrPattern.positions, syn2]

theorem patSyn_three (g i j k : Nat) : patSyn g (.three i j k) = syn3 g i j k := by
  simp [patSyn, patPoly, ErrPattern.positions, syn3, Nat.xor_assoc]

theorem patternOf_one_iff (i : Nat) : PatternOf L (.one i) ↔ i < 8 * L := by simp [PatternOf, ErrPattern.positions]

theorem patternOf_two_iff (i j : Nat) : PatternOf L (.two i j) ↔ i < j ∧ j < 8 * L := calc
  PatternOf L (.two i j) ↔ i < j ∧ i < 8 * L ∧ j < 8 * L := by simp [PatternOf, ErrPattern.positions]
  _ ↔ i < j ∧ j < 8 * L := by omega

theorem patternOf_three_iff (i j k : Nat) : PatternOf L (.three i j k) ↔ i < j ∧ j < k ∧ k < 8 * L := calc
  PatternOf L (.three i j k) ↔ ((i < j ∧ i < k) ∧ j < k) ∧ i < 8 * L ∧ j < 8 * L ∧ k < 8 * L := by
    simp [PatternOf, ErrPattern.positions]
  _ ↔ i < j ∧ j < k ∧ k < 8 * L := by omega

/-- Every pattern of one or two bits is in the table, at its syndrome (R86, R87). -/
theorem inTable_of_size_le_two (hE : PatternOf L E) (hsize : E.size ≤ 2) : InTable g L (patSyn g E) E := by
  cases E with
  | one i => exact ⟨(patternOf_one_iff i).1 hE, (patSyn_one g i).symm⟩
  | two i j =>
    obtain ⟨hij, hj⟩ := (patternOf_two_iff i j).1 hE
    exact ⟨hij, hj, (patSyn_two g i j).symm⟩
  | three i j k => exact absurd hsize (show ¬ 3 ≤ 2 by decide)

/-- Where the lower tiers have no collision, no pattern of up to three bits has syndrome 0 (R90). -/
theorem patSyn_ne_zero (h : NoCollision g L) (hL : 0 < L) (hE : PatternOf L E) : patSyn g E ≠ 0 := by
  intro h0
  cases E with
  | one i => exact not_inTable_zero h hL _ (h0 ▸ inTable_of_size_le_two hE (show 1 ≤ 2 by decide))
  | two i j => exact not_inTable_zero h hL _ (h0 ▸ inTable_of_size_le_two hE (show 2 ≤ 2 by decide))
  | three i j k =>
    obtain ⟨hij, hjk, hk⟩ := (patternOf_three_iff i j k).1 hE
    rw [patSyn_three, syn3_eq, ← syn2_eq] at h0
    exact h.2.1 i j k hij (hjk.trans hk) hk (Nat.xor_eq_zero_iff.1 h0)

theorem toNat_ofNat_patSyn (hg : Degree16 g) (E : ErrPattern) : (BitVec.ofNat 16 (patSyn g E)).toNat = patSyn g E :=
  (BitVec.toNat_ofNat ..).trans (Nat.mod_eq_of_lt (red_lt hg _))

/-- Patterns of one polynomial flip one number of bits. -/
theorem size_eq_of_patPoly_eq (hE : PatternOf L E) (hE' : PatternOf L E')
    (h : patPoly E.positions = patPoly E'.positions) : E.size = E'.size := by
  have hnodup : E.positions.Nodup := hE.1.imp Nat.ne_of_lt
  have hnodup' : E'.positions.Nodup := hE'.1.imp Nat.ne_of_lt
  refine ((List.perm_ext_iff_of_nodup hnodup hnodup').2 fun p => ?_).length_eq
  rw [← decide_eq_decide, ← testBit_patPoly hnodup, h, testBit_patPoly hnodup']

end

/-! ### A received frame -/

/-- The byte buffer holds the valid frame `F` of length `L` with the bits of `E` flipped, and more; correction is
enabled, and construction of the table met no collision. -/
structure Received (s : State) (L : Nat) (F : List Byte) (E : ErrPattern) : Prop where
  degree : Degree16 s.gen.toNat
  five_le : 5 ≤ L
  lt_bytelen : L + 1 ≤ s.bytelen.toNat
  bytelen_le : s.bytelen.toNat ≤ 21
  length : F.length = L
  valid : frameValid s.gen.toNat F = true
  pattern : PatternOf L E
  enabled : s.ecen = true
  noCollision : NoCollision s.gen.toNat L
  read : ∀ k, k < L → s.mem.read (0x200 + k) = (xorBytes F (patBytes L E))[k]?

/-- The slice that the search tries: the un-inverted frame with the bits of the pattern flipped. -/
def receivedSlice (L : Nat) (F : List Byte) (E : ErrPattern) : List Byte := xorBytes (invertLastTwo F) (patBytes L E)

/-- A buffer of written entries has one slice. -/
theorem sliceOf_unique {s : State} {L : Nat} {F G : List Byte} (hlen : F.length = L)
    (hread : ∀ k, k < L → s.mem.read (0x200 + k) = F[k]?) (hG : SliceOf s L G) : G = F := by
  obtain ⟨hlenG, hsome⟩ := hG
  refine List.ext_getElem (hlenG.trans hlen.symm) fun k hkG hkF => ?_
  have hk : k < L := hlen ▸ hkF
  simpa [hkG] using hsome k F[k] hk ((hread k hk).trans (List.getElem?_eq_getElem hkF))

/-- The search tries a frame of written bytes on these bytes. -/
theorem frameSearch_triedOutcome_of_read {s : State} {L : Nat} {F : List Byte} (h21 : s.bytelen.toNat ≤ 21)
    (h5 : 5 ≤ L) (hL : L + 1 ≤ s.bytelen.toNat) (hlen : F.length = L)
    (hread : ∀ k, k < L → s.mem.read (0x200 + k) = F[k]?) : TriedOutcome s (frameSearch s) L F := by
  obtain ⟨G, hG, hout⟩ := frameSearch_triedOutcome h21 h5 hL
  exact sliceOf_unique hlen hread hG ▸ hout

/-- The un-inverted form of a valid frame has residue 0 (R83). -/
theorem residue_invertLastTwo_of_valid {g : Nat} {F : List Byte} (h : frameValid g F = true) :
    residue g (invertLastTwo F) = 0 := by rwa [← uninvert_eq_invertLastTwo, ← frameValid_iff]

section
variable {s : State} {L : Nat} {F : List Byte} {E E' : ErrPattern}

theorem Received.length_slice (h : Received s L F E) : (receivedSlice L F E).length = L := by
  rw [receivedSlice, length_xorBytes, length_invertLastTwo, length_patBytes, h.length, Nat.min_self]

/-- The syndrome of the slice is that of the pattern (R82, R85). -/
theorem Received.residue_slice (h : Received s L F E) :
    residue s.gen.toNat (receivedSlice L F E) = BitVec.ofNat 16 (patSyn s.gen.toNat E) := by
  have hlen : (invertLastTwo F).length = (patBytes L E).length := by
    rw [length_invertLastTwo, length_patBytes, h.length]
  rw [receivedSlice, residue_xorBytes _ hlen, residue_invertLastTwo_of_valid h.valid, residue_patBytes _ h.pattern]
  exact BitVec.zero_xor

/-- What the search leaves for the frame's length: its slice repaired by the table's pattern, or nothing (R98). -/
theorem Received.outcome (h : Received s L F E) {syn : BitVec 16} (hsyn : syn.toNat = patSyn s.gen.toNat E) :
    (∀ E', tableLookup s.gen.toNat true L syn = some E' →
      (frameSearch s).cinfoAt L = ⟨true, true, BitVec.ofNat 2 E'.size, syn⟩ ∧
      PayloadIs (frameSearch s) L (xorBytes (receivedSlice L F E) (patBytes L E')) ∧
      residue s.gen.toNat (xorBytes (receivedSlice L F E) (patBytes L E')) = 0) ∧
    (tableLookup s.gen.toNat true L syn = none → (frameSearch s).cinfoAt L = ⟨false, true, 0, syn⟩) := by
  have hlen : (patBytes L E).length = F.length := by rw [length_patBytes, h.length]
  have hpos : 0 < L := Nat.lt_of_lt_of_le (by decide) h.five_le
  have hne : syn ≠ 0 := fun h0 => patSyn_ne_zero h.noCollision hpos h.pattern (by rw [← hsyn, h0]; rfl)
  obtain ⟨-, hhit, hmiss⟩ := frameSearch_triedOutcome_of_read h.bytelen_le h.five_le h.lt_bytelen
    (by rw [length_xorBytes, hlen, Nat.min_self, h.length]) h.read
  rw [invertLastTwo_xorBytes hlen, ← receivedSlice, h.residue_slice, ← hsyn, BitVec.ofNat_toNat, BitVec.setWidth_eq,
    h.enabled] at hhit hmiss
  exact ⟨hhit hne, fun hnone => (hmiss hne hnone).1⟩

/-- A repair by the pattern received gives back the frame's payload. -/
theorem Received.payloadIs_of_hit (h : Received s L F E) {syn : BitVec 16} (hsyn : syn.toNat = patSyn s.gen.toNat E)
    (hE : tableLookup s.gen.toNat true L syn = some E) : PayloadIs (frameSearch s) L F := by
  obtain ⟨-, hpay, -⟩ := (h.outcome hsyn).1 E hE
  rwa [receivedSlice, xorBytes_cancel_right (by rw [length_patBytes, length_invertLastTwo, h.length]),
    payloadIs_invertLastTwo h.length] at hpay

/-- A repair that gives back the un-inverted frame flips as many bits as the pattern received. -/
theorem Received.size_eq_of_repaired (h : Received s L F E) (hE' : PatternOf L E')
    (hsame : xorBytes (receivedSlice L F E) (patBytes L E') = invertLastTwo F) : E.size = E'.size := by
  have hpoly := congrArg bufPoly hsame
  rw [bufPoly_xorBytes (by rw [h.length_slice, length_patBytes]), receivedSlice,
    bufPoly_xorBytes (by rw [length_invertLastTwo, h.length, length_patBytes]), bufPoly_patBytes h.pattern,
    bufPoly_patBytes hE', Nat.xor_assoc] at hpoly
  have hzero := Nat.xor_right_injective (hpoly.trans (Nat.xor_zero _).symm)
  exact size_eq_of_patPoly_eq h.pattern hE' (Nat.xor_eq_zero_iff.1 hzero)

/-- A repair by a pattern of another size does not give back the payload: with its residue 0 it would give back the
whole frame (R104). -/
theorem Received.not_payloadIs_of_size_ne (h : Received s L F E) {syn : BitVec 16}
    (hsyn : syn.toNat = patSyn s.gen.toNat E) (hE' : tableLookup s.gen.toNat true L syn = some E')
    (hsize : E.size ≠ E'.size) : ¬ PayloadIs (frameSearch s) L F := by
  intro hF
  obtain ⟨-, hpay, hres⟩ := (h.outcome hsyn).1 E' hE'
  have hlen : (xorBytes (receivedSlice L F E) (patBytes L E')).length = L := by
    rw [length_xorBytes, h.length_slice, length_patBytes, Nat.min_self]
  have hW : (invertLastTwo F).length = L := by rw [length_invertLastTwo, h.length]
  have hsame : xorBytes (receivedSlice L F E) (patBytes L E') = invertLastTwo F := by
    refine eq_of_residue_eq (hlen.trans hW.symm) (by rw [hlen]; exact Nat.le_trans (by decide) h.five_le)
      (fun k hk => ?_) (hres.trans (residue_invertLastTwo_of_valid h.valid).symm)
    rw [hlen] at hk
    exact (hpay k hk).symm.trans ((payloadIs_invertLastTwo h.length).2 hF k hk)
  exact hsize (h.size_eq_of_repaired (tableLookup_sound hE').1 hsame)

end

/-- Settles O31: a valid slice has syndrome 0, and the table has the pattern of one or two errors. -/
theorem framesWithFewErrorsAreRecovered : Obligations.FramesWithFewErrorsAreRecovered := by
  intro s L F hok h5 _ hlen hvalid hL h21
  have hg := degree16_of_getLsbD hok
  refine ⟨fun hread => ⟨_, rfl, ?valid⟩, fun E hE hsize hecen hcol hread => ⟨_, rfl, ?repaired⟩⟩
  case valid =>
    obtain ⟨hmatch, -, -⟩ := frameSearch_triedOutcome_of_read h21 h5 hL hlen hread
    obtain ⟨hinfo, hpay⟩ := hmatch (residue_invertLastTwo_of_valid hvalid)
    exact ⟨hinfo, (payloadIs_invertLastTwo hlen).1 hpay⟩
  case repaired =>
    have hno := (lengthCollision_eq_none_iff ..).1 hcol
    have hrec : Received s L F E := ⟨hg, h5, hL, h21, hlen, hvalid, hE, hecen, hno, hread⟩
    have hsyn := toNat_ofNat_patSyn hg E
    have hhit : tableLookup s.gen.toNat true L (BitVec.ofNat 16 (patSyn s.gen.toNat E)) = some E :=
      (tableLookup_eq_some_iff hno _ E).2 (hsyn.symm ▸ inTable_of_size_le_two hE hsize)
    exact ⟨((hrec.outcome hsyn).1 E hhit).1, hrec.payloadIs_of_hit hsyn hhit⟩

/-- Settles O32: the frame is repaired by what the table has for the triple's syndrome. -/
theorem threeErrorsAreRecoveredMissedOrMiscorrected : Obligations.ThreeErrorsAreRecoveredMissedOrMiscorrected := by
  intro s L F i j k syn hok h5 _ hlen hvalid hL h21 hij hjk hk hecen hcol hsyn3 hread
  have hno := (lengthCollision_eq_none_iff ..).1 hcol
  have hrec : Received s L F (.three i j k) := ⟨degree16_of_getLsbD hok, h5, hL, h21, hlen, hvalid,
    (patternOf_three_iff i j k).2 ⟨hij, hjk, hk⟩, hecen, hno, hread⟩
  have hsyn : syn.toNat = patSyn s.gen.toNat (.three i j k) := hsyn3.trans (patSyn_three ..).symm
  obtain ⟨hhit, hmiss⟩ := hrec.outcome hsyn
  refine ⟨_, rfl, fun hE => ?recovered, fun hnone => ?missed, fun E hsize hE => ?miscorrected, fun a b c hE => ?other⟩
  case recovered =>
    obtain ⟨hinfo, -⟩ := hhit _ hE
    exact ⟨by rw [hinfo], by rw [hinfo]; rfl, hrec.payloadIs_of_hit hsyn hE⟩
  case missed => rw [hmiss hnone]
  case miscorrected =>
    obtain ⟨hinfo, -⟩ := hhit _ hE
    exact ⟨by rw [hinfo], by rw [hinfo], hrec.not_payloadIs_of_size_ne hsyn hE (Nat.ne_of_gt (Nat.lt_succ_of_le hsize))⟩
  case other =>
    obtain ⟨-, -, -, -, hunique⟩ := (tableLookup_eq_some_iff hno syn (.three a b c)).1 hE
    exact (hunique i j k hij hjk hk hsyn3.symm).symm

end Sys2Proof.Machine
end

section
/-! PROOFS. The control commands (43_control.md R105, R106): the check both share, and `NOP` and `CLRERR`. -/

namespace Sys2Proof.Machine
open Sys2Proof.Spec

/-- A word of format Z with bits 23:0 not all 0 records `BAD_FIELD` (R64, R66). -/
theorem raises_badField_of_formatZ {i : Instr} {w : Word} (hi : i ∈ formatZCommands) (ho : opcField w = i.opcode)
    (hz : w.extractLsb' 0 24 ≠ 0) (s : State) : Raises 0x02 w s :=
  raises_of_decodeError ((decode_of_formatZ hi ho).trans (if_neg hz)) s

/-- Settles O33: both commands are of format Z, and a halted engine drops the write that would issue one. -/
theorem controlCommands : Obligations.ControlCommands := by
  refine ⟨?nopWord, ?clrerrWord, fun _ => rfl, fun _ => rfl, fun s w ho hz => ?field, fun _ _ => hostWrite_of_halted⟩
  case nopWord => decide
  case clrerrWord => decide
  case field =>
    obtain ho | ho := ho
    · exact raises_badField_of_formatZ (i := .nop) (by decide) ho hz s
    · exact raises_badField_of_formatZ (i := .clrerr) (by decide) ho hz s

end Sys2Proof.Machine
end

section
/-! PROOFS. What one step does to a recorded error (60_exceptions.md R109, R110, R115), and a halted engine (R110). -/

namespace Sys2Proof.Machine
open Sys2Proof.Spec

section
variable {s t : State}

/-- Every step, by what moves: the host with its program ended, an action of the host, or the engine (R10). -/
theorem step_moves (h : step s = .next t) :
    t = s.takeTurn ∨ (∃ op rest, HostDoes s op rest ∧ t = hostAct op rest s.takeTurn) ∨
      (s.nextAgent = .engine ∧ engineMove s.takeTurn = .next t) := by
  obtain ⟨hg, ⟨ha, rfl⟩ | ⟨ha, he⟩⟩ := step_cases s t h
  · obtain ⟨-, hm⟩ | ⟨op, rest, hop, hm⟩ := hostMove_cases s.takeTurn
    · exact .inl hm
    · exact .inr (.inl ⟨op, rest, ⟨hg, ha, hop⟩, hm⟩)
  · exact .inr (.inr ⟨ha, he⟩)

/-! ### The recorded error -/

/-- `ERR`, `ERRCODE` and `ERRINFO` are as before. -/
structure ErrorKept (s t : State) : Prop where
  err : t.err = s.err
  errCode : t.errCode = s.errCode
  errInfo : t.errInfo = s.errInfo

theorem ErrorKept.refl (s : State) : ErrorKept s s := ⟨rfl, rfl, rfl⟩

theorem ControlFrame.errorKept (h : ControlFrame s t) : ErrorKept s t := { h with }

/-- A second error is not recorded (R109). -/
theorem recordError_errorKept (c : ErrorCode) (info : Word) (h : s.err = true) : ErrorKept s (recordError c info s) := by
  rw [recordError_of_err c info s h]; exact .refl s

/-! ### The engine's moves -/

/-- Of the commands only `CLRERR` changes a recorded error (R106, R109). -/
theorem exec_errorKept {i : Instr} (hs : s.err = true) (h : exec i s = .next t) :
    ErrorKept s t ∨ (i = .clrerr ∧ t = clearError s) := by
  cases i with
  | nop => cases h; exact .inl (.refl s)
  | padd => cases h; exact .inl ⟨rfl, rfl, rfl⟩
  | pmulm => cases h; exact .inl ⟨rfl, rfl, rfl⟩
  | ppowm => cases h; exact .inl ⟨rfl, rfl, rfl⟩
  | prem => cases h; exact .inl ⟨rfl, rfl, rfl⟩
  | synd len inv =>
    simp only [exec, execSynd] at h
    split at h
    · cases h; exact .inl ⟨rfl, rfl, rfl⟩
    · cases h; exact .inl (recordError_errorKept _ _ hs)
  | tlookup len x =>
    simp only [exec, execTlookup] at h
    split at h
    · cases h; exact .inl ⟨rfl, rfl, rfl⟩
    · cases h; exact .inl (recordError_errorKept _ _ hs)
  | demod => cases h; exact .inl ⟨rfl, rfl, rfl⟩
  | fsearch => cases h; exact .inl (frameSearch_controlFrame s).errorKept
  | process => cases h; exact .inl { (frameSearch_controlFrame (demodulate s)).errorKept with }
  | clrerr => cases h; exact .inr ⟨rfl, rfl⟩

/-- The engine's turn keeps a recorded error, halts a building engine, or performs `CLRERR` (R106, R109, R124). -/
theorem engineMove_errorKept (hs : s.err = true) (h : engineMove s = .next t) :
    ErrorKept s t ∨ (s.phase = .building ∧ t.phase = .halted) ∨
      (s.phase = .run ∧ s.pending = some (encode .clrerr) ∧ t = clearError { s with pending := none }) := by
  obtain ⟨hp, he⟩ | ⟨-, he⟩ | ⟨-, -, he⟩ | ⟨w, i, hp, hq, hd, he⟩ | ⟨w, e, -, -, -, he⟩ := engineMove_cases s
  all_goals rw [he] at h
  · cases h
    obtain ⟨-, hb⟩ | ⟨tier, L, syn, -, -, hb⟩ := buildStep_cases s
    all_goals rw [hb]
    · exact .inl ⟨rfl, rfl, rfl⟩
    · exact .inr (.inl ⟨hp, rfl⟩)
  · cases h; exact .inl (.refl s)
  · cases h; exact .inl (.refl s)
  · obtain hk | ⟨rfl, rfl⟩ := exec_errorKept (s := { s with pending := none }) hs h
    · exact .inl { hk with }
    · exact .inr (.inr ⟨hp, encode_of_decode hd ▸ hq, rfl⟩)
  · cases h
    exact .inl { recordError_errorKept (s := { s with pending := none }) _ _ hs with }

/-! ### The host's moves -/

theorem performWrite_errorKept (r : Reg) (v : Word) (s : State) : ErrorKept s (performWrite r v s) := by
  cases r <;> exact ⟨rfl, rfl, rfl⟩

theorem hostWrite_errorKept (a : Addr) (v : Word) (hs : s.err = true) : ErrorKept s (hostWrite a v s) := by
  obtain ⟨-, he⟩ | ⟨-, he⟩ | ⟨r, -, -, he⟩ | ⟨r, -, -, -, he⟩ := hostWrite_cases a v s
  all_goals rw [he]
  · exact .refl s
  · exact .refl s
  · exact recordError_errorKept _ _ hs
  · exact performWrite_errorKept r v s

/-- Of the host's actions only a reset changes a recorded error (R109, R122). -/
theorem hostAct_errorKept (op : HostOp) (rest : List HostOp) (hs : s.err = true) :
    ErrorKept s (hostAct op rest s) ∨ ∃ ec, op = .reset ec := by
  cases op with
  | write a v => exact .inl { hostWrite_errorKept (s := { s with hostProgram := rest }) a v hs with }
  | read a => exact .inl ⟨rfl, rfl, rfl⟩
  | wait => left; simp only [hostAct]; split <;> exact ⟨rfl, rfl, rfl⟩
  | boot => left; simp only [hostAct]; split <;> exact ⟨rfl, rfl, rfl⟩
  | reset ec => exact .inr ⟨ec, rfl⟩

/-! ### A halted engine (R110) -/

/-- Only the host agent's own fields and the draw counter have moved (logs 4, 6, 8). -/
def EngineUnchanged (s t : State) : Prop :=
  t = { s with hostProgram := t.hostProgram, turns := t.turns, readData := t.readData, drawCount := t.drawCount }

theorem engineMove_of_halted (h : s.phase = .halted) : engineMove s = .next s := by simp only [engineMove, h]

/-- Of the host's actions only a reset changes a halted engine. -/
theorem hostAct_of_halted (op : HostOp) (rest : List HostOp) (h : s.phase = .halted) :
    EngineUnchanged s (hostAct op rest s) ∨ ∃ ec, op = .reset ec := by
  cases op with
  | write a v =>
    left
    rw [hostAct, hostWrite_of_halted (s := { s with hostProgram := rest }) h]
    rfl
  | read a => exact .inl rfl
  | wait => left; simp only [hostAct]; split <;> rfl
  | boot => left; simp only [hostAct]; split <;> rfl
  | reset ec => exact .inr ⟨ec, rfl⟩

end

/-- Settles O34, from what each agent's move does to a recorded error. -/
theorem firstErrorIsKept : Obligations.FirstErrorIsKept := by
  intro s t hs h
  have kept {u : State} (hk : ErrorKept s.takeTurn u) :
      u.err = true ∧ u.errCode = s.errCode ∧ u.errInfo = s.errInfo := ⟨hk.err.trans hs, hk.errCode, hk.errInfo⟩
  obtain rfl | ⟨op, rest, hdo, rfl⟩ | ⟨ha, he⟩ := step_moves h
  · exact .inl (kept (.refl _))
  · obtain hk | ⟨ec, rfl⟩ := hostAct_errorKept (s := s.takeTurn) op rest hs
    · exact .inl (kept hk)
    · exact .inr (.inr (.inr ⟨ec, rest, hdo, rfl⟩))
  · obtain hk | ⟨hp, ht⟩ | ⟨hp, hq, rfl⟩ := engineMove_errorKept (s := s.takeTurn) hs he
    · exact .inl (kept hk)
    · exact .inr (.inl ⟨fun hhalt => (nomatch hp.symm.trans hhalt), ht, ha⟩)
    · exact .inr (.inr (.inl ⟨hp, hq, ha, rfl, rfl, rfl⟩))

/-- Settles O36: the engine has no move, a write is dropped, and a read changes nothing of the engine. -/
theorem haltedUntilReset : Obligations.HaltedUntilReset := by
  refine ⟨fun s hg hp ha => (step_of_engine hg ha).trans (engineMove_of_halted hp), fun s t hp h => ?_⟩
  obtain rfl | ⟨op, rest, hdo, rfl⟩ | ⟨-, he⟩ := step_moves h
  · exact .inr rfl
  · obtain hu | ⟨ec, rfl⟩ := hostAct_of_halted (s := s.takeTurn) op rest hp
    · exact .inr hu
    · exact .inl ⟨ec, rest, hdo, rfl⟩
  · rw [engineMove_of_halted (s := s.takeTurn) hp] at he
    cases he
    exact .inr rfl

end Sys2Proof.Machine
end

section
/-! PROOFS. Several engines (60_exceptions.md R119): a platform step is one engine's own step. -/

namespace Sys2Proof.Machine

/-- Every platform step: the platform has no engine `k`, or engine `k` takes its own step. -/
theorem platformStep_cases {k : Nat} {engines after : List State} (h : platformStep k engines = .next after) :
    (engines[k]? = none ∧ after = engines) ∨
      ∃ s t, engines[k]? = some s ∧ step s = .next t ∧ after = engines.set k t := by
  unfold platformStep at h
  cases hk : engines[k]? with
  | none => rw [hk] at h; cases h; exact .inl ⟨rfl, rfl⟩
  | some s =>
    simp only [hk] at h
    cases hs : step s with
    | next t => rw [hs] at h; cases h; exact .inr ⟨s, t, rfl, hs, rfl⟩
    | fault f => rw [hs] at h; cases h
    | refused r => rw [hs] at h; cases h

/-- Settles O52: the platform replaces engine `k` alone. -/
theorem enginesAreIndependent : Obligations.EnginesAreIndependent := by
  intro engines after k h
  obtain ⟨hk, rfl⟩ | ⟨s, t, hk, hs, rfl⟩ := platformStep_cases h
  · exact ⟨fun _ _ => rfl, fun s hs => nomatch hk.symm.trans hs⟩
  · refine ⟨fun j hj => List.getElem?_set_ne hj.symm, fun s' hs' => ?_⟩
    obtain rfl : s = s' := Option.some.inj (hk.symm.trans hs')
    obtain ⟨hlt, -⟩ := List.getElem?_eq_some_iff.1 hk
    exact ⟨t, hs, List.getElem?_set_self hlt⟩

end Sys2Proof.Machine
end

section
/-! PROOFS. Reset (70_reset_and_hazards.md R122, R123): the values it leaves, and that nothing else leaves `HALTED`. -/

namespace Sys2Proof.Machine
open Sys2Proof.Spec

/-- Settles O47: the reset state meets each field of the invariant. -/
theorem resetMeetsTheInvariant : Obligations.ResetMeetsTheInvariant := resetWith_inv

theorem step_of_reset {s : State} {ec : Bool} {rest : List HostOp} (h : HostDoes s (.reset ec) rest) :
    step s = .next (resetEngine ec (afterAction s rest)) :=
  step_of_host h

/-- After reset the engine is busy with construction, and the strap shows (R123). -/
theorem resetEngine_status (ec : Bool) (s : State) :
    (resetEngine ec s).status = if ec then 0x00000006 else 0x00000002 := by
  have hflags : (resetEngine ec s).status =
      bitAt false 0 ||| bitAt true 1 ||| bitAt ec 2 ||| bitAt false 3 ||| bitAt false 4 ||| bitAt false 5 := rfl
  rw [hflags]
  cases ec <;> decide

theorem resetEngine_cinfoAt (ec : Bool) (s : State) (L : Nat) : (resetEngine ec s).cinfoAt L = {} :=
  State.cinfoAt_of_cleared rfl L

theorem CInfo.word_empty : ({} : CInfo).word = 0 := by decide

/-- Nothing but a reset takes the engine out of `HALTED` (R35, R122). -/
theorem reset_of_leaves_halted {s t : State} (hp : s.phase = .halted) (h : step s = .next t) (ht : t.phase ≠ .halted) :
    ∃ ec rest, HostDoes s (.reset ec) rest := by
  obtain ⟨hb, -⟩ | ⟨hr, -⟩ | ⟨-, hreset⟩ := phaseTransitions.2 s t h (hp ▸ ht)
  · exact nomatch hp.symm.trans hb
  · exact nomatch hp.symm.trans hr
  · exact hreset

/-- Settles O43: each field is the reset state's, or one that reset keeps. -/
theorem resetFromAnyState : Obligations.ResetFromAnyState := by
  refine ⟨fun s ec rest hdo => ⟨_, step_of_reset hdo, ?_⟩, fun s t => reset_of_leaves_halted⟩
  have hcinfo : ∀ L, 5 ≤ L → L ≤ 21 → ((resetEngine ec (afterAction s rest)).cinfoAt L).word = 0 := fun L _ _ => by
    rw [resetEngine_cinfoAt, CInfo.word_empty]
  exact ⟨rfl, rfl, rfl, rfl, resetEngine_status .., rfl, rfl, rfl, rfl, rfl, rfl, rfl, rfl, rfl, rfl, rfl, rfl, hcinfo,
    fun _ => rfl, rfl, rfl, rfl, rfl, rfl, rfl⟩

end Sys2Proof.Machine
end

section
/-! PROOFS. The construction step (70_reset_and_hazards.md R124, 41_syndrome_table.md R91): the scan of each tier stops at
the first syndrome that repeats, and construction at the smallest length that has one. -/

namespace Sys2Proof.Machine
open Sys2Proof.Spec

/-! ### Where a scan stops -/

/-- The syndrome of `p` is in `seen`, or that of an entry of `l` before `p`. -/
def RepeatsIn {α : Type} (before : α → α → Prop) (f : α → Nat) (seen : Nat) (l : List α) (p : α) : Prop :=
  seen.testBit (f p) = true ∨ ∃ q ∈ l, before q p ∧ f q = f p

section
variable {α : Type} {before : α → α → Prop} {f : α → Nat} {x p : α} {l : List α}

theorem repeatsIn_cons_iff {seen : Nat} (hx : before x p) :
    RepeatsIn before f seen (x :: l) p ↔ RepeatsIn before f (seen ||| (1 <<< f x)) l p := by
  simp only [RepeatsIn, List.exists_mem_cons_iff, hx, true_and, Nat.testBit_or, Nat.one_shiftLeft, Nat.testBit_two_pow,
    Bool.or_eq_true, decide_eq_true_eq, or_assoc]

/-- A scan that ascends stops at the first entry that repeats. -/
theorem firstRepeat_eq_some {seen s : Nat} (hasymm : ∀ a b, before a b → ¬ before b a) (hl : l.Pairwise before)
    (h : firstRepeat seen (l.map f) = some s) :
    ∃ p ∈ l, f p = s ∧ RepeatsIn before f seen l p ∧ ∀ q ∈ l, before q p → ¬ RepeatsIn before f seen l q := by
  induction l generalizing seen with
  | nil => cases h
  | cons x rest ih =>
    obtain ⟨hx, hrest⟩ := List.pairwise_cons.1 hl
    have hfirst : ∀ q ∈ x :: rest, ¬ before q x := List.forall_mem_cons.2
      ⟨fun hxx => hasymm x x hxx hxx, fun q hq => hasymm x q (hx q hq)⟩
    rw [List.map_cons, firstRepeat] at h
    split at h
    · next hseen =>
      exact ⟨x, List.mem_cons_self, Option.some.inj h, .inl hseen, fun q hq hqx => absurd hqx (hfirst q hq)⟩
    · next hseen =>
      obtain ⟨p, hp, hps, hrep, hmin⟩ := ih hrest h
      refine ⟨p, List.mem_cons_of_mem x hp, hps, (repeatsIn_cons_iff (hx p hp)).2 hrep,
        List.forall_mem_cons.2 ⟨fun _ => ?_, fun q hq hqp => ?_⟩⟩
      · rintro (hbit | ⟨q, hq, hqx, -⟩)
        · exact hseen hbit
        · exact hfirst q hq hqx
      · exact fun hr => hmin q hq hqp ((repeatsIn_cons_iff (hx q hq)).1 hr)

end

/-! ### The first collision of a length (R91) -/

theorem pairBefore_asymm (q r : Nat × Nat) (h : PairBefore q.1 q.2 r.1 r.2) : ¬ PairBefore r.1 r.2 q.1 q.2 := by
  unfold PairBefore at *
  omega

/-- The pairs of an ascending list are in ascending lexicographic order. -/
theorem pairwise_orderedPairs {l : List Nat} (hl : l.Pairwise (· < ·)) :
    (orderedPairs l).Pairwise fun q r => PairBefore q.1 q.2 r.1 r.2 := by
  induction l with
  | nil => exact .nil
  | cons x rest ih =>
    obtain ⟨hx, hrest⟩ := List.pairwise_cons.1 hl
    refine List.pairwise_append.2 ⟨List.pairwise_map.2 (hrest.imp fun h => .inr ⟨rfl, h⟩), ih hrest, fun q hq r hr => ?_⟩
    obtain ⟨j, -, rfl⟩ := List.mem_map.1 hq
    exact .inl (hx _ ((mem_orderedPairs hrest r.1 r.2).1 hr).1)

/-- The scan of the 1-bit tier stops at the first position that repeats (R86). -/
theorem firstSingleCollision_of_tier1Collision {g L s : Nat} (h : tier1Collision g L = some s) :
    FirstSingleCollision g L s := by
  have hrepeats {j : Nat} (hj : j < 8 * L) :
      RepeatsIn (· < ·) (syn1 g) 0 (List.range (8 * L)) j ↔ SingleRepeats g j := by
    simp only [RepeatsIn, SingleRepeats, Nat.zero_testBit, List.mem_range]
    exact ⟨fun h => h.elim nofun fun ⟨i, _, hi⟩ => ⟨i, hi⟩, fun ⟨i, hij, hi⟩ => .inr ⟨i, hij.trans hj, hij, hi⟩⟩
  rw [tier1Collision, singles_map_snd] at h
  obtain ⟨j, hj, hs, hrep, hmin⟩ := firstRepeat_eq_some (fun _ _ => Nat.lt_asymm) List.pairwise_lt_range h
  have hlt := List.mem_range.1 hj
  exact ⟨j, hlt, hs, (hrepeats hlt).1 hrep, fun i hij hi =>
    hmin i (List.mem_range.2 (hij.trans hlt)) hij ((hrepeats (hij.trans hlt)).2 hi)⟩

/-- The scan of the 2-bit tier stops at the first pair that repeats (R87). -/
theorem firstPairCollision_of_tier2Collision {g L s : Nat} (h : tier2Collision g L = some s) :
    FirstPairCollision g L s := by
  have hrepeats (i j : Nat) :
      RepeatsIn (fun q r => PairBefore q.1 q.2 r.1 r.2) (fun q => syn2 g q.1 q.2)
        (synSet ((singles g L).map Prod.snd)) (framePairs L) (i, j) ↔ PairRepeats g L i j := by
    simp only [RepeatsIn, PairRepeats, testBit_synSet_singles, Prod.exists, mem_framePairs, and_assoc]
  rw [tier2Collision, pairSyns_singles] at h
  obtain ⟨⟨i, j⟩, hij, hs, hrep, hmin⟩ :=
    firstRepeat_eq_some pairBefore_asymm (pairwise_orderedPairs List.pairwise_lt_range) h
  obtain ⟨hlt, hj⟩ := (mem_framePairs L i j).1 hij
  exact ⟨i, j, hlt, hj, hs, (hrepeats i j).1 hrep, fun i' j' hlt' hj' hbefore hr =>
    hmin (i', j') ((mem_framePairs L i' j').2 ⟨hlt', hj'⟩) hbefore ((hrepeats i' j').2 hr)⟩

/-- Construction of length `L` stops in tier `tier` at syndrome `s`: the 1-bit tier's first collision, else the 2-bit
tier's (R91). -/
def StopsAt (g L tier s : Nat) : Prop :=
  (tier = 1 ∧ FirstSingleCollision g L s) ∨ (tier = 2 ∧ Tier1Distinct g L ∧ FirstPairCollision g L s)

theorem lengthCollision_of_not_noCollision {g L : Nat} (h : ¬ NoCollision g L) :
    ∃ tier s, lengthCollision g L = some (tier, s) ∧ StopsAt g L tier s := by
  rw [← lengthCollision_eq_none_iff, lengthCollision] at h
  rw [lengthCollision]
  cases h1 : tier1Collision g L with
  | some s => exact ⟨1, s, rfl, .inl ⟨rfl, firstSingleCollision_of_tier1Collision h1⟩⟩
  | none =>
    cases h2 : tier2Collision g L with
    | some s =>
      exact ⟨2, s, rfl, .inr ⟨rfl, (tier1Collision_eq_none_iff g L).1 h1, firstPairCollision_of_tier2Collision h2⟩⟩
    | none => rw [h1, h2] at h; exact absurd rfl h

/-- A syndrome at which construction stops fits its field of `ERRINFO` (R108). -/
theorem StopsAt.lt {g L tier s : Nat} (hg : Degree16 g) (h : StopsAt g L tier s) : s < 2 ^ 16 := by
  obtain ⟨-, j, -, rfl, -⟩ | ⟨-, -, i, j, -, -, rfl, -⟩ := h
  · exact red_lt hg _
  · exact red_lt hg _

/-! ### The first collision of all lengths (R91) -/

theorem tableLengths_pairwise : tableLengths.Pairwise (· < ·) := by decide

/-- The lengths are built in ascending order, so the smallest that collides is where construction stops. -/
theorem firstCollision_eq_some {g L tier s : Nat} {Ls : List Nat} (hLs : Ls.Pairwise (· < ·)) (hL : L ∈ Ls)
    (hc : lengthCollision g L = some (tier, s)) (hmin : ∀ L' ∈ Ls, L' < L → NoCollision g L') :
    firstCollision g Ls = some (tier, L, s) := by
  induction Ls with
  | nil => cases hL
  | cons x rest ih =>
    obtain ⟨hx, hrest⟩ := List.pairwise_cons.1 hLs
    obtain ⟨hxmin, hrestmin⟩ := List.forall_mem_cons.1 hmin
    rw [firstCollision]
    obtain rfl | hL := List.mem_cons.1 hL
    · rw [hc]
    · rw [(lengthCollision_eq_none_iff g x).2 (hxmin (hx L hL))]
      exact ih hrest hL hrestmin

/-! ### The step (R124) -/

theorem buildStep_of_not_ecen {s : State} (h : s.ecen = false) : buildStep s = { s with phase := .run } := by
  simp only [buildStep, h]
  rfl

theorem buildStep_of_firstCollision {s : State} {tier L syn : Nat} (he : s.ecen = true)
    (h : firstCollision s.g tableLengths = some (tier, L, syn)) :
    buildStep s = recordFatal .tableCollision (fatalInfo tier L (BitVec.ofNat 16 syn)) s := by
  rw [buildStep, if_pos he, h]

/-- Settles O8: the step is the scan of the lengths, and the smallest length that collides is where it stops. -/
theorem constructionStepBuildsOrHalts : Obligations.ConstructionStepBuildsOrHalts := by
  intro s hok hphase hagent
  rw [step_of_engine hok hagent, engineMove_of_building (s := s.takeTurn) hphase]
  refine ⟨fun h => ?builds, fun he L h5 h21 hL hmin => ?halts⟩
  case builds =>
    obtain he | hnone := h
    · rw [buildStep_of_not_ecen (s := s.takeTurn) he]; rfl
    · rw [buildStep_of_noCollision (s := s.takeTurn) hnone]; rfl
  case halts =>
    obtain ⟨tier, syn, hc, hstop⟩ := lengthCollision_of_not_noCollision hL
    have hfirst : firstCollision s.g tableLengths = some (tier, L, syn) :=
      firstCollision_eq_some tableLengths_pairwise ((mem_tableLengths L).2 ⟨h5, h21⟩) hc
        fun L' hL' => hmin L' ((mem_tableLengths L').1 hL').1
    have hsyn : (BitVec.ofNat 16 syn).toNat = syn := 
      (BitVec.toNat_ofNat ..).trans (Nat.mod_eq_of_lt (hstop.lt (State.degree16_g hok)))
    refine ⟨BitVec.ofNat 8 tier, BitVec.ofNat 16 syn, ?step, ?stop⟩
    case step => rw [buildStep_of_firstCollision (s := s.takeTurn) he hfirst]; rfl
    case stop =>
      rw [hsyn]
      obtain ⟨rfl, hsingle⟩ | ⟨rfl, hpair⟩ := hstop
      · exact .inl ⟨rfl, hsingle⟩
      · exact .inr ⟨rfl, hpair⟩

end Sys2Proof.Machine
end
